-- ==== Sys2Proof/Word.lean ====
section
/-! DEFINITION. The value types of the CCVM-C-Port core (`00_scope.md` R9). Everything is unsigned. -/

namespace Sys2Proof

/-- A byte: of the instruction stream, of RAM, of the host's character streams. -/
abbrev Byte := BitVec 8

/-- An unsigned 32-bit value: registers, stack elements, literals, addresses, `pc` (R9). -/
abbrev Word := BitVec 32

/-- A register index, one unsigned byte (`30_encoding.md` R73). -/
abbrev RegIdx := BitVec 8

/-- `MAX`, the largest 32-bit value (R9). -/
def maxWord : Nat := 4294967295

end Sys2Proof
end

