-- ==== Sys2Proof/Syntax.lean ====
section
/-! DEFINITION. The 75 instructions of the CCVM-C-Port core (`30_encoding.md` R80), operands as
decoded fields (R70 to R74). -/

namespace Sys2Proof

/-- One constructor per row of the opcode list (R80), in its order. `ra`, `rb` are register indices
(R73), `lit` is a literal (R72), `addr`, `addr1`, `addr2` are RAM addresses or jump targets (R74).
The roles of the operands are those of R82. -/
inductive Instr where
  /-- `exit` (47_nop_exit.md R241). -/
  | exit
  /-- `nop` (47_nop_exit.md R240). -/
  | nop
  /-- `push_lit` (44_data_movement.md R191). -/
  | pushLit (lit : Word)
  /-- `push_reg` (44_data_movement.md R192). -/
  | pushReg (ra : RegIdx)
  /-- `push_mem` (44_data_movement.md R193). -/
  | pushMem (addr : Word)
  /-- `pop_reg` (44_data_movement.md R194). -/
  | popReg (ra : RegIdx)
  /-- `pop_memory` (44_data_movement.md R195). -/
  | popMemory (addr : Word)
  /-- `stack_dupe` (44_data_movement.md R196). -/
  | stackDupe
  /-- `mov_lit_reg` (44_data_movement.md R197). -/
  | movLitReg (ra : RegIdx) (lit : Word)
  /-- `mov_reg_reg` (44_data_movement.md R198). -/
  | movRegReg (ra rb : RegIdx)
  /-- `mov_mem_reg` (44_data_movement.md R199). -/
  | movMemReg (ra : RegIdx) (addr : Word)
  /-- `mov_reg_mem` (44_data_movement.md R200). -/
  | movRegMem (ra : RegIdx) (addr : Word)
  /-- `mov_lit_mem` (44_data_movement.md R201). -/
  | movLitMem (lit addr : Word)
  /-- `mov_mem_mem` (44_data_movement.md R202). -/
  | movMemMem (addr1 addr2 : Word)
  /-- `math_add_reg` (41_arithmetic_binary.md R121). -/
  | mathAddReg (ra rb : RegIdx)
  /-- `math_add_stack` (41_arithmetic_binary.md R122). -/
  | mathAddStack
  /-- `math_add_reg_lit` (41_arithmetic_binary.md R123). -/
  | mathAddRegLit (ra : RegIdx) (lit : Word)
  /-- `math_add_stack_lit` (41_arithmetic_binary.md R124). -/
  | mathAddStackLit (lit : Word)
  /-- `math_sub_reg` (41_arithmetic_binary.md R125). -/
  | mathSubReg (ra rb : RegIdx)
  /-- `math_sub_stack` (41_arithmetic_binary.md R126). -/
  | mathSubStack
  /-- `math_sub_reg_lit` (41_arithmetic_binary.md R127). -/
  | mathSubRegLit (ra : RegIdx) (lit : Word)
  /-- `math_sub_stack_lit` (41_arithmetic_binary.md R128). -/
  | mathSubStackLit (lit : Word)
  /-- `math_mul_reg` (41_arithmetic_binary.md R129). -/
  | mathMulReg (ra rb : RegIdx)
  /-- `math_mul_stack` (41_arithmetic_binary.md R130). -/
  | mathMulStack
  /-- `math_mul_reg_lit` (41_arithmetic_binary.md R131). -/
  | mathMulRegLit (ra : RegIdx) (lit : Word)
  /-- `math_mul_stack_lit` (41_arithmetic_binary.md R132). -/
  | mathMulStackLit (lit : Word)
  /-- `math_div_reg` (41_arithmetic_binary.md R133). -/
  | mathDivReg (ra rb : RegIdx)
  /-- `math_div_stack` (41_arithmetic_binary.md R134). -/
  | mathDivStack
  /-- `math_div_reg_lit` (41_arithmetic_binary.md R135). -/
  | mathDivRegLit (ra : RegIdx) (lit : Word)
  /-- `math_div_stack_lit` (41_arithmetic_binary.md R136). -/
  | mathDivStackLit (lit : Word)
  /-- `math_and_reg` (41_arithmetic_binary.md R137). -/
  | mathAndReg (ra rb : RegIdx)
  /-- `math_and_stack` (41_arithmetic_binary.md R138). -/
  | mathAndStack
  /-- `math_and_reg_lit` (41_arithmetic_binary.md R139). -/
  | mathAndRegLit (ra : RegIdx) (lit : Word)
  /-- `math_and_stack_lit` (41_arithmetic_binary.md R140). -/
  | mathAndStackLit (lit : Word)
  /-- `math_or_reg` (41_arithmetic_binary.md R141). -/
  | mathOrReg (ra rb : RegIdx)
  /-- `math_or_stack` (41_arithmetic_binary.md R142). -/
  | mathOrStack
  /-- `math_or_reg_lit` (41_arithmetic_binary.md R143). -/
  | mathOrRegLit (ra : RegIdx) (lit : Word)
  /-- `math_or_stack_lit` (41_arithmetic_binary.md R144). -/
  | mathOrStackLit (lit : Word)
  /-- `math_xor_reg` (41_arithmetic_binary.md R145). -/
  | mathXorReg (ra rb : RegIdx)
  /-- `math_xor_stack` (41_arithmetic_binary.md R146). -/
  | mathXorStack
  /-- `math_xor_reg_lit` (41_arithmetic_binary.md R147). -/
  | mathXorRegLit (ra : RegIdx) (lit : Word)
  /-- `math_xor_stack_lit` (41_arithmetic_binary.md R148). -/
  | mathXorStackLit (lit : Word)
  /-- `math_shl_reg` (41_arithmetic_binary.md R149). -/
  | mathShlReg (ra rb : RegIdx)
  /-- `math_shl_stack` (41_arithmetic_binary.md R150). -/
  | mathShlStack
  /-- `math_shl_reg_lit` (41_arithmetic_binary.md R151). -/
  | mathShlRegLit (ra : RegIdx) (lit : Word)
  /-- `math_shl_stack_lit` (41_arithmetic_binary.md R152). -/
  | mathShlStackLit (lit : Word)
  /-- `math_shr_reg` (41_arithmetic_binary.md R153). -/
  | mathShrReg (ra rb : RegIdx)
  /-- `math_shr_stack` (41_arithmetic_binary.md R154). -/
  | mathShrStack
  /-- `math_shr_reg_lit` (41_arithmetic_binary.md R155). -/
  | mathShrRegLit (ra : RegIdx) (lit : Word)
  /-- `math_shr_stack_lit` (41_arithmetic_binary.md R156). -/
  | mathShrStackLit (lit : Word)
  /-- `math_not_reg` (42_arithmetic_unary.md R167). -/
  | mathNotReg (ra : RegIdx)
  /-- `math_not_stack` (42_arithmetic_unary.md R168). -/
  | mathNotStack
  /-- `math_inc_reg` (42_arithmetic_unary.md R169). -/
  | mathIncReg (ra : RegIdx)
  /-- `math_inc_stack` (42_arithmetic_unary.md R170). -/
  | mathIncStack
  /-- `math_dec_reg` (42_arithmetic_unary.md R171). -/
  | mathDecReg (ra : RegIdx)
  /-- `math_dec_stack` (42_arithmetic_unary.md R172). -/
  | mathDecStack
  /-- `math_sqrt_reg` (42_arithmetic_unary.md R173). -/
  | mathSqrtReg (ra : RegIdx)
  /-- `math_sqrt_stack` (42_arithmetic_unary.md R174). -/
  | mathSqrtStack
  /-- `math_rand_reg` (42_arithmetic_unary.md R175). -/
  | mathRandReg (ra : RegIdx)
  /-- `math_rand_stack` (42_arithmetic_unary.md R176). -/
  | mathRandStack
  /-- `math_pow_reg` (42_arithmetic_unary.md R177). -/
  | mathPowReg (ra rb : RegIdx)
  /-- `math_pow_stack` (42_arithmetic_unary.md R178). -/
  | mathPowStack
  /-- `compare_reg_reg` (43_compare_flags.md R181). -/
  | compareRegReg (ra rb : RegIdx)
  /-- `compare_reg_lit` (43_compare_flags.md R182). -/
  | compareRegLit (ra : RegIdx) (lit : Word)
  /-- `compare_stack_lit` (43_compare_flags.md R183). -/
  | compareStackLit (lit : Word)
  /-- `flag_reset` (43_compare_flags.md R184). -/
  | flagReset
  /-- `jump_absolute` (45_control_flow.md R211). -/
  | jumpAbsolute (addr : Word)
  /-- `jump_equal` (45_control_flow.md R212). -/
  | jumpEqual (addr : Word)
  /-- `jump_not_equal` (45_control_flow.md R213). -/
  | jumpNotEqual (addr : Word)
  /-- `jump_greater` (45_control_flow.md R214). -/
  | jumpGreater (addr : Word)
  /-- `jump_smaller` (45_control_flow.md R215). -/
  | jumpSmaller (addr : Word)
  /-- `jump_overflow` (45_control_flow.md R216). -/
  | jumpOverflow (addr : Word)
  /-- `procedure_call` (45_control_flow.md R217). -/
  | procedureCall (addr : Word)
  /-- `procedure_return` (45_control_flow.md R218). -/
  | procedureReturn
  /-- `syscall` (46_syscall.md R230). -/
  | syscall
  deriving DecidableEq, Repr

/-- The nine formats (R71). -/
inductive Format where
  | f0 | fr | frr | fl | fa | frl | fra | fla | faa
  deriving DecidableEq, Repr

end Sys2Proof
end

