-- ==== Sys2Proof/WellFormed.lean ====
section
/-! DEFINITION. When an instruction is well formed: every register index names a register
(`30_encoding.md` R73, R78). Every literal and address is legal (R72, R74). -/

namespace Sys2Proof

/-- The register indices of an instruction, in stream order (R70). -/
def Instr.registers : Instr → List RegIdx
  | .exit => []
  | .nop => []
  | .pushLit _ => []
  | .pushReg ra => [ra]
  | .pushMem _ => []
  | .popReg ra => [ra]
  | .popMemory _ => []
  | .stackDupe => []
  | .movLitReg ra _ => [ra]
  | .movRegReg ra rb => [ra, rb]
  | .movMemReg ra _ => [ra]
  | .movRegMem ra _ => [ra]
  | .movLitMem _ _ => []
  | .movMemMem _ _ => []
  | .mathAddReg ra rb => [ra, rb]
  | .mathAddStack => []
  | .mathAddRegLit ra _ => [ra]
  | .mathAddStackLit _ => []
  | .mathSubReg ra rb => [ra, rb]
  | .mathSubStack => []
  | .mathSubRegLit ra _ => [ra]
  | .mathSubStackLit _ => []
  | .mathMulReg ra rb => [ra, rb]
  | .mathMulStack => []
  | .mathMulRegLit ra _ => [ra]
  | .mathMulStackLit _ => []
  | .mathDivReg ra rb => [ra, rb]
  | .mathDivStack => []
  | .mathDivRegLit ra _ => [ra]
  | .mathDivStackLit _ => []
  | .mathAndReg ra rb => [ra, rb]
  | .mathAndStack => []
  | .mathAndRegLit ra _ => [ra]
  | .mathAndStackLit _ => []
  | .mathOrReg ra rb => [ra, rb]
  | .mathOrStack => []
  | .mathOrRegLit ra _ => [ra]
  | .mathOrStackLit _ => []
  | .mathXorReg ra rb => [ra, rb]
  | .mathXorStack => []
  | .mathXorRegLit ra _ => [ra]
  | .mathXorStackLit _ => []
  | .mathShlReg ra rb => [ra, rb]
  | .mathShlStack => []
  | .mathShlRegLit ra _ => [ra]
  | .mathShlStackLit _ => []
  | .mathShrReg ra rb => [ra, rb]
  | .mathShrStack => []
  | .mathShrRegLit ra _ => [ra]
  | .mathShrStackLit _ => []
  | .mathNotReg ra => [ra]
  | .mathNotStack => []
  | .mathIncReg ra => [ra]
  | .mathIncStack => []
  | .mathDecReg ra => [ra]
  | .mathDecStack => []
  | .mathSqrtReg ra => [ra]
  | .mathSqrtStack => []
  | .mathRandReg ra => [ra]
  | .mathRandStack => []
  | .mathPowReg ra rb => [ra, rb]
  | .mathPowStack => []
  | .compareRegReg ra rb => [ra, rb]
  | .compareRegLit ra _ => [ra]
  | .compareStackLit _ => []
  | .flagReset => []
  | .jumpAbsolute _ => []
  | .jumpEqual _ => []
  | .jumpNotEqual _ => []
  | .jumpGreater _ => []
  | .jumpSmaller _ => []
  | .jumpOverflow _ => []
  | .procedureCall _ => []
  | .procedureReturn => []
  | .syscall => []

/-- A register index `r` is in range for a file of `nreg` registers: `r < NREG` (R73). -/
def RegIdx.inRange (nreg : Nat) (r : RegIdx) : Bool := decide (r.toNat < nreg)

/-- The only operand bit pattern that is illegal within an assigned instruction is a register index
`≥ NREG` (R78). -/
def Instr.wellFormed (nreg : Nat) (i : Instr) : Bool := i.registers.all (RegIdx.inRange nreg)

end Sys2Proof
end

