-- ==== Sys2Proof/Decode.lean ====
section
/-! DEFINITION. The decoder, total on any bytes and rejecting by name, and the encoder
(`30_encoding.md` R70 to R80, `40_core_cycle.md` R90 to R94), for any opcode map. The formats and the
default map are those of the opcode list R80 (R75; log 9). -/

namespace Sys2Proof

/-- The 32-bit value of four bytes, most significant first (R72, `20_memory.md` R53). -/
def wordOfBytes (b3 b2 b1 b0 : Byte) : Word :=
  BitVec.ofNat 32 (b3.toNat * 16777216 + b2.toNat * 65536 + b1.toNat * 256 + b0.toNat)

/-- Bits 31 to 24 of a word (`20_memory.md` R54). -/
def byte3 (v : Word) : Byte := BitVec.ofNat 8 (v.toNat / 16777216)
/-- Bits 23 to 16 of a word. -/
def byte2 (v : Word) : Byte := BitVec.ofNat 8 (v.toNat / 65536)
/-- Bits 15 to 8 of a word. -/
def byte1 (v : Word) : Byte := BitVec.ofNat 8 (v.toNat / 256)
/-- Bits 7 to 0 of a word. -/
def byte0 (v : Word) : Byte := BitVec.ofNat 8 v.toNat

/-- The four bytes of a word, most significant first (R57, R72). -/
def bytesOfWord (v : Word) : List Byte := [byte3 v, byte2 v, byte1 v, byte0 v]

/-- Length in bytes of each format (R71). -/
def Format.length : Format → Nat
  | .f0 => 1 | .fr => 2 | .frr => 3 | .fl => 5 | .fa => 5 | .frl => 6 | .fra => 6 | .fla => 9 | .faa => 9

/-- What an opcode byte selects: a format, with the instruction it makes of its operands (R71, R80). -/
inductive Shape where
  | f0 (i : Instr)
  | fr (mk : RegIdx → Instr)
  | frr (mk : RegIdx → RegIdx → Instr)
  | fl (mk : Word → Instr)
  | fa (mk : Word → Instr)
  | frl (mk : RegIdx → Word → Instr)
  | fra (mk : RegIdx → Word → Instr)
  | fla (mk : Word → Word → Instr)
  | faa (mk : Word → Word → Instr)

/-- The format a shape belongs to. -/
def Shape.format : Shape → Format
  | .f0 _ => .f0 | .fr _ => .fr | .frr _ => .frr | .fl _ => .fl | .fa _ => .fa
  | .frl _ => .frl | .fra _ => .fra | .fla _ => .fla | .faa _ => .faa

/-- Opcodes 0x00 and 0x01 of R80. -/
def tableSystem : List (Byte × Shape) := [
  (0x00, .f0 .exit),
  (0x01, .f0 .nop)]

/-- Opcodes 0x10 to 0x1B of R80. -/
def tableData : List (Byte × Shape) := [
  (0x10, .fl .pushLit),
  (0x11, .fr .pushReg),
  (0x12, .fa .pushMem),
  (0x13, .fr .popReg),
  (0x14, .fa .popMemory),
  (0x15, .f0 .stackDupe),
  (0x16, .frl .movLitReg),
  (0x17, .frr .movRegReg),
  (0x18, .fra .movMemReg),
  (0x19, .fra .movRegMem),
  (0x1A, .fla .movLitMem),
  (0x1B, .faa .movMemMem)]

/-- Opcodes 0x20 to 0x2B of R80. -/
def tableAddMul : List (Byte × Shape) := [
  (0x20, .frr .mathAddReg),
  (0x21, .f0 .mathAddStack),
  (0x22, .frl .mathAddRegLit),
  (0x23, .fl .mathAddStackLit),
  (0x24, .frr .mathSubReg),
  (0x25, .f0 .mathSubStack),
  (0x26, .frl .mathSubRegLit),
  (0x27, .fl .mathSubStackLit),
  (0x28, .frr .mathMulReg),
  (0x29, .f0 .mathMulStack),
  (0x2A, .frl .mathMulRegLit),
  (0x2B, .fl .mathMulStackLit)]

/-- Opcodes 0x2C to 0x3B of R80. -/
def tableDivBitwise : List (Byte × Shape) := [
  (0x2C, .frr .mathDivReg),
  (0x2D, .f0 .mathDivStack),
  (0x2E, .frl .mathDivRegLit),
  (0x2F, .fl .mathDivStackLit),
  (0x30, .frr .mathAndReg),
  (0x31, .f0 .mathAndStack),
  (0x32, .frl .mathAndRegLit),
  (0x33, .fl .mathAndStackLit),
  (0x34, .frr .mathOrReg),
  (0x35, .f0 .mathOrStack),
  (0x36, .frl .mathOrRegLit),
  (0x37, .fl .mathOrStackLit),
  (0x38, .frr .mathXorReg),
  (0x39, .f0 .mathXorStack),
  (0x3A, .frl .mathXorRegLit),
  (0x3B, .fl .mathXorStackLit)]

/-- Opcodes 0x3C to 0x43 of R80. -/
def tableShift : List (Byte × Shape) := [
  (0x3C, .frr .mathShlReg),
  (0x3D, .f0 .mathShlStack),
  (0x3E, .frl .mathShlRegLit),
  (0x3F, .fl .mathShlStackLit),
  (0x40, .frr .mathShrReg),
  (0x41, .f0 .mathShrStack),
  (0x42, .frl .mathShrRegLit),
  (0x43, .fl .mathShrStackLit)]

/-- Opcodes 0x50 to 0x5B of R80. -/
def tableUnary : List (Byte × Shape) := [
  (0x50, .fr .mathNotReg),
  (0x51, .f0 .mathNotStack),
  (0x52, .fr .mathIncReg),
  (0x53, .f0 .mathIncStack),
  (0x54, .fr .mathDecReg),
  (0x55, .f0 .mathDecStack),
  (0x56, .fr .mathSqrtReg),
  (0x57, .f0 .mathSqrtStack),
  (0x58, .fr .mathRandReg),
  (0x59, .f0 .mathRandStack),
  (0x5A, .frr .mathPowReg),
  (0x5B, .f0 .mathPowStack)]

/-- Opcodes 0x60 to 0x63 of R80. -/
def tableCompare : List (Byte × Shape) := [
  (0x60, .frr .compareRegReg),
  (0x61, .frl .compareRegLit),
  (0x62, .fl .compareStackLit),
  (0x63, .f0 .flagReset)]

/-- Opcodes 0x70 to 0x90 of R80. -/
def tableControl : List (Byte × Shape) := [
  (0x70, .fa .jumpAbsolute),
  (0x71, .fa .jumpEqual),
  (0x72, .fa .jumpNotEqual),
  (0x73, .fa .jumpGreater),
  (0x74, .fa .jumpSmaller),
  (0x75, .fa .jumpOverflow),
  (0x80, .fa .procedureCall),
  (0x81, .f0 .procedureReturn),
  (0x90, .f0 .syscall)]

/-- The opcode list (R80): 75 rows, one per instruction, each with its default opcode byte. -/
def opcodeTable : List (Byte × Shape) :=
  tableSystem ++ tableData ++ tableAddMul ++ tableDivBitwise ++
  tableShift ++ tableUnary ++ tableCompare ++ tableControl

/-- `OPMAP`: the opcode bytes of the 75 instructions in the order of R80 (R75, `00_scope.md` R8). -/
abbrev OpMap := List Byte

/-- The default `OPMAP` (R75, decision D1). -/
def OpMap.default : OpMap := opcodeTable.map Prod.fst

/-- No byte occurs twice, nor is one of the set `seen`, held as the bits of a number. -/
def OpMap.distinct : OpMap → Nat → Bool
  | [], _ => true
  | b :: m, seen => !seen.testBit b.toNat && OpMap.distinct m (seen ||| 2 ^ b.toNat)

/-- The map gives each of the 75 instructions a byte, and no two the same one (`00_scope.md` R8,
`93_implementation_defined.md` U18). -/
def OpMap.legal (m : OpMap) : Bool := decide (m.length = 75) && OpMap.distinct m 0

/-- The shapes of the 75 instructions in the order of R80. -/
def shapes : List Shape := opcodeTable.map Prod.snd

/-- The shape an opcode byte selects under a map; `none` for the 181 unassigned values (R77). -/
def shapeOf (m : OpMap) (op : Byte) : Option Shape := (m.zip shapes).lookup op

/-- `FetchReg`'s consumption of one byte (`40_core_cycle.md` R90); `none` past the end of the buffer
(R92). The range check `r ≥ NREG` needs the register count and stands in `State.regOperand` and
`State.checkReg` (log 13). -/
def takeReg : List Byte → Option (RegIdx × List Byte)
  | r :: rest => some (r, rest)
  | [] => none

/-- `FetchLit`: four bytes, most significant first (`40_core_cycle.md` R91); `none` where fewer than
four are left (R92). Addresses are fetched the same way (R74). -/
def takeLit : List Byte → Option (Word × List Byte)
  | b3 :: b2 :: b1 :: b0 :: rest => some (wordOfBytes b3 b2 b1 b0, rest)
  | _ => none

/-- The operands of a shape, in stream order (R70, `40_core_cycle.md` R100), and the bytes after the
instruction. -/
def Shape.operands : Shape → List Byte → Option (Instr × List Byte)
  | .f0 i, bs => some (i, bs)
  | .fr mk, bs => do
    let (ra, bs) ← takeReg bs
    some (mk ra, bs)
  | .frr mk, bs => do
    let (ra, bs) ← takeReg bs
    let (rb, bs) ← takeReg bs
    some (mk ra rb, bs)
  | .fl mk, bs => do
    let (lit, bs) ← takeLit bs
    some (mk lit, bs)
  | .fa mk, bs => do
    let (addr, bs) ← takeLit bs
    some (mk addr, bs)
  | .frl mk, bs => do
    let (ra, bs) ← takeReg bs
    let (lit, bs) ← takeLit bs
    some (mk ra lit, bs)
  | .fra mk, bs => do
    let (ra, bs) ← takeReg bs
    let (addr, bs) ← takeLit bs
    some (mk ra addr, bs)
  | .fla mk, bs => do
    let (lit, bs) ← takeLit bs
    let (addr, bs) ← takeLit bs
    some (mk lit addr, bs)
  | .faa mk, bs => do
    let (addr1, bs) ← takeLit bs
    let (addr2, bs) ← takeLit bs
    some (mk addr1 addr2, bs)

/-- Why bytes decode to no instruction. The core answers each with `DecodeError`
(`60_exceptions.md` R251, R256). -/
inductive DecodeReject where
  /-- There is no opcode byte (`40_core_cycle.md` R94). -/
  | noOpcodeByte
  /-- The opcode byte is not assigned (R77). -/
  | unassignedOpcode (op : Byte)
  /-- An operand runs past the end of the buffer (`40_core_cycle.md` R92). -/
  | operandPastEnd (op : Byte)
  deriving DecidableEq, Repr

/-- The opcode byte an error record names: absent when none could be fetched
(`10_state.md` R33, `60_exceptions.md` R256). -/
def DecodeReject.opcode : DecodeReject → Option Byte
  | .noOpcodeByte => none
  | .unassignedOpcode op => some op
  | .operandPastEnd op => some op

/-- One instruction from the front of a byte string, with the bytes after it, under a map
(`40_core_cycle.md` R94, R99). -/
def decode (m : OpMap) : List Byte → Except DecodeReject (Instr × List Byte)
  | [] => .error .noOpcodeByte
  | op :: rest =>
    match shapeOf m op with
    | none => .error (.unassignedOpcode op)
    | some shape =>
      match shape.operands rest with
      | some r => .ok r
      | none => .error (.operandPastEnd op)

/-- The row of each instruction in R80's list, counting from 0. -/
def Instr.row : Instr → Nat
  | .exit => 0
  | .nop => 1
  | .pushLit _ => 2
  | .pushReg _ => 3
  | .pushMem _ => 4
  | .popReg _ => 5
  | .popMemory _ => 6
  | .stackDupe => 7
  | .movLitReg _ _ => 8
  | .movRegReg _ _ => 9
  | .movMemReg _ _ => 10
  | .movRegMem _ _ => 11
  | .movLitMem _ _ => 12
  | .movMemMem _ _ => 13
  | .mathAddReg _ _ => 14
  | .mathAddStack => 15
  | .mathAddRegLit _ _ => 16
  | .mathAddStackLit _ => 17
  | .mathSubReg _ _ => 18
  | .mathSubStack => 19
  | .mathSubRegLit _ _ => 20
  | .mathSubStackLit _ => 21
  | .mathMulReg _ _ => 22
  | .mathMulStack => 23
  | .mathMulRegLit _ _ => 24
  | .mathMulStackLit _ => 25
  | .mathDivReg _ _ => 26
  | .mathDivStack => 27
  | .mathDivRegLit _ _ => 28
  | .mathDivStackLit _ => 29
  | .mathAndReg _ _ => 30
  | .mathAndStack => 31
  | .mathAndRegLit _ _ => 32
  | .mathAndStackLit _ => 33
  | .mathOrReg _ _ => 34
  | .mathOrStack => 35
  | .mathOrRegLit _ _ => 36
  | .mathOrStackLit _ => 37
  | .mathXorReg _ _ => 38
  | .mathXorStack => 39
  | .mathXorRegLit _ _ => 40
  | .mathXorStackLit _ => 41
  | .mathShlReg _ _ => 42
  | .mathShlStack => 43
  | .mathShlRegLit _ _ => 44
  | .mathShlStackLit _ => 45
  | .mathShrReg _ _ => 46
  | .mathShrStack => 47
  | .mathShrRegLit _ _ => 48
  | .mathShrStackLit _ => 49
  | .mathNotReg _ => 50
  | .mathNotStack => 51
  | .mathIncReg _ => 52
  | .mathIncStack => 53
  | .mathDecReg _ => 54
  | .mathDecStack => 55
  | .mathSqrtReg _ => 56
  | .mathSqrtStack => 57
  | .mathRandReg _ => 58
  | .mathRandStack => 59
  | .mathPowReg _ _ => 60
  | .mathPowStack => 61
  | .compareRegReg _ _ => 62
  | .compareRegLit _ _ => 63
  | .compareStackLit _ => 64
  | .flagReset => 65
  | .jumpAbsolute _ => 66
  | .jumpEqual _ => 67
  | .jumpNotEqual _ => 68
  | .jumpGreater _ => 69
  | .jumpSmaller _ => 70
  | .jumpOverflow _ => 71
  | .procedureCall _ => 72
  | .procedureReturn => 73
  | .syscall => 74

/-- The opcode byte of an instruction under a map (R75, R80). -/
def Instr.opcode (m : OpMap) (i : Instr) : Byte := m.getD i.row 0

/-- The operand bytes of each instruction, in stream order (R70, R71). -/
def Instr.operandBytes : Instr → List Byte
  | .exit => []
  | .nop => []
  | .pushLit lit => bytesOfWord lit
  | .pushReg ra => [ra]
  | .pushMem addr => bytesOfWord addr
  | .popReg ra => [ra]
  | .popMemory addr => bytesOfWord addr
  | .stackDupe => []
  | .movLitReg ra lit => ra :: bytesOfWord lit
  | .movRegReg ra rb => [ra, rb]
  | .movMemReg ra addr => ra :: bytesOfWord addr
  | .movRegMem ra addr => ra :: bytesOfWord addr
  | .movLitMem lit addr => bytesOfWord lit ++ bytesOfWord addr
  | .movMemMem addr1 addr2 => bytesOfWord addr1 ++ bytesOfWord addr2
  | .mathAddReg ra rb => [ra, rb]
  | .mathAddStack => []
  | .mathAddRegLit ra lit => ra :: bytesOfWord lit
  | .mathAddStackLit lit => bytesOfWord lit
  | .mathSubReg ra rb => [ra, rb]
  | .mathSubStack => []
  | .mathSubRegLit ra lit => ra :: bytesOfWord lit
  | .mathSubStackLit lit => bytesOfWord lit
  | .mathMulReg ra rb => [ra, rb]
  | .mathMulStack => []
  | .mathMulRegLit ra lit => ra :: bytesOfWord lit
  | .mathMulStackLit lit => bytesOfWord lit
  | .mathDivReg ra rb => [ra, rb]
  | .mathDivStack => []
  | .mathDivRegLit ra lit => ra :: bytesOfWord lit
  | .mathDivStackLit lit => bytesOfWord lit
  | .mathAndReg ra rb => [ra, rb]
  | .mathAndStack => []
  | .mathAndRegLit ra lit => ra :: bytesOfWord lit
  | .mathAndStackLit lit => bytesOfWord lit
  | .mathOrReg ra rb => [ra, rb]
  | .mathOrStack => []
  | .mathOrRegLit ra lit => ra :: bytesOfWord lit
  | .mathOrStackLit lit => bytesOfWord lit
  | .mathXorReg ra rb => [ra, rb]
  | .mathXorStack => []
  | .mathXorRegLit ra lit => ra :: bytesOfWord lit
  | .mathXorStackLit lit => bytesOfWord lit
  | .mathShlReg ra rb => [ra, rb]
  | .mathShlStack => []
  | .mathShlRegLit ra lit => ra :: bytesOfWord lit
  | .mathShlStackLit lit => bytesOfWord lit
  | .mathShrReg ra rb => [ra, rb]
  | .mathShrStack => []
  | .mathShrRegLit ra lit => ra :: bytesOfWord lit
  | .mathShrStackLit lit => bytesOfWord lit
  | .mathNotReg ra => [ra]
  | .mathNotStack => []
  | .mathIncReg ra => [ra]
  | .mathIncStack => []
  | .mathDecReg ra => [ra]
  | .mathDecStack => []
  | .mathSqrtReg ra => [ra]
  | .mathSqrtStack => []
  | .mathRandReg ra => [ra]
  | .mathRandStack => []
  | .mathPowReg ra rb => [ra, rb]
  | .mathPowStack => []
  | .compareRegReg ra rb => [ra, rb]
  | .compareRegLit ra lit => ra :: bytesOfWord lit
  | .compareStackLit lit => bytesOfWord lit
  | .flagReset => []
  | .jumpAbsolute addr => bytesOfWord addr
  | .jumpEqual addr => bytesOfWord addr
  | .jumpNotEqual addr => bytesOfWord addr
  | .jumpGreater addr => bytesOfWord addr
  | .jumpSmaller addr => bytesOfWord addr
  | .jumpOverflow addr => bytesOfWord addr
  | .procedureCall addr => bytesOfWord addr
  | .procedureReturn => []
  | .syscall => []

/-- The bytes of an instruction under a map (R70, R71). -/
def encode (m : OpMap) (i : Instr) : List Byte := i.opcode m :: i.operandBytes

/-- Length of an instruction in bytes, the same under every map (R71, R76). -/
def Instr.length (i : Instr) : Nat := i.operandBytes.length + 1

/-- Byte `k` of a row of the opcode table whose first `nbits` bits are `w`, bit 0 being the least
significant bit of the first byte; bits above `nbits` are 0. -/
def tableByte (nbits w k : Nat) : Byte :=
  if 8 * k < nbits then BitVec.ofNat 8 (w % 2 ^ nbits / 2 ^ (8 * k)) else 0

/-- The longest instruction has nine bytes (R71). -/
def maxLength : Nat := 9

/-- The nine bytes that hold a table row's instruction, operand bytes it does not give being 0. -/
def tableBytes (nbits w : Nat) : List Byte := (List.range maxLength).map (tableByte nbits w)

/-- The instruction the decoder reads from a table row's bits, under the default map. -/
def decodeTableWord (nbits w : Nat) : Option Instr :=
  match decode OpMap.default (tableBytes nbits w) with
  | .ok (i, _) => some i
  | .error _ => none

end Sys2Proof
end

