-- ==== Sys2Proof/Config.lean ====
section
/-! DEFINITION. What is fixed at construction and what the host answers (`00_scope.md` R6, R8). -/

namespace Sys2Proof

/-- The word the host's random source answers to the core's `n`-th request for an answer
(`42_arithmetic_unary.md` R161). A FREE VALUE: nothing constrains it (log 5; safe). -/
opaque Config.randWord : Nat → Word

/-- The host's line input at the core's `n`-th request for an answer; a read of size `k` takes at
most `k` bytes of it, so every byte string of length 0 to `k` is a possible answer
(`46_syscall.md` R232). A FREE VALUE (log 6; safe). -/
opaque Config.inputLine : Nat → List Byte

/-- What a RAM byte reads as when the state lists none at its address: the default `MEM_INIT`
(`10_state.md` R35, decision D11). DESIGN CHOICE (log 2; unsafe). -/
def Config.unlistedByte : Byte := 0

/-- The parameters of construction (R8): `NREG`, `MEM_SIZE`, `MEM_INIT` (its bytes from address 0 up,
zero after them), `PROG` (its length is `PROG_LEN`), `H` and `OPMAP` (log 9). `STACK_CAP` is unbounded
(log 10). -/
structure Params where
  nreg : Nat
  memSize : Nat
  memInit : List Byte
  prog : List Byte
  headerSize : Nat
  opmap : OpMap
  deriving DecidableEq, Repr

/-- The configuration `State.reset` is built with: the one `95_test_vectors.md` uses where a vector
says nothing else, with the default opcode map and no program loaded. DESIGN CHOICE: the spec gives the parameters no value
(log 1; unsafe). -/
def Config.defaultParams : Params :=
  { nreg := 8, memSize := 256, memInit := [], prog := [], headerSize := 0, opmap := OpMap.default }

end Sys2Proof
end

