-- ==== Sys2Proof/Machine/Memory.lean ====
section
/-! DEFINITION. RAM as plain data: bytes by address, in one canonical form (`10_state.md` R35,
`20_memory.md` R52 to R54, R58). Bounds are checked in `Ops.lean`, where `MEM_SIZE` is known. -/

namespace Sys2Proof.Machine

/-- The bytes of RAM that differ from `Config.unlistedByte`, by address. -/
abbrev Memory := List Host.Cell

/-- The canonical form: addresses strictly rising, no byte listed that an unlisted address reads as. -/
def Memory.wf : Memory → Bool
  | [] => true
  | (k, b) :: rest =>
    decide (b ≠ Config.unlistedByte) && rest.all (fun c => decide (k < c.1)) && Memory.wf rest

/-- Every listed address is one of a RAM of `size` bytes (R52). -/
def Memory.within (size : Nat) (m : Memory) : Bool := m.all (fun c => decide (c.1 < size))

/-- The byte at an address: the last value written, or the initial byte (R66). -/
def Memory.read : Memory → Nat → Byte
  | [], _ => Config.unlistedByte
  | (k, b) :: rest, a => if a = k then b else Memory.read rest a

/-- A cell in front of a memory, unless it need not be listed. -/
def Memory.consCell (a : Nat) (v : Byte) (m : Memory) : Memory :=
  if v = Config.unlistedByte then m else (a, v) :: m

/-- Write one byte, keeping the canonical form. -/
def Memory.write (a : Nat) (v : Byte) : Memory → Memory
  | [] => Memory.consCell a v []
  | (k, b) :: rest =>
    if a < k then Memory.consCell a v ((k, b) :: rest)
    else if a = k then Memory.consCell a v rest
    else (k, b) :: Memory.write a v rest

/-- Write bytes at ascending addresses from `a` (R54, `46_syscall.md` R232). -/
def Memory.writeBytes : Nat → List Byte → Memory → Memory
  | _, [], m => m
  | a, b :: bs, m => Memory.writeBytes (a + 1) bs (Memory.write a b m)

/-- The `n` bytes from address `a` up (`46_syscall.md` R231). -/
def Memory.readBytes (m : Memory) (a n : Nat) : List Byte :=
  (List.range n).map fun k => Memory.read m (a + k)

/-- The word at a byte address, most significant byte first (R53). -/
def Memory.readWord (m : Memory) (a : Nat) : Word :=
  wordOfBytes (Memory.read m a) (Memory.read m (a + 1)) (Memory.read m (a + 2)) (Memory.read m (a + 3))

/-- Write a word at a byte address, most significant byte first (R54). -/
def Memory.writeWord (a : Nat) (v : Word) (m : Memory) : Memory :=
  Memory.writeBytes a (bytesOfWord v) m

/-- RAM at reset: `MEM_INIT`, given as its bytes from address 0 up (`10_state.md` R35). -/
def Memory.ofInit (size : Nat) (bytes : List Byte) : Memory :=
  Memory.writeBytes 0 (bytes.take size) []

end Sys2Proof.Machine
end

