-- ==== Sys2Proof/Machine/State.lean ====
section
/-! DEFINITION. The architectural state as plain data (`10_state.md`), the reasons a step can stop,
and the state after reset (R36). -/

namespace Sys2Proof.Machine

/-- The six flags (`10_state.md` R28), independent bits. -/
structure Flags where
  equal : Bool
  notEqual : Bool
  greater : Bool
  smaller : Bool
  overflow : Bool
  stop : Bool
  deriving DecidableEq, Repr

/-- The five fatal errors (`60_exceptions.md` R250). -/
inductive ErrKind where
  /-- An opcode or operand byte beyond the buffer, a register index `≥ NREG`, an unassigned opcode (R251). -/
  | decodeError
  /-- A pop or peek of an empty stack, or a return with `len < sbp` (R252). -/
  | stackUnderflow
  /-- An access beyond `MEM_SIZE` (R253). -/
  | memoryOutOfBounds
  /-- Right operand 0 of a division or multiplication (R254). -/
  | divisionByZero
  /-- A return with no call outstanding (R255). -/
  | controlFlowError
  deriving DecidableEq, Repr

/-- The error record's triple: the kind, the opcode byte (absent when it could not be fetched) and
`pc0` (`10_state.md` R33). -/
structure ErrRecord where
  kind : ErrKind
  opcode : Option Byte
  offset : Word
  deriving DecidableEq, Repr

/-- A request on the host interface, with the host's answer where it has one (`46_syscall.md` R237;
log 8). -/
inductive HostRequest where
  /-- `Host.WriteChar(b)`. -/
  | writeChar (b : Byte)
  /-- `Host.ReadLine(n)` and the byte string answered. -/
  | readLine (size : Word) (answer : List Byte)
  /-- `Host.ClearTerminal()`. -/
  | clearTerminal
  /-- `Host.WriteDecimal(v)`. -/
  | writeDecimal (v : Word)
  /-- `Rand()` and the word answered (`42_arithmetic_unary.md` R161). -/
  | rand (answer : Word)
  deriving DecidableEq, Repr

/-- The whole state (`10_state.md` R20 to R36). `headerSize`, `prog`, `opmap`, `memSize` and the
number of registers are constants of the run (R8). `trace` and `draws` are the model's own (log 7). -/
structure State where
  /-- The program counter, an offset from the end of the header (R23, R24). -/
  pc : Word
  /-- `H`, the size of the header (R25). -/
  headerSize : Nat
  /-- `PROG`, the loaded buffer, header included (R34). -/
  prog : List Byte
  /-- `OPMAP`, the opcode bytes in the order of the opcode list (`00_scope.md` R8, `30_encoding.md` R75). -/
  opmap : OpMap
  /-- The register file; `NREG` is its length (R21). -/
  regs : List Word
  /-- The operand stack, the top at the head (R26; log 16). -/
  stack : List Word
  /-- `MEM_SIZE`, the capacity of RAM in bytes (R35). -/
  memSize : Nat
  /-- RAM (R35). -/
  mem : List Host.Cell
  /-- The flags (R28). -/
  flags : Flags
  /-- The stack-base pointer (R31). -/
  sbp : Nat
  /-- The call-depth counter (R32). -/
  cdepth : Nat
  /-- The error record (R33). -/
  err : Option ErrRecord
  /-- MODEL's own: the requests placed on the host interface so far, oldest first (`46_syscall.md` R237). -/
  trace : List HostRequest
  /-- MODEL's own: how many answers the host has given; the free host answers are applied to it. -/
  draws : Nat
  deriving DecidableEq, Repr

/-- Why the machine stops without a next state. -/
inductive Fault where
  /-- Raised by `step` alone, on a STOPPED core: no cycle is enabled (`10_state.md` R33,
  `40_core_cycle.md` R97). Safe: the hardware has no next state either (log 11). -/
  | stopped
  deriving DecidableEq, Repr

/-- Why the model declines. -/
inductive Refusal where
  /-- The host's: an instruction with no meaning yet. No arm of `exec` answers it. Safe. -/
  | notModelled (mnemonic : String)
  /-- Raised by `step` alone, on a state whose constants break the constraints of `00_scope.md` R8
  (`93_implementation_defined.md` U18, U19: refuse). Safe (log 12). -/
  | illegalConfiguration
  deriving DecidableEq, Repr

/-- All six flags clear. -/
def Flags.clear : Flags :=
  { equal := false, notEqual := false, greater := false, smaller := false, overflow := false, stop := false }

/-- Construction, which is reset, with any parameters (`70_reset_and_hazards.md` R280, `10_state.md`
R36). The zeros other than `sbp` are the spec's decisions D10, D11, D14, D17 (log 3). -/
def State.construct (p : Params) : State :=
  { pc := 0
    headerSize := p.headerSize
    prog := p.prog
    opmap := p.opmap
    regs := List.replicate p.nreg 0
    stack := []
    memSize := p.memSize
    mem := Memory.ofInit p.memSize p.memInit
    flags := Flags.clear
    sbp := 0
    cdepth := 0
    err := none
    trace := []
    draws := 0 }

/-- The machine right after reset, with the default parameters and no program loaded (log 1, log 15). -/
def State.reset : State := State.construct Config.defaultParams

end Sys2Proof.Machine
end

