-- ==== Sys2Proof/Machine/Ops.lean ====
section
/-! DEFINITION. The named operations over the state: registers, stack, RAM, host requests, raising a
fatal error, fetching, and retiring an instruction. An operation that may fail answers
`Except ErrKind`; a failed instruction keeps none of its effects (`60_exceptions.md` R258). -/

namespace Sys2Proof.Machine

/-- What a step or a meaning answers. -/
abbrev Result := Host.Outcome State Fault Refusal

/-! ### Registers (`10_state.md` R21) -/

/-- `NREG`. -/
def State.nreg (s : State) : Nat := s.regs.length

/-- `x[n]`; meant for `n < NREG`, which `regOperand` checks. -/
def State.reg (s : State) (n : Nat) : Word := s.regs.getD n 0

/-- `x[n] <- v`. No register is hard-wired (R21). -/
def State.setReg (s : State) (n : Nat) (v : Word) : State := { s with regs := s.regs.set n v }

/-- `FetchReg`'s range check of a register index (`40_core_cycle.md` R90, `30_encoding.md` R73). -/
def State.checkReg (s : State) (r : RegIdx) : Except ErrKind Unit :=
  if r.toNat < s.nreg then .ok () else .error .decodeError

/-- The value of the register an operand byte names, after `FetchReg`'s range check. -/
def State.regOperand (s : State) (r : RegIdx) : Except ErrKind Word :=
  if r.toNat < s.nreg then .ok (s.reg r.toNat) else .error .decodeError

/-! ### Program counter and flags -/

/-- `pc <- t`. -/
def State.setPc (s : State) (t : Word) : State := { s with pc := t }

/-- Write the flags. -/
def State.setFlags (s : State) (f : Flags) : State := { s with flags := f }

/-! ### Operand stack (`10_state.md` R27) -/

/-- `len`. -/
def State.len (s : State) : Nat := s.stack.length

/-- Replace the stack. -/
def State.setStack (s : State) (st : List Word) : State := { s with stack := st }

/-- `push(v)`: the stack is unbounded, a push cannot fail (`60_exceptions.md` R270). -/
def State.push (s : State) (v : Word) : State := s.setStack (v :: s.stack)

/-- `pop()`: the top and the state without it; `StackUnderflow` on an empty stack. -/
def State.pop (s : State) : Except ErrKind (Word × State) :=
  match s.stack with
  | [] => .error .stackUnderflow
  | v :: rest => .ok (v, s.setStack rest)

/-- `peek()`: the top; `StackUnderflow` on an empty stack. -/
def State.peek (s : State) : Except ErrKind Word :=
  match s.stack with
  | [] => .error .stackUnderflow
  | v :: _ => .ok v

/-! ### RAM (`20_memory.md` R53 to R58) -/

/-- One byte of RAM. -/
def State.readByte (s : State) (a : Nat) : Byte := Memory.read s.mem a

/-- Replace RAM. -/
def State.setMem (s : State) (m : Memory) : State := { s with mem := m }

/-- Bounds of a word access: `addr + 3 < MEM_SIZE` over the naturals; alignment is not checked
(R55, R56). -/
def State.wordInBounds (s : State) (addr : Word) : Bool := decide (addr.toNat + 3 < s.memSize)

/-- `MemRead(addr, 4)` (R53). -/
def State.memRead (s : State) (addr : Word) : Except ErrKind Word :=
  if s.wordInBounds addr then .ok (Memory.readWord s.mem addr.toNat) else .error .memoryOutOfBounds

/-- `MemWrite(addr, 4, v)` (R54). -/
def State.memWrite (s : State) (addr v : Word) : Except ErrKind State :=
  if s.wordInBounds addr then .ok (s.setMem (Memory.writeWord addr.toNat v s.mem))
  else .error .memoryOutOfBounds

/-- A syscall's byte range `[p, p + n)` lies in RAM, or is empty (`46_syscall.md` R231, R232, R58). -/
def State.rangeInBounds (s : State) (p n : Word) : Bool :=
  decide (n.toNat = 0 ∨ p.toNat + n.toNat ≤ s.memSize)

/-! ### Host interface (`46_syscall.md` R237) -/

/-- Place requests that have no answer. -/
def State.request (s : State) (rs : List HostRequest) : State := { s with trace := s.trace ++ rs }

/-- Place a request that the host has answered: the next answer is a new free value. -/
def State.answered (s : State) (r : HostRequest) : State :=
  { s with trace := s.trace ++ [r], draws := s.draws + 1 }

/-- The word the host answers to `Rand()` now (`42_arithmetic_unary.md` R161). -/
def State.randAnswer (s : State) : Word := Config.randWord s.draws

/-- The bytes the host answers to `Host.ReadLine(n)` now: at most `n` (`46_syscall.md` R232). -/
def State.lineAnswer (s : State) (n : Word) : List Byte := (Config.inputLine s.draws).take n.toNat

/-! ### Run state, raising a fatal error -/

/-- STOPPED: `F.stop` is set or an error is recorded (`10_state.md` R33). -/
def State.stopped (s : State) : Bool := s.flags.stop || s.err.isSome

/-- The constraints on the constants (`00_scope.md` R8). -/
def State.configLegal (s : State) : Bool :=
  decide (4 ≤ s.nreg) && decide (s.nreg ≤ 256) && decide (s.memSize ≤ 4294967296) &&
    decide (s.headerSize ≤ s.prog.length) && s.opmap.legal

/-- Halt entry, the machine's only trap entry: nothing changes but `err`, which records the kind, the
opcode and `pc0`; `F.stop` is not set (`60_exceptions.md` R257, R258). It has no return (R260). -/
def State.raise (s : State) (kind : ErrKind) (opcode : Option Byte) : State :=
  { s with err := some { kind := kind, opcode := opcode, offset := s.pc } }

/-! ### Fetching and retiring -/

/-- The bytes of the instruction stream from `pc` on: `code(pc)`, `code(pc + 1)`, … (`20_memory.md`
R51; log 17). -/
def State.stream (s : State) : List Byte := s.prog.drop (s.headerSize + s.pc.toNat)

/-- Fetch and decode the instruction at `pc` (`40_core_cycle.md` R94). -/
def State.fetch (s : State) : Except DecodeReject Instr :=
  match decode s.opmap s.stream with
  | .ok (i, _) => .ok i
  | .error e => .error e

/-- The opcode byte of an instruction under the core's map (`30_encoding.md` R75). -/
def State.opcodeOf (s : State) (i : Instr) : Byte := i.opcode s.opmap

/-- `next`: the offset after an instruction at `pc` (`40_core_cycle.md` R96). -/
def State.nextPc (s : State) (i : Instr) : Word := s.pc + BitVec.ofNat 32 i.length

/-- End of the cycle of an instruction that does not transfer control: the effect's state with `pc`
at the next instruction, or the error it raised (R94, R96; log 14). -/
def State.retire (s : State) (i : Instr) (r : Except ErrKind State) : Result :=
  match r with
  | .ok t => .next (t.setPc (s.nextPc i))
  | .error k => .next (s.raise k (some (s.opcodeOf i)))

/-- End of the cycle of an instruction that transfers control: `pc` is the target (R95, R96; log 14). -/
def State.retireTo (s : State) (i : Instr) (r : Except ErrKind (State × Word)) : Result :=
  match r with
  | .ok (t, target) => .next (t.setPc target)
  | .error k => .next (s.raise k (some (s.opcodeOf i)))

/-- The state with bytes placed in the buffer where the next instruction is fetched, standing for the
load of a program (`70_reset_and_hazards.md` R283; log 15). -/
def State.placeBytes (s : State) (bs : List Byte) : State :=
  let n := s.headerSize + s.pc.toNat
  { s with prog := s.prog.takeD n 0 ++ bs ++ s.prog.drop (n + bs.length) }

end Sys2Proof.Machine
end

