-- ==== Sys2Proof/Machine/Flags.lean ====
section
/-! DEFINITION. Every flag computation and the status interface (`10_state.md` R28 to R33,
`41_arithmetic_binary.md` R111, `43_compare_flags.md` R180, R184, `60_exceptions.md` R250). -/

namespace Sys2Proof.Machine

/-- `CMP(a, b)`: the four relational flags together, unsigned (`43_compare_flags.md` R180). -/
def Flags.compare (f : Flags) (a b : Word) : Flags :=
  { f with
    equal := decide (a = b)
    notEqual := decide (a ≠ b)
    greater := decide (a.toNat > b.toNat)
    smaller := decide (a.toNat < b.toNat) }

/-- `F.overflow <- v` where the operation has an overflow check; `none` leaves it (R111). -/
def Flags.putOverflow (f : Flags) (v : Option Bool) : Flags :=
  { f with overflow := v.getD f.overflow }

/-- `flag_reset`: the five condition flags, never `stop` (R184). -/
def Flags.resetConditions (f : Flags) : Flags := { Flags.clear with stop := f.stop }

/-- `exit`: `F.stop <- true` (`47_nop_exit.md` R241). -/
def Flags.setStop (f : Flags) : Flags := { f with stop := true }

/-- The `FLAGS` byte of the status interface: bits 0 to 5 in the order of naming (`10_state.md` R29). -/
def Flags.toByte (f : Flags) : Byte :=
  BitVec.ofNat 8 (f.equal.toNat + 2 * f.notEqual.toNat + 4 * f.greater.toNat + 8 * f.smaller.toNat +
    16 * f.overflow.toNat + 32 * f.stop.toNat)

/-- The codes 1 to 5 of the fatal errors (`60_exceptions.md` R250). -/
def ErrKind.code : ErrKind → Nat
  | .decodeError => 1
  | .stackUnderflow => 2
  | .memoryOutOfBounds => 3
  | .divisionByZero => 4
  | .controlFlowError => 5

/-- The error code of the status interface, 0 for none (R250). -/
def State.errCode (s : State) : Nat :=
  match s.err with
  | none => 0
  | some e => e.kind.code

/-- RUNNING or STOPPED (`10_state.md` R33). -/
inductive RunState where
  | running | stopped
  deriving DecidableEq, Repr

/-- `run` (R33). -/
def State.run (s : State) : RunState := if s.stopped then .stopped else .running

end Sys2Proof.Machine
end

