-- ==== Sys2Proof/Machine/Alu.lean ====
section
/-! DEFINITION. The ALU functions (`41_arithmetic_binary.md` R112 to R120, `42_arithmetic_unary.md`
R162 to R166). Every operand and result is an unsigned 32-bit value. -/

namespace Sys2Proof.Machine

/-- A result and, where the operation has an overflow check, the check's outcome (R111). -/
structure AluResult where
  value : Word
  overflow : Option Bool
  deriving DecidableEq, Repr

/-- A two-operand operation; it may raise `DivisionByZero`. -/
abbrev BinaryOp := Word → Word → Except ErrKind AluResult

/-- A one-operand operation; none of them raises an error. -/
abbrev UnaryOp := Word → AluResult

/-- `ADD` (R112). -/
def aluAdd : BinaryOp := fun a b => .ok ⟨a + b, some (decide (a.toNat > maxWord - b.toNat))⟩

/-- `SUB` (R113). -/
def aluSub : BinaryOp := fun a b => .ok ⟨a - b, some (decide (a.toNat < b.toNat))⟩

/-- `MUL`: the overflow check divides by the right operand, so 0 there is `DivisionByZero` (R114). -/
def aluMul : BinaryOp := fun a b =>
  if b = 0 then .error .divisionByZero
  else .ok ⟨a * b, some (decide (a.toNat > maxWord / b.toNat))⟩

/-- `DIV` (R115). -/
def aluDiv : BinaryOp := fun a b =>
  if b = 0 then .error .divisionByZero else .ok ⟨a / b, none⟩

/-- `AND` (R116). -/
def aluAnd : BinaryOp := fun a b => .ok ⟨a &&& b, none⟩

/-- `OR` (R117). -/
def aluOr : BinaryOp := fun a b => .ok ⟨a ||| b, none⟩

/-- `XOR` (R118). -/
def aluXor : BinaryOp := fun a b => .ok ⟨a ^^^ b, none⟩

/-- `SHL`: logical, a count of 32 or more gives 0 (R119). -/
def aluShl : BinaryOp := fun a b => .ok ⟨if b.toNat < 32 then a <<< b.toNat else 0, none⟩

/-- `SHR`: logical, a count of 32 or more gives 0 (R120). -/
def aluShr : BinaryOp := fun a b => .ok ⟨if b.toNat < 32 then a >>> b.toNat else 0, none⟩

/-- `NOT` (R162). -/
def aluNot : UnaryOp := fun a => ⟨~~~a, none⟩

/-- `INC` (R163). -/
def aluInc : UnaryOp := fun a => ⟨a + 1, some (decide (a.toNat = maxWord))⟩

/-- `DEC` (R164). -/
def aluDec : UnaryOp := fun a => ⟨a - 1, some (decide (a.toNat = 0))⟩

/-- The bits `k - 1 … 0` of the integer square root of `a`, added to the bits `r` found so far. -/
def sqrtBits (a : Nat) : Nat → Nat → Nat
  | 0, r => r
  | k + 1, r =>
    if (r + 2 ^ k) * (r + 2 ^ k) ≤ a then sqrtBits a k (r + 2 ^ k) else sqrtBits a k r

/-- `SQRT`: the largest `s` with `s × s ≤ a`, found bit by bit from bit 15 down (R165). -/
def aluSqrt : UnaryOp := fun a => ⟨BitVec.ofNat 32 (sqrtBits a.toNat 16 0), none⟩

/-- `a ^ b mod 2 ^ 32` by squaring over the low `k` bits of `b`. -/
def powBits (a : Word) : Nat → Nat → Word
  | 0, _ => 1
  | k + 1, b =>
    let r := powBits (a * a) k (b / 2)
    if b % 2 = 1 then a * r else r

/-- The true power exceeds `MAX`: never for a base below 2, always for a base of 2 or more and an
exponent of 32 or more, computed exactly otherwise (R166). -/
def powOverflows (a b : Word) : Bool :=
  if a.toNat < 2 then false
  else if 32 ≤ b.toNat then true
  else decide (a.toNat ^ b.toNat > maxWord)

/-- `POW`: the exact power reduced mod 2^32, and whether it exceeds `MAX` (R166). -/
def aluPow : BinaryOp := fun a b => .ok ⟨powBits a 32 b.toNat, some (powOverflows a b)⟩

end Sys2Proof.Machine
end

