-- ==== Sys2Proof/Machine/Operands.lean ====
section
/-! DEFINITION. The operand forms of the arithmetic and compare families
(`41_arithmetic_binary.md` R110, `42_arithmetic_unary.md` R160, `43_compare_flags.md` R180). Every
form checks its register operands first, in stream order (`40_core_cycle.md` R100). -/

namespace Sys2Proof.Machine

/-- `F.overflow <- v; x[n] <- r`. -/
def State.putRegResult (s : State) (n : Nat) (r : AluResult) : State :=
  (s.setFlags (s.flags.putOverflow r.overflow)).setReg n r.value

/-- `F.overflow <- v; push(r)`. -/
def State.putStackResult (s : State) (r : AluResult) : State :=
  (s.setFlags (s.flags.putOverflow r.overflow)).push r.value

/-- Register-register: `a = x[ra]`, `b = x[rb]`, result to `x[ra]` (R110). -/
def binaryReg (op : BinaryOp) (i : Instr) (ra rb : RegIdx) (s : State) : Result :=
  s.retire i do
    let a ← s.regOperand ra
    let b ← s.regOperand rb
    let r ← op a b
    .ok (s.putRegResult ra.toNat r)

/-- Stack-stack: pop `b`, pop `a`, push the result (R110). -/
def binaryStack (op : BinaryOp) (i : Instr) (s : State) : Result :=
  s.retire i do
    let (b, s1) ← s.pop
    let (a, s2) ← s1.pop
    let r ← op a b
    .ok (s2.putStackResult r)

/-- Register-literal: `a = x[ra]`, `b = lit`, result to `x[ra]` (R110). -/
def binaryRegLit (op : BinaryOp) (i : Instr) (ra : RegIdx) (lit : Word) (s : State) : Result :=
  s.retire i do
    let a ← s.regOperand ra
    let r ← op a lit
    .ok (s.putRegResult ra.toNat r)

/-- Stack-literal: pop `a`, `b = lit`, push the result (R110). -/
def binaryStackLit (op : BinaryOp) (i : Instr) (lit : Word) (s : State) : Result :=
  s.retire i do
    let (a, s1) ← s.pop
    let r ← op a lit
    .ok (s1.putStackResult r)

/-- One operand in a register, updated in place (R160). -/
def unaryReg (op : UnaryOp) (i : Instr) (ra : RegIdx) (s : State) : Result :=
  s.retire i do
    let a ← s.regOperand ra
    .ok (s.putRegResult ra.toNat (op a))

/-- One operand on the stack, popped and replaced (R160). -/
def unaryStack (op : UnaryOp) (i : Instr) (s : State) : Result :=
  s.retire i do
    let (a, s1) ← s.pop
    .ok (s1.putStackResult (op a))

/-- `CMP(a, b)` on the state (`43_compare_flags.md` R180). -/
def State.compare (s : State) (a b : Word) : State := s.setFlags (s.flags.compare a b)

end Sys2Proof.Machine
end

