-- ==== Sys2Proof/Machine/ArithmeticBinary.lean ====
section
/-! DEFINITION. The 36 two-operand arithmetic instructions (`41_arithmetic_binary.md` R121 to R156),
each an operand form of R110 over an ALU function. -/

namespace Sys2Proof.Machine

/-- `math_add_reg` (R121). -/
def execMathAddReg (ra rb : RegIdx) (s : State) : Result :=
  binaryReg aluAdd (.mathAddReg ra rb) ra rb s
/-- `math_add_stack` (R122). -/
def execMathAddStack (s : State) : Result :=
  binaryStack aluAdd .mathAddStack s
/-- `math_add_reg_lit` (R123). -/
def execMathAddRegLit (ra : RegIdx) (lit : Word) (s : State) : Result :=
  binaryRegLit aluAdd (.mathAddRegLit ra lit) ra lit s
/-- `math_add_stack_lit` (R124). -/
def execMathAddStackLit (lit : Word) (s : State) : Result :=
  binaryStackLit aluAdd (.mathAddStackLit lit) lit s

/-- `math_sub_reg` (R125). -/
def execMathSubReg (ra rb : RegIdx) (s : State) : Result :=
  binaryReg aluSub (.mathSubReg ra rb) ra rb s
/-- `math_sub_stack` (R126). -/
def execMathSubStack (s : State) : Result :=
  binaryStack aluSub .mathSubStack s
/-- `math_sub_reg_lit` (R127). -/
def execMathSubRegLit (ra : RegIdx) (lit : Word) (s : State) : Result :=
  binaryRegLit aluSub (.mathSubRegLit ra lit) ra lit s
/-- `math_sub_stack_lit` (R128). -/
def execMathSubStackLit (lit : Word) (s : State) : Result :=
  binaryStackLit aluSub (.mathSubStackLit lit) lit s

/-- `math_mul_reg` (R129). -/
def execMathMulReg (ra rb : RegIdx) (s : State) : Result :=
  binaryReg aluMul (.mathMulReg ra rb) ra rb s
/-- `math_mul_stack` (R130). -/
def execMathMulStack (s : State) : Result :=
  binaryStack aluMul .mathMulStack s
/-- `math_mul_reg_lit` (R131). -/
def execMathMulRegLit (ra : RegIdx) (lit : Word) (s : State) : Result :=
  binaryRegLit aluMul (.mathMulRegLit ra lit) ra lit s
/-- `math_mul_stack_lit` (R132). -/
def execMathMulStackLit (lit : Word) (s : State) : Result :=
  binaryStackLit aluMul (.mathMulStackLit lit) lit s

/-- `math_div_reg` (R133). -/
def execMathDivReg (ra rb : RegIdx) (s : State) : Result :=
  binaryReg aluDiv (.mathDivReg ra rb) ra rb s
/-- `math_div_stack` (R134). -/
def execMathDivStack (s : State) : Result :=
  binaryStack aluDiv .mathDivStack s
/-- `math_div_reg_lit` (R135). -/
def execMathDivRegLit (ra : RegIdx) (lit : Word) (s : State) : Result :=
  binaryRegLit aluDiv (.mathDivRegLit ra lit) ra lit s
/-- `math_div_stack_lit` (R136). -/
def execMathDivStackLit (lit : Word) (s : State) : Result :=
  binaryStackLit aluDiv (.mathDivStackLit lit) lit s

/-- `math_and_reg` (R137). -/
def execMathAndReg (ra rb : RegIdx) (s : State) : Result :=
  binaryReg aluAnd (.mathAndReg ra rb) ra rb s
/-- `math_and_stack` (R138). -/
def execMathAndStack (s : State) : Result :=
  binaryStack aluAnd .mathAndStack s
/-- `math_and_reg_lit` (R139). -/
def execMathAndRegLit (ra : RegIdx) (lit : Word) (s : State) : Result :=
  binaryRegLit aluAnd (.mathAndRegLit ra lit) ra lit s
/-- `math_and_stack_lit` (R140). -/
def execMathAndStackLit (lit : Word) (s : State) : Result :=
  binaryStackLit aluAnd (.mathAndStackLit lit) lit s

/-- `math_or_reg` (R141). -/
def execMathOrReg (ra rb : RegIdx) (s : State) : Result :=
  binaryReg aluOr (.mathOrReg ra rb) ra rb s
/-- `math_or_stack` (R142). -/
def execMathOrStack (s : State) : Result :=
  binaryStack aluOr .mathOrStack s
/-- `math_or_reg_lit` (R143). -/
def execMathOrRegLit (ra : RegIdx) (lit : Word) (s : State) : Result :=
  binaryRegLit aluOr (.mathOrRegLit ra lit) ra lit s
/-- `math_or_stack_lit` (R144). -/
def execMathOrStackLit (lit : Word) (s : State) : Result :=
  binaryStackLit aluOr (.mathOrStackLit lit) lit s

/-- `math_xor_reg` (R145). -/
def execMathXorReg (ra rb : RegIdx) (s : State) : Result :=
  binaryReg aluXor (.mathXorReg ra rb) ra rb s
/-- `math_xor_stack` (R146). -/
def execMathXorStack (s : State) : Result :=
  binaryStack aluXor .mathXorStack s
/-- `math_xor_reg_lit` (R147). -/
def execMathXorRegLit (ra : RegIdx) (lit : Word) (s : State) : Result :=
  binaryRegLit aluXor (.mathXorRegLit ra lit) ra lit s
/-- `math_xor_stack_lit` (R148). -/
def execMathXorStackLit (lit : Word) (s : State) : Result :=
  binaryStackLit aluXor (.mathXorStackLit lit) lit s

/-- `math_shl_reg` (R149). -/
def execMathShlReg (ra rb : RegIdx) (s : State) : Result :=
  binaryReg aluShl (.mathShlReg ra rb) ra rb s
/-- `math_shl_stack` (R150). -/
def execMathShlStack (s : State) : Result :=
  binaryStack aluShl .mathShlStack s
/-- `math_shl_reg_lit` (R151). -/
def execMathShlRegLit (ra : RegIdx) (lit : Word) (s : State) : Result :=
  binaryRegLit aluShl (.mathShlRegLit ra lit) ra lit s
/-- `math_shl_stack_lit` (R152). -/
def execMathShlStackLit (lit : Word) (s : State) : Result :=
  binaryStackLit aluShl (.mathShlStackLit lit) lit s

/-- `math_shr_reg` (R153). -/
def execMathShrReg (ra rb : RegIdx) (s : State) : Result :=
  binaryReg aluShr (.mathShrReg ra rb) ra rb s
/-- `math_shr_stack` (R154). -/
def execMathShrStack (s : State) : Result :=
  binaryStack aluShr .mathShrStack s
/-- `math_shr_reg_lit` (R155). -/
def execMathShrRegLit (ra : RegIdx) (lit : Word) (s : State) : Result :=
  binaryRegLit aluShr (.mathShrRegLit ra lit) ra lit s
/-- `math_shr_stack_lit` (R156). -/
def execMathShrStackLit (lit : Word) (s : State) : Result :=
  binaryStackLit aluShr (.mathShrStackLit lit) lit s

end Sys2Proof.Machine
end

