-- ==== Sys2Proof/Machine/ArithmeticUnary.lean ====
section
/-! DEFINITION. The 12 one-operand, random and power instructions (`42_arithmetic_unary.md` R167 to
R178). -/

namespace Sys2Proof.Machine

/-- `math_not_reg` (R167). -/
def execMathNotReg (ra : RegIdx) (s : State) : Result :=
  unaryReg aluNot (.mathNotReg ra) ra s
/-- `math_not_stack` (R168). -/
def execMathNotStack (s : State) : Result :=
  unaryStack aluNot .mathNotStack s

/-- `math_inc_reg` (R169). -/
def execMathIncReg (ra : RegIdx) (s : State) : Result :=
  unaryReg aluInc (.mathIncReg ra) ra s
/-- `math_inc_stack` (R170). -/
def execMathIncStack (s : State) : Result :=
  unaryStack aluInc .mathIncStack s

/-- `math_dec_reg` (R171). -/
def execMathDecReg (ra : RegIdx) (s : State) : Result :=
  unaryReg aluDec (.mathDecReg ra) ra s
/-- `math_dec_stack` (R172). -/
def execMathDecStack (s : State) : Result :=
  unaryStack aluDec .mathDecStack s

/-- `math_sqrt_reg` (R173). -/
def execMathSqrtReg (ra : RegIdx) (s : State) : Result :=
  unaryReg aluSqrt (.mathSqrtReg ra) ra s
/-- `math_sqrt_stack` (R174). -/
def execMathSqrtStack (s : State) : Result :=
  unaryStack aluSqrt .mathSqrtStack s

/-- The state after `Rand()` has been asked and answered (R161). -/
def State.drawRand (s : State) : State := s.answered (.rand s.randAnswer)

/-- `math_rand_reg` (R175): the host is asked only after the register index is found in range. -/
def execMathRandReg (ra : RegIdx) (s : State) : Result :=
  s.retire (.mathRandReg ra) do
    s.checkReg ra
    .ok (s.drawRand.setReg ra.toNat s.randAnswer)
/-- `math_rand_stack` (R176): pushes, pops nothing. -/
def execMathRandStack (s : State) : Result :=
  s.retire .mathRandStack (.ok (s.drawRand.push s.randAnswer))

/-- `math_pow_reg` (R177). -/
def execMathPowReg (ra rb : RegIdx) (s : State) : Result :=
  binaryReg aluPow (.mathPowReg ra rb) ra rb s
/-- `math_pow_stack` (R178). -/
def execMathPowStack (s : State) : Result :=
  binaryStack aluPow .mathPowStack s

end Sys2Proof.Machine
end

