-- ==== Sys2Proof/Machine/CompareFlags.lean ====
section
/-! DEFINITION. The three compares and `flag_reset` (`43_compare_flags.md` R181 to R184). -/

namespace Sys2Proof.Machine

/-- `compare_reg_reg` (R181): `x[ra]` against `x[rb]`. -/
def execCompareRegReg (ra rb : RegIdx) (s : State) : Result :=
  s.retire (.compareRegReg ra rb) do
    let a ← s.regOperand ra
    let b ← s.regOperand rb
    .ok (s.compare a b)

/-- `compare_reg_lit` (R182): `x[ra]` against the literal. -/
def execCompareRegLit (ra : RegIdx) (lit : Word) (s : State) : Result :=
  s.retire (.compareRegLit ra lit) do
    let a ← s.regOperand ra
    .ok (s.compare a lit)

/-- `compare_stack_lit` (R183): the top of the stack, peeked, against the literal. -/
def execCompareStackLit (lit : Word) (s : State) : Result :=
  s.retire (.compareStackLit lit) do
    let a ← s.peek
    .ok (s.compare a lit)

/-- `flag_reset` (R184). -/
def execFlagReset (s : State) : Result :=
  s.retire .flagReset (.ok (s.setFlags s.flags.resetConditions))

end Sys2Proof.Machine
end

