-- ==== Sys2Proof/Machine/ControlFlow.lean ====
section
/-! DEFINITION. The six jumps, `procedure_call` and `procedure_return` (`45_control_flow.md` R210 to
R223). A target is not checked at the transfer (R223). -/

namespace Sys2Proof.Machine

/-- A jump to `target` if `taken`, else the next instruction; nothing else changes (R210). -/
def jumpWhen (taken : Bool) (i : Instr) (target : Word) (s : State) : Result :=
  s.retireTo i (.ok (s, if taken then target else s.nextPc i))

/-- `jump_absolute` (R211). -/
def execJumpAbsolute (addr : Word) (s : State) : Result :=
  jumpWhen true (.jumpAbsolute addr) addr s

/-- `jump_equal` (R212). -/
def execJumpEqual (addr : Word) (s : State) : Result :=
  jumpWhen s.flags.equal (.jumpEqual addr) addr s

/-- `jump_not_equal` (R213). -/
def execJumpNotEqual (addr : Word) (s : State) : Result :=
  jumpWhen s.flags.notEqual (.jumpNotEqual addr) addr s

/-- `jump_greater` (R214). -/
def execJumpGreater (addr : Word) (s : State) : Result :=
  jumpWhen s.flags.greater (.jumpGreater addr) addr s

/-- `jump_smaller` (R215). -/
def execJumpSmaller (addr : Word) (s : State) : Result :=
  jumpWhen s.flags.smaller (.jumpSmaller addr) addr s

/-- `jump_overflow` (R216). -/
def execJumpOverflow (addr : Word) (s : State) : Result :=
  jumpWhen s.flags.overflow (.jumpOverflow addr) addr s

/-- Write the stack-base pointer and the call-depth counter (`10_state.md` R31, R32). -/
def State.setFrame (s : State) (sbp cdepth : Nat) : State := { s with sbp := sbp, cdepth := cdepth }

/-- Push the frame: `x[0]`, `x[1]`, `x[2]`, `x[3]`, then `pc0` (R217, R219). -/
def State.pushFrame (s : State) : State :=
  ((((s.push (s.reg 0)).push (s.reg 1)).push (s.reg 2)).push (s.reg 3)).push s.pc

/-- Restore the registers in the reverse of the push order (R218). -/
def State.restoreRegs (s : State) (r3 r2 r1 r0 : Word) : State :=
  (((s.setReg 3 r3).setReg 2 r2).setReg 1 r1).setReg 0 r0

/-- The call's effect: frame pushed, `sbp` the post-push length, one more call outstanding (R217). -/
def State.enterProcedure (s : State) : State :=
  (s.pushFrame).setFrame s.pushFrame.len (s.cdepth + 1)

/-- `procedure_call` (R217). -/
def execProcedureCall (addr : Word) (s : State) : Result :=
  s.retireTo (.procedureCall addr) (.ok (s.enterProcedure, addr))

/-- The stack after the callee's locals have been discarded: down to length `sbp` (R218). -/
def State.discardLocals (s : State) : List Word := s.stack.drop (s.len - s.sbp)

/-- The return's effect and its target `saved + 5` (R218). -/
def State.leaveProcedure (s : State) : Except ErrKind (State × Word) :=
  if s.cdepth = 0 then .error .controlFlowError
  else if s.len < s.sbp then .error .stackUnderflow
  else match s.discardLocals with
    | saved :: r3 :: r2 :: r1 :: r0 :: rest =>
      .ok (((s.setStack rest).restoreRegs r3 r2 r1 r0).setFrame rest.length (s.cdepth - 1), saved + 5)
    | _ => .error .stackUnderflow

/-- `procedure_return` (R218). -/
def execProcedureReturn (s : State) : Result :=
  s.retireTo .procedureReturn s.leaveProcedure

end Sys2Proof.Machine
end

