-- ==== Sys2Proof/Machine/DataMovement.lean ====
section
/-! DEFINITION. The twelve data-movement instructions (`44_data_movement.md` R191 to R202). No flag
is read or written (R190). -/

namespace Sys2Proof.Machine

/-- `push_lit` (R191). -/
def execPushLit (lit : Word) (s : State) : Result :=
  s.retire (.pushLit lit) (.ok (s.push lit))

/-- `push_reg` (R192). -/
def execPushReg (ra : RegIdx) (s : State) : Result :=
  s.retire (.pushReg ra) do
    let v ← s.regOperand ra
    .ok (s.push v)

/-- `push_mem` (R193). -/
def execPushMem (addr : Word) (s : State) : Result :=
  s.retire (.pushMem addr) do
    let v ← s.memRead addr
    .ok (s.push v)

/-- `pop_reg` (R194): the register index is checked before the stack. -/
def execPopReg (ra : RegIdx) (s : State) : Result :=
  s.retire (.popReg ra) do
    s.checkReg ra
    let (v, s1) ← s.pop
    .ok (s1.setReg ra.toNat v)

/-- `pop_memory` (R195): the stack is checked before the address. -/
def execPopMemory (addr : Word) (s : State) : Result :=
  s.retire (.popMemory addr) do
    let (v, s1) ← s.pop
    s1.memWrite addr v

/-- `stack_dupe` (R196). -/
def execStackDupe (s : State) : Result :=
  s.retire .stackDupe do
    let v ← s.peek
    .ok (s.push v)

/-- `mov_lit_reg` (R197). -/
def execMovLitReg (ra : RegIdx) (lit : Word) (s : State) : Result :=
  s.retire (.movLitReg ra lit) do
    s.checkReg ra
    .ok (s.setReg ra.toNat lit)

/-- `mov_reg_reg` (R198): `ra` is the source, `rb` the destination. -/
def execMovRegReg (ra rb : RegIdx) (s : State) : Result :=
  s.retire (.movRegReg ra rb) do
    let v ← s.regOperand ra
    s.checkReg rb
    .ok (s.setReg rb.toNat v)

/-- `mov_mem_reg` (R199): `ra` is the destination. -/
def execMovMemReg (ra : RegIdx) (addr : Word) (s : State) : Result :=
  s.retire (.movMemReg ra addr) do
    s.checkReg ra
    let v ← s.memRead addr
    .ok (s.setReg ra.toNat v)

/-- `mov_reg_mem` (R200): `ra` is the source. -/
def execMovRegMem (ra : RegIdx) (addr : Word) (s : State) : Result :=
  s.retire (.movRegMem ra addr) do
    let v ← s.regOperand ra
    s.memWrite addr v

/-- `mov_lit_mem` (R201). -/
def execMovLitMem (lit addr : Word) (s : State) : Result :=
  s.retire (.movLitMem lit addr) (s.memWrite addr lit)

/-- `mov_mem_mem` (R202): the whole word is read from `addr1` before it is written to `addr2`. -/
def execMovMemMem (addr1 addr2 : Word) (s : State) : Result :=
  s.retire (.movMemMem addr1 addr2) do
    let v ← s.memRead addr1
    s.memWrite addr2 v

end Sys2Proof.Machine
end

