-- ==== Sys2Proof/Machine/NopExit.lean ====
section
/-! DEFINITION. `nop` and `exit` (`47_nop_exit.md` R240, R241). -/

namespace Sys2Proof.Machine

/-- `nop` (R240): no effect but the advance of `pc`; no diagnostic is emitted. -/
def execNop (s : State) : Result := s.retire .nop (.ok s)

/-- `exit` (R241): sets `stop`; the cycle completes, its advance included. -/
def execExit (s : State) : Result := s.retire .exit (.ok (s.setFlags s.flags.setStop))

end Sys2Proof.Machine
end

