-- ==== Sys2Proof/Machine/Syscall.lean ====
section
/-! DEFINITION. `syscall` and its four services (`46_syscall.md` R230 to R237). -/

namespace Sys2Proof.Machine

/-- Selector 0: `x[2]` bytes of RAM from `x[1]` up, one request a byte, the whole range checked first
(R231). -/
def State.sysWrite (s : State) : Except ErrKind State :=
  if s.rangeInBounds (s.reg 1) (s.reg 2) then
    .ok (s.request ((Memory.readBytes s.mem (s.reg 1).toNat (s.reg 2).toNat).map .writeChar))
  else .error .memoryOutOfBounds

/-- Selector 1: the host's answer, at most `x[2]` bytes, to RAM from `x[1]` up, the whole range checked
before the host is asked (R232). -/
def State.sysRead (s : State) : Except ErrKind State :=
  if s.rangeInBounds (s.reg 1) (s.reg 2) then
    let data := s.lineAnswer (s.reg 2)
    .ok ((s.answered (.readLine (s.reg 2) data)).setMem (Memory.writeBytes (s.reg 1).toNat data s.mem))
  else .error .memoryOutOfBounds

/-- Selector 2: one clear request (R233). -/
def State.sysClear (s : State) : State := s.request [.clearTerminal]

/-- Selector 3: one decimal request for `x[1]` (R234). -/
def State.sysDecimal (s : State) : State := s.request [.writeDecimal (s.reg 1)]

/-- One service by the full 32-bit value of `x[0]`, with no fallthrough; any other selector does
nothing (R230, R235, R236). -/
def State.service (s : State) : Except ErrKind State :=
  if s.reg 0 = 0 then s.sysWrite
  else if s.reg 0 = 1 then s.sysRead
  else if s.reg 0 = 2 then .ok s.sysClear
  else if s.reg 0 = 3 then .ok s.sysDecimal
  else .ok s

/-- `syscall` (R230). -/
def execSyscall (s : State) : Result := s.retire .syscall s.service

/-- The shortest decimal digits of `n`, at most `k` of them, in front of `acc`, as ASCII codes. -/
def decimalDigits : Nat → Nat → List Byte → List Byte
  | 0, _, acc => acc
  | k + 1, n, acc =>
    let acc := BitVec.ofNat 8 (48 + n % 10) :: acc
    if n / 10 = 0 then acc else decimalDigits k (n / 10) acc

/-- The characters a request puts on the host's character output (R231, R234; the ASCII rendition of
`WriteDecimal` is PRESUMED, log 20). -/
def HostRequest.output : HostRequest → List Byte
  | .writeChar b => [b]
  | .readLine _ _ => []
  | .clearTerminal => []
  | .writeDecimal v => decimalDigits 10 v.toNat []
  | .rand _ => []

/-- The character output so far (R237). -/
def State.charOutput (s : State) : List Byte := s.trace.flatMap HostRequest.output

end Sys2Proof.Machine
end

