-- ==== Sys2Proof/Machine/Dispatch.lean ====
section
/-! DEFINITION. One arm per constructor of Instr: each calls the meaning of its instruction. -/

namespace Sys2Proof.Machine

def exec (i : Instr) (s : State) : Host.Outcome State Fault Refusal :=
  match i with
  | .exit => Sys2Proof.Machine.execExit s
  | .nop => Sys2Proof.Machine.execNop s
  | .pushLit lit => Sys2Proof.Machine.execPushLit lit s
  | .pushReg ra => Sys2Proof.Machine.execPushReg ra s
  | .pushMem addr => Sys2Proof.Machine.execPushMem addr s
  | .popReg ra => Sys2Proof.Machine.execPopReg ra s
  | .popMemory addr => Sys2Proof.Machine.execPopMemory addr s
  | .stackDupe => Sys2Proof.Machine.execStackDupe s
  | .movLitReg ra lit => Sys2Proof.Machine.execMovLitReg ra lit s
  | .movRegReg ra rb => Sys2Proof.Machine.execMovRegReg ra rb s
  | .movMemReg ra addr => Sys2Proof.Machine.execMovMemReg ra addr s
  | .movRegMem ra addr => Sys2Proof.Machine.execMovRegMem ra addr s
  | .movLitMem lit addr => Sys2Proof.Machine.execMovLitMem lit addr s
  | .movMemMem addr1 addr2 => Sys2Proof.Machine.execMovMemMem addr1 addr2 s
  | .mathAddReg ra rb => Sys2Proof.Machine.execMathAddReg ra rb s
  | .mathAddStack => Sys2Proof.Machine.execMathAddStack s
  | .mathAddRegLit ra lit => Sys2Proof.Machine.execMathAddRegLit ra lit s
  | .mathAddStackLit lit => Sys2Proof.Machine.execMathAddStackLit lit s
  | .mathSubReg ra rb => Sys2Proof.Machine.execMathSubReg ra rb s
  | .mathSubStack => Sys2Proof.Machine.execMathSubStack s
  | .mathSubRegLit ra lit => Sys2Proof.Machine.execMathSubRegLit ra lit s
  | .mathSubStackLit lit => Sys2Proof.Machine.execMathSubStackLit lit s
  | .mathMulReg ra rb => Sys2Proof.Machine.execMathMulReg ra rb s
  | .mathMulStack => Sys2Proof.Machine.execMathMulStack s
  | .mathMulRegLit ra lit => Sys2Proof.Machine.execMathMulRegLit ra lit s
  | .mathMulStackLit lit => Sys2Proof.Machine.execMathMulStackLit lit s
  | .mathDivReg ra rb => Sys2Proof.Machine.execMathDivReg ra rb s
  | .mathDivStack => Sys2Proof.Machine.execMathDivStack s
  | .mathDivRegLit ra lit => Sys2Proof.Machine.execMathDivRegLit ra lit s
  | .mathDivStackLit lit => Sys2Proof.Machine.execMathDivStackLit lit s
  | .mathAndReg ra rb => Sys2Proof.Machine.execMathAndReg ra rb s
  | .mathAndStack => Sys2Proof.Machine.execMathAndStack s
  | .mathAndRegLit ra lit => Sys2Proof.Machine.execMathAndRegLit ra lit s
  | .mathAndStackLit lit => Sys2Proof.Machine.execMathAndStackLit lit s
  | .mathOrReg ra rb => Sys2Proof.Machine.execMathOrReg ra rb s
  | .mathOrStack => Sys2Proof.Machine.execMathOrStack s
  | .mathOrRegLit ra lit => Sys2Proof.Machine.execMathOrRegLit ra lit s
  | .mathOrStackLit lit => Sys2Proof.Machine.execMathOrStackLit lit s
  | .mathXorReg ra rb => Sys2Proof.Machine.execMathXorReg ra rb s
  | .mathXorStack => Sys2Proof.Machine.execMathXorStack s
  | .mathXorRegLit ra lit => Sys2Proof.Machine.execMathXorRegLit ra lit s
  | .mathXorStackLit lit => Sys2Proof.Machine.execMathXorStackLit lit s
  | .mathShlReg ra rb => Sys2Proof.Machine.execMathShlReg ra rb s
  | .mathShlStack => Sys2Proof.Machine.execMathShlStack s
  | .mathShlRegLit ra lit => Sys2Proof.Machine.execMathShlRegLit ra lit s
  | .mathShlStackLit lit => Sys2Proof.Machine.execMathShlStackLit lit s
  | .mathShrReg ra rb => Sys2Proof.Machine.execMathShrReg ra rb s
  | .mathShrStack => Sys2Proof.Machine.execMathShrStack s
  | .mathShrRegLit ra lit => Sys2Proof.Machine.execMathShrRegLit ra lit s
  | .mathShrStackLit lit => Sys2Proof.Machine.execMathShrStackLit lit s
  | .mathNotReg ra => Sys2Proof.Machine.execMathNotReg ra s
  | .mathNotStack => Sys2Proof.Machine.execMathNotStack s
  | .mathIncReg ra => Sys2Proof.Machine.execMathIncReg ra s
  | .mathIncStack => Sys2Proof.Machine.execMathIncStack s
  | .mathDecReg ra => Sys2Proof.Machine.execMathDecReg ra s
  | .mathDecStack => Sys2Proof.Machine.execMathDecStack s
  | .mathSqrtReg ra => Sys2Proof.Machine.execMathSqrtReg ra s
  | .mathSqrtStack => Sys2Proof.Machine.execMathSqrtStack s
  | .mathRandReg ra => Sys2Proof.Machine.execMathRandReg ra s
  | .mathRandStack => Sys2Proof.Machine.execMathRandStack s
  | .mathPowReg ra rb => Sys2Proof.Machine.execMathPowReg ra rb s
  | .mathPowStack => Sys2Proof.Machine.execMathPowStack s
  | .compareRegReg ra rb => Sys2Proof.Machine.execCompareRegReg ra rb s
  | .compareRegLit ra lit => Sys2Proof.Machine.execCompareRegLit ra lit s
  | .compareStackLit lit => Sys2Proof.Machine.execCompareStackLit lit s
  | .flagReset => Sys2Proof.Machine.execFlagReset s
  | .jumpAbsolute addr => Sys2Proof.Machine.execJumpAbsolute addr s
  | .jumpEqual addr => Sys2Proof.Machine.execJumpEqual addr s
  | .jumpNotEqual addr => Sys2Proof.Machine.execJumpNotEqual addr s
  | .jumpGreater addr => Sys2Proof.Machine.execJumpGreater addr s
  | .jumpSmaller addr => Sys2Proof.Machine.execJumpSmaller addr s
  | .jumpOverflow addr => Sys2Proof.Machine.execJumpOverflow addr s
  | .procedureCall addr => Sys2Proof.Machine.execProcedureCall addr s
  | .procedureReturn => Sys2Proof.Machine.execProcedureReturn s
  | .syscall => Sys2Proof.Machine.execSyscall s

end Sys2Proof.Machine
end

