-- ==== Sys2Proof/Machine/Step.lean ====
section
/-! DEFINITION. One cycle of the core (`40_core_cycle.md` R93 to R99). -/

namespace Sys2Proof.Machine

/-- One cycle: refused outside the configurations of `00_scope.md` R8, not enabled when STOPPED,
otherwise the instruction at `pc` runs, or the failure to decode one is raised (R94). -/
def step (s : State) : Host.Outcome State Fault Refusal :=
  if s.configLegal then
    if s.stopped then .fault .stopped
    else match s.fetch with
      | .ok i => exec i s
      | .error e => .next (s.raise .decodeError e.opcode)
  else .refused .illegalConfiguration

/-- `s` with a table row's instruction, nine bytes of it, in the buffer where the next fetch reads
(log 15). Nothing else changes: a STOPPED core stays STOPPED, and the bytes are read under the map of
`s`, which at reset is the default one that the table's words are written in. -/
def State.withFetchWord (s : State) (nbits w : Nat) : State := s.placeBytes (tableBytes nbits w)

end Sys2Proof.Machine
end

