-- ==== Sys2Proof/Machine/Cycle.lean ====
section
/-! DEFINITION. The Decoder and the cycle in the literal words of `40_core_cycle.md` R90 to R94: each
operand fetch moves `pc`, checks the end of the buffer and, for a register, the range of the index, by
itself. `step` decodes the bytes first and leaves the range check to the meanings (log 13), with the
net effect on `pc` that R96 permits (log 14); a claim says that the two readings agree (log 17). -/

namespace Sys2Proof.Machine

/-- `code(i)` = `PROG[H + i]`, defined iff `H + i < PROG_LEN` (`20_memory.md` R51). -/
def State.code (s : State) (i : Nat) : Option Byte := s.prog[s.headerSize + i]?

/-- `FetchReg()` with `pc` on entry: the index and `pc` on exit, on the byte consumed; `none` is its
`raise DecodeError`, past the end of the buffer or with `r ≥ NREG` (R90). -/
def State.fetchRegAt (s : State) (pc : Word) : Option (RegIdx × Word) :=
  if s.headerSize + pc.toNat + 1 ≥ s.prog.length then none
  else do
    let r ← s.code (pc + 1).toNat
    if r.toNat ≥ s.nreg then none else some (r, pc + 1)

/-- `FetchLit()` with `pc` on entry: the value and `pc` on exit, on the last byte consumed (R91). -/
def State.fetchLitAt (s : State) (pc : Word) : Option (Word × Word) :=
  if s.headerSize + pc.toNat + 4 ≥ s.prog.length then none
  else do
    let b3 ← s.code (pc.toNat + 1)
    let b2 ← s.code (pc.toNat + 2)
    let b1 ← s.code (pc.toNat + 3)
    let b0 ← s.code (pc.toNat + 4)
    some (wordOfBytes b3 b2 b1 b0, pc + 4)

/-- The operand fetches of a shape in stream order (R100): the instruction and `pc` on its last byte. -/
def Shape.fetchAt (s : State) : Shape → Word → Option (Instr × Word)
  | .f0 i, pc => some (i, pc)
  | .fr mk, pc => do
    let (ra, pc) ← s.fetchRegAt pc
    some (mk ra, pc)
  | .frr mk, pc => do
    let (ra, pc) ← s.fetchRegAt pc
    let (rb, pc) ← s.fetchRegAt pc
    some (mk ra rb, pc)
  | .fl mk, pc => do
    let (lit, pc) ← s.fetchLitAt pc
    some (mk lit, pc)
  | .fa mk, pc => do
    let (addr, pc) ← s.fetchLitAt pc
    some (mk addr, pc)
  | .frl mk, pc => do
    let (ra, pc) ← s.fetchRegAt pc
    let (lit, pc) ← s.fetchLitAt pc
    some (mk ra lit, pc)
  | .fra mk, pc => do
    let (ra, pc) ← s.fetchRegAt pc
    let (addr, pc) ← s.fetchLitAt pc
    some (mk ra addr, pc)
  | .fla mk, pc => do
    let (lit, pc) ← s.fetchLitAt pc
    let (addr, pc) ← s.fetchLitAt pc
    some (mk lit addr, pc)
  | .faa mk, pc => do
    let (addr1, pc) ← s.fetchLitAt pc
    let (addr2, pc) ← s.fetchLitAt pc
    some (mk addr1 addr2, pc)

/-- The fetch part of `Cycle()`: the opcode byte in place, then the operands. Its failure is a
`raise DecodeError`, with the opcode byte where there is one (R94, `10_state.md` R33). -/
def State.fetchLiteral (s : State) : Except (Option Byte) (Instr × Word) :=
  match s.code s.pc.toNat with
  | none => .error none
  | some op =>
    match shapeOf s.opmap op with
    | none => .error (some op)
    | some shape =>
      match Shape.fetchAt s shape s.pc with
      | none => .error (some op)
      | some r => .ok r

/-- `Cycle()` of a RUNNING core: the literal fetch, then the instruction's rule (R94). -/
def State.cycleLiteral (s : State) : Result :=
  match s.fetchLiteral with
  | .error op => .next (s.raise .decodeError op)
  | .ok (i, _) => exec i s

end Sys2Proof.Machine
end

