-- ==== Sys2Proof/Safety.lean ====
section
/-! DEFINITION. What counts as a sound state and a clean stop, in the terms the claims use. -/

namespace Sys2Proof.Machine

/-- The relational flags (equal, not_equal, greater, smaller) are one of the three outcomes of a
compare, or all clear (`43_compare_flags.md` R185). -/
def Flags.relationalLegal (f : Flags) : Bool :=
  [(true, false, false, false), (false, true, true, false), (false, true, false, true),
    (false, false, false, false)].contains (f.equal, f.notEqual, f.greater, f.smaller)

/-- Whether the host answers a request (`46_syscall.md` R237). -/
def HostRequest.hasAnswer : HostRequest → Bool
  | .readLine _ _ => true
  | .rand _ => true
  | .writeChar _ => false
  | .clearTerminal => false
  | .writeDecimal _ => false

/-- An answer to a read is no longer than the size asked for (`46_syscall.md` R232). -/
def HostRequest.answerFits : HostRequest → Bool
  | .readLine n data => decide (data.length ≤ n.toNat)
  | .rand _ => true
  | .writeChar _ => true
  | .clearTerminal => true
  | .writeDecimal _ => true

/-- What every state the core can be in satisfies. -/
structure State.Inv (s : State) : Prop where
  /-- The constants meet the constraints of `00_scope.md` R8. -/
  configLegal : s.configLegal = true
  /-- RAM is in its canonical form. -/
  memWf : Memory.wf s.mem = true
  /-- RAM lists only addresses below `MEM_SIZE` (`20_memory.md` R52). -/
  memWithin : Memory.within s.memSize s.mem = true
  /-- The relational flags are a compare's outcome or all clear (R185). -/
  flagsLegal : s.flags.relationalLegal = true
  /-- A stop by `exit` and a stop by error exclude each other (`60_exceptions.md` R257). -/
  stopClean : s.flags.stop = true → s.err = none
  /-- A recorded error names the opcode byte at `pc`, where the core stands (R257, `10_state.md` R33). -/
  errHere : ∀ e, s.err = some e → e.offset = s.pc ∧ e.opcode = s.stream.head?
  /-- One draw for every answered request (the model's own counter, log 7). -/
  drawsCounted : s.draws = (s.trace.filter HostRequest.hasAnswer).length
  /-- No answer to a read exceeds its size (R232). -/
  answersFit : s.trace.all HostRequest.answerFits = true

/-- Stopped by `exit` (R257). -/
def State.cleanStop (s : State) : Bool := s.flags.stop && s.err.isNone

/-- Stopped by a fatal error (R257). -/
def State.errorStop (s : State) : Bool := s.err.isSome

/-- A function applied to the next state, where there is one. -/
def mapNext (f : State → State) : Result → Result
  | .next s => .next (f s)
  | .fault r => .fault r
  | .refused r => .refused r

end Sys2Proof.Machine
end

