-- ==== Sys2Proof/Certificates/Slice0/Obligations.lean ====
section
/-! DEFINITION. The statements for the provers. Result states are written as explicit record updates
of the start state, so that every field not named in one is unchanged: registers, every byte of RAM,
stack, flags, `sbp`, `cdepth`, `err`, the constants, `trace` and `draws`. -/

namespace Sys2Proof.Machine

/-! ### Shapes of a next state, and the spec's arithmetic -/

/-- `pc` advanced by `n` bytes mod 2^32 and nothing else changed. -/
def advanced (s : State) (n : Nat) : State := { s with pc := s.pc + BitVec.ofNat 32 n }

/-- The flags with `overflow` written where `v` is given, and no other flag changed. -/
def overflowWritten (f : Flags) (v : Option Bool) : Flags :=
  { f with overflow := v.getD f.overflow }

/-- `pc` advanced by `n`, register `ra` written with `r`, `overflow` written where `v` is given. -/
def regWritten (s : State) (n : Nat) (ra : RegIdx) (r : Word) (v : Option Bool) : State :=
  { s with
    pc := s.pc + BitVec.ofNat 32 n
    regs := s.regs.set ra.toNat r
    flags := overflowWritten s.flags v }

/-- `pc` advanced by `n`, the stack replaced (top first), `overflow` written where `v` is given. -/
def stackWritten (s : State) (n : Nat) (st : List Word) (v : Option Bool) : State :=
  { s with
    pc := s.pc + BitVec.ofNat 32 n
    stack := st
    flags := overflowWritten s.flags v }

/-- The word `v` stands big-endian at `addr` in `t`, every other byte of RAM reads as in `s`, and `t`
is `s` but for RAM, `pc` advanced by `n`, and the stack, which is `st`. -/
def StoresWord (s t : State) (n addr : Nat) (v : Word) (st : List Word) : Prop :=
  t.readByte addr = BitVec.ofNat 8 (v.toNat / 16777216) ∧
  t.readByte (addr + 1) = BitVec.ofNat 8 (v.toNat / 65536) ∧
  t.readByte (addr + 2) = BitVec.ofNat 8 (v.toNat / 256) ∧
  t.readByte (addr + 3) = BitVec.ofNat 8 v.toNat ∧
  (∀ a, a < addr ∨ addr + 3 < a → t.readByte a = s.readByte a) ∧
  t = { s with pc := s.pc + BitVec.ofNat 32 n, stack := st, mem := t.mem }

/-- The word at `addr`: four bytes, most significant first. -/
def wordAt (s : State) (addr : Nat) : Word :=
  BitVec.ofNat 32 ((s.readByte addr).toNat * 16777216 + (s.readByte (addr + 1)).toNat * 65536 +
    (s.readByte (addr + 2)).toNat * 256 + (s.readByte (addr + 3)).toNat)

/-- The four instructions of a two-operand operation, on which operands it has a result, the result
and the overflow outcome, in the spec's arithmetic on natural numbers. -/
structure BinaryFamily where
  reg : RegIdx → RegIdx → Instr
  stack : Instr
  regLit : RegIdx → Word → Instr
  stackLit : Word → Instr
  hasResult : Word → Word → Prop
  value : Word → Word → Word
  overflow : Word → Word → Option Bool

/-- The nine operations of `41_arithmetic_binary.md`. -/
def binaryFamilies : List BinaryFamily := [
  { reg := .mathAddReg, stack := .mathAddStack, regLit := .mathAddRegLit, stackLit := .mathAddStackLit
    hasResult := fun _ _ => True
    value := fun a b => BitVec.ofNat 32 (a.toNat + b.toNat)
    overflow := fun a b => some (decide (a.toNat + b.toNat > maxWord)) },
  { reg := .mathSubReg, stack := .mathSubStack, regLit := .mathSubRegLit, stackLit := .mathSubStackLit
    hasResult := fun _ _ => True
    value := fun a b => BitVec.ofNat 32 (a.toNat + 4294967296 - b.toNat)
    overflow := fun a b => some (decide (a.toNat < b.toNat)) },
  { reg := .mathMulReg, stack := .mathMulStack, regLit := .mathMulRegLit, stackLit := .mathMulStackLit
    hasResult := fun _ b => b ≠ 0
    value := fun a b => BitVec.ofNat 32 (a.toNat * b.toNat)
    overflow := fun a b => some (decide (a.toNat * b.toNat > maxWord)) },
  { reg := .mathDivReg, stack := .mathDivStack, regLit := .mathDivRegLit, stackLit := .mathDivStackLit
    hasResult := fun _ b => b ≠ 0
    value := fun a b => BitVec.ofNat 32 (a.toNat / b.toNat)
    overflow := fun _ _ => none },
  { reg := .mathAndReg, stack := .mathAndStack, regLit := .mathAndRegLit, stackLit := .mathAndStackLit
    hasResult := fun _ _ => True
    value := fun a b => BitVec.ofNat 32 (Nat.land a.toNat b.toNat)
    overflow := fun _ _ => none },
  { reg := .mathOrReg, stack := .mathOrStack, regLit := .mathOrRegLit, stackLit := .mathOrStackLit
    hasResult := fun _ _ => True
    value := fun a b => BitVec.ofNat 32 (Nat.lor a.toNat b.toNat)
    overflow := fun _ _ => none },
  { reg := .mathXorReg, stack := .mathXorStack, regLit := .mathXorRegLit, stackLit := .mathXorStackLit
    hasResult := fun _ _ => True
    value := fun a b => BitVec.ofNat 32 (Nat.xor a.toNat b.toNat)
    overflow := fun _ _ => none },
  { reg := .mathShlReg, stack := .mathShlStack, regLit := .mathShlRegLit, stackLit := .mathShlStackLit
    hasResult := fun _ _ => True
    value := fun a b => if b.toNat < 32 then BitVec.ofNat 32 (a.toNat * 2 ^ b.toNat) else 0
    overflow := fun _ _ => none },
  { reg := .mathShrReg, stack := .mathShrStack, regLit := .mathShrRegLit, stackLit := .mathShrStackLit
    hasResult := fun _ _ => True
    value := fun a b => if b.toNat < 32 then BitVec.ofNat 32 (a.toNat / 2 ^ b.toNat) else 0
    overflow := fun _ _ => none }]

/-- The two instructions of a one-operand operation, its result and its overflow outcome. -/
structure UnaryFamily where
  reg : RegIdx → Instr
  stack : Instr
  value : Word → Word
  overflow : Word → Option Bool

/-- The one-operand operations of `42_arithmetic_unary.md`; `Nat.sqrt` is the floor square root. -/
def unaryFamilies : List UnaryFamily := [
  { reg := .mathNotReg, stack := .mathNotStack
    value := fun a => BitVec.ofNat 32 (maxWord - a.toNat)
    overflow := fun _ => none },
  { reg := .mathIncReg, stack := .mathIncStack
    value := fun a => BitVec.ofNat 32 (a.toNat + 1)
    overflow := fun a => some (decide (a.toNat = maxWord)) },
  { reg := .mathDecReg, stack := .mathDecStack
    value := fun a => BitVec.ofNat 32 (a.toNat + 4294967295)
    overflow := fun a => some (decide (a.toNat = 0)) },
  { reg := .mathSqrtReg, stack := .mathSqrtStack
    value := fun a => BitVec.ofNat 32 (Nat.sqrt a.toNat)
    overflow := fun _ => none }]

/-- The five conditional jumps with the flag each tests. -/
def conditionalJumps : List ((Word → Instr) × (Flags → Bool)) := [
  (.jumpEqual, Flags.equal), (.jumpNotEqual, Flags.notEqual), (.jumpGreater, Flags.greater),
  (.jumpSmaller, Flags.smaller), (.jumpOverflow, Flags.overflow)]

/-- `s` with the fatal error of kind `k` recorded with opcode byte `op` at `pc`, and nothing else
changed. -/
def failed (s : State) (k : ErrKind) (op : Option Byte) : State :=
  { s with err := some { kind := k, opcode := op, offset := s.pc } }

/-- `s` with the fatal error of kind `k` recorded for the instruction `i`, whose opcode byte the map of
`s` gives, and nothing else changed. -/
def failedBy (s : State) (k : ErrKind) (i : Instr) : State := failed s k (some (i.opcode s.opmap))

/-- How many stack values an instruction pops or peeks in its own right (`60_exceptions.md` R252);
`procedure_return` has its own rule. -/
def stackNeed : Instr → Nat
  | .popReg _ | .popMemory _ | .stackDupe | .compareStackLit _ => 1
  | .mathAddStackLit _ | .mathSubStackLit _ | .mathMulStackLit _ | .mathDivStackLit _ => 1
  | .mathAndStackLit _ | .mathOrStackLit _ | .mathXorStackLit _ | .mathShlStackLit _ => 1
  | .mathShrStackLit _ | .mathNotStack | .mathIncStack | .mathDecStack | .mathSqrtStack => 1
  | .mathAddStack | .mathSubStack | .mathMulStack | .mathDivStack | .mathAndStack => 2
  | .mathOrStack | .mathXorStack | .mathShlStack | .mathShrStack | .mathPowStack => 2
  | _ => 0

/-- The instructions that write the four relational flags (`10_state.md` R30). -/
def writesRelational : Instr → Bool
  | .compareRegReg _ _ | .compareRegLit _ _ | .compareStackLit _ | .flagReset => true
  | _ => false

/-- The instructions that write the overflow flag (`10_state.md` R30). -/
def writesOverflow : Instr → Bool
  | .mathAddReg _ _ | .mathAddStack | .mathAddRegLit _ _ | .mathAddStackLit _ => true
  | .mathSubReg _ _ | .mathSubStack | .mathSubRegLit _ _ | .mathSubStackLit _ => true
  | .mathMulReg _ _ | .mathMulStack | .mathMulRegLit _ _ | .mathMulStackLit _ => true
  | .mathIncReg _ | .mathIncStack | .mathDecReg _ | .mathDecStack => true
  | .mathPowReg _ _ | .mathPowStack | .flagReset => true
  | _ => false

/-- The fourteen instructions of `and`, `or`, `xor` and `not`. -/
def isBitwise : Instr → Bool
  | .mathAndReg _ _ | .mathAndStack | .mathAndRegLit _ _ | .mathAndStackLit _ => true
  | .mathOrReg _ _ | .mathOrStack | .mathOrRegLit _ _ | .mathOrStackLit _ => true
  | .mathXorReg _ _ | .mathXorStack | .mathXorRegLit _ _ | .mathXorStackLit _ => true
  | .mathNotReg _ | .mathNotStack => true
  | _ => false

/-- The instructions that can write RAM (`10_state.md` R35); `syscall` does with selector 1 only. -/
def writesMemory (s : State) : Instr → Bool
  | .popMemory _ | .movRegMem _ _ | .movLitMem _ _ | .movMemMem _ _ => true
  | .syscall => decide (s.reg 0 = 1)
  | _ => false

/-- The instructions that place requests on the host interface (`46_syscall.md` R237). -/
def asksHost : Instr → Bool
  | .syscall | .mathRandReg _ | .mathRandStack => true
  | _ => false

/-- `procedure_call` and `procedure_return`. -/
def isCallOrReturn : Instr → Bool
  | .procedureCall _ | .procedureReturn => true
  | _ => false

end Sys2Proof.Machine

open Sys2Proof Sys2Proof.Machine

/-! ### Encoding and the cycle -/

/-- Under every legal opcode map, decoding the bytes of any instruction, whatever follows them, gives
the instruction back and leaves exactly what follows. -/
def Obligations.DecodeOfEncodeIsIdentity : Prop :=
  ∀ (m : OpMap) (i : Instr) (rest : List Byte), m.legal = true →
    decode m (encode m i ++ rest) = .ok (i, rest)

/-- Under every opcode map, bytes that decode to an instruction are that instruction's own encoding
and what follows it: each byte string has one meaning and no operand byte is skipped. -/
def Obligations.DecodedBytesAreTheEncoding : Prop :=
  ∀ (m : OpMap) (bs rest : List Byte) (i : Instr), decode m bs = .ok (i, rest) → bs = encode m i ++ rest

/-- An opcode byte is rejected as unassigned exactly where the opcode map does not have it, under every
legal map; the default map is legal, and under it these are the ranges rule R77 lists. The meaning of
such a byte is decision D13 of the spec, the default map decision D1 (log 9). -/
def Obligations.UnassignedOpcodesAreTheListedRanges : Prop :=
  (∀ (m : OpMap) (op : Byte) (rest : List Byte), m.legal = true →
    (decode m (op :: rest) = .error (.unassignedOpcode op) ↔ op ∉ m)) ∧
  OpMap.default.legal = true ∧
  (∀ (op : Byte) (rest : List Byte),
    decode OpMap.default (op :: rest) = .error (.unassignedOpcode op) ↔
      (0x02 ≤ op.toNat ∧ op.toNat ≤ 0x0F) ∨ (0x1C ≤ op.toNat ∧ op.toNat ≤ 0x1F) ∨
      (0x44 ≤ op.toNat ∧ op.toNat ≤ 0x4F) ∨ (0x5C ≤ op.toNat ∧ op.toNat ≤ 0x5F) ∨
      (0x64 ≤ op.toNat ∧ op.toNat ≤ 0x6F) ∨ (0x76 ≤ op.toNat ∧ op.toNat ≤ 0x7F) ∨
      (0x82 ≤ op.toNat ∧ op.toNat ≤ 0x8F) ∨ 0x91 ≤ op.toNat)

/-- Words written out from the encodings of the spec decode to their instructions, one of each family,
under the default opcode map (decision D1 of the spec, log 9). -/
def Obligations.SampleBytesDecode : Prop :=
  decode OpMap.default [0x00] = .ok (.exit, []) ∧
  decode OpMap.default [0x16, 0x05, 0xA1, 0xB2, 0xC3, 0xD4] = .ok (.movLitReg 5 0xA1B2C3D4, []) ∧
  decode OpMap.default [0x1A, 0x11, 0x22, 0x33, 0x44, 0x00, 0x00, 0x00, 0x66] = .ok (.movLitMem 0x11223344 102, []) ∧
  decode OpMap.default [0x24, 0x01, 0x02, 0x55] = .ok (.mathSubReg 1 2, [0x55]) ∧
  decode OpMap.default [0x43, 0x00, 0x00, 0x00, 0x07] = .ok (.mathShrStackLit 7, []) ∧
  decode OpMap.default [0x5A, 0x01, 0x02] = .ok (.mathPowReg 1 2, []) ∧
  decode OpMap.default [0x62, 0x00, 0x00, 0x00, 0x65] = .ok (.compareStackLit 101, []) ∧
  decode OpMap.default [0x80, 0x00, 0x00, 0x01, 0x00] = .ok (.procedureCall 256, []) ∧
  decode OpMap.default [0x90] = .ok (.syscall, []) ∧
  decode OpMap.default [0x10, 0x00, 0x00, 0x00] = .error (.operandPastEnd 0x10)

/-- A step of a RUNNING core whose bytes at `pc` decode to an instruction is `exec` of that
instruction at that state, with nothing around it: `exec` itself advances `pc`. It holds for well
formed instructions and also for those with a register index out of range, on which `exec` raises
`DecodeError`. -/
def Obligations.StepRunsTheDecodedInstruction : Prop :=
  ∀ (s : State) (i : Instr) (rest : List Byte),
    s.configLegal = true → s.flags.stop = false → s.err = none →
    decode s.opmap (s.prog.drop (s.headerSize + s.pc.toNat)) = .ok (i, rest) →
    step s = exec i s

/-- A RUNNING core that finds no opcode byte, an unassigned one, or an operand past the end of the
buffer takes `DecodeError`: a next state with only `err` changed, its opcode absent in the first case
and the byte found in the others (decisions D13, D14 of the spec). -/
def Obligations.UndecodableBytesRaiseDecodeError : Prop :=
  ∀ s : State, s.configLegal = true → s.flags.stop = false → s.err = none →
    (s.prog.drop (s.headerSize + s.pc.toNat) = [] → step s = .next (failed s .decodeError none)) ∧
    (∀ op rest, s.prog.drop (s.headerSize + s.pc.toNat) = op :: rest →
      (decode s.opmap (op :: rest) = .error (.unassignedOpcode op) ∨
        decode s.opmap (op :: rest) = .error (.operandPastEnd op)) →
      step s = .next (failed s .decodeError (some op)))

/-- A STOPPED core has no further step, and a state outside the constraints on the parameters is
refused: `NREG` 4 to 256, `MEM_SIZE` at most 2^32, `H` at most `PROG_LEN`, an opcode byte for each of the
75 instructions and no two the same. That these are a fault and a refusal of the model is logs 11 and
12. -/
def Obligations.StoppedCoreHasNoStep : Prop :=
  ∀ s : State,
    (s.configLegal = true ↔
      4 ≤ s.nreg ∧ s.nreg ≤ 256 ∧ s.memSize ≤ 4294967296 ∧ s.headerSize ≤ s.prog.length ∧
      s.opmap.length = 75 ∧ s.opmap.Nodup) ∧
    (s.configLegal = true → (s.flags.stop = true ∨ s.err ≠ none) → step s = .fault .stopped) ∧
    (s.configLegal = false → step s = .refused .illegalConfiguration)

/-- A step of a RUNNING core is `Cycle()` read literally: each operand fetch moves `pc` (R90, R91),
checks the end of the buffer (R92) and a register index against `NREG` (R90), the first failure in
stream order raising `DecodeError`; and where the fetches succeed `pc` is left on the instruction's last
byte, so that the post-dispatch advance reaches `next` (R94, R96). `step` decodes all the bytes first
and leaves the range check to the meanings (log 13); the next state is the same. The stream has at most
2^32 bytes (U30; log 17). -/
def Obligations.LiteralDecoderAgreesWithFetch : Prop :=
  ∀ s : State, s.configLegal = true → s.flags.stop = false → s.err = none →
    s.prog.length ≤ s.headerSize + 4294967296 →
    step s = s.cycleLiteral ∧
    (∀ i pc, s.fetchLiteral = .ok (i, pc) →
      i.wellFormed s.nreg = true ∧ pc + 1 = s.pc + BitVec.ofNat 32 (encode s.opmap i).length)

/-! ### ALU functions -/

/-- ADD: the sum mod 2^32; the flag is `a > MAX − b`, which is exactly that the true sum exceeds
`MAX`; and every additive handler, inc with `b = 1` among them, then sets `overflow` and stores the
wrapped sum. Which register or stack value is `a`, and where the sum goes, are decisions D4 and D5 of
the spec (log 19). -/
def Obligations.AdditionOverflowIsExact : Prop :=
  ∀ a b : Word, ∃ r v,
    aluAdd a b = .ok ⟨r, some v⟩ ∧
    r.toNat = (a.toNat + b.toNat) % 4294967296 ∧
    v = decide (a.toNat > maxWord - b.toNat) ∧
    b.toNat ≤ maxWord ∧
    (v = true ↔ a.toNat + b.toNat > maxWord) ∧
    (a.toNat + b.toNat > maxWord →
      (∀ (s : State) (ra rb : RegIdx), ra.toNat < s.nreg → rb.toNat < s.nreg →
        s.reg ra.toNat = a → s.reg rb.toNat = b →
        ∃ t, exec (.mathAddReg ra rb) s = .next t ∧ t.flags.overflow = true ∧ t.reg ra.toNat = r) ∧
      (∀ (s : State) (rest : List Word), s.stack = b :: a :: rest →
        ∃ t, exec .mathAddStack s = .next t ∧ t.flags.overflow = true ∧ t.stack = r :: rest) ∧
      (∀ (s : State) (ra : RegIdx), ra.toNat < s.nreg → s.reg ra.toNat = a →
        ∃ t, exec (.mathAddRegLit ra b) s = .next t ∧ t.flags.overflow = true ∧ t.reg ra.toNat = r) ∧
      (∀ (s : State) (rest : List Word), s.stack = a :: rest →
        ∃ t, exec (.mathAddStackLit b) s = .next t ∧ t.flags.overflow = true ∧ t.stack = r :: rest) ∧
      (∀ (s : State) (ra : RegIdx), b = 1 → ra.toNat < s.nreg → s.reg ra.toNat = a →
        ∃ t, exec (.mathIncReg ra) s = .next t ∧ t.flags.overflow = true ∧ t.reg ra.toNat = r) ∧
      (∀ (s : State) (rest : List Word), b = 1 → s.stack = a :: rest →
        ∃ t, exec .mathIncStack s = .next t ∧ t.flags.overflow = true ∧ t.stack = r :: rest))

/-- SUB: the difference mod 2^32 and the flag `a < b`; when `a < b` the result is `2^32 + a − b` and
every subtraction handler, dec with `b = 1` among them, sets `overflow` and stores it. That the first
register and the value below the top are the left operand are decisions D4 and D5 of the spec (log
19). -/
def Obligations.SubtractionWrapsBelowZero : Prop :=
  ∀ a b : Word, ∃ r v,
    aluSub a b = .ok ⟨r, some v⟩ ∧
    (r.toNat : Int) = ((a.toNat : Int) - b.toNat) % 4294967296 ∧
    v = decide (a.toNat < b.toNat) ∧
    (a.toNat < b.toNat →
      r.toNat = 4294967296 + a.toNat - b.toNat ∧
      (∀ (s : State) (ra rb : RegIdx), ra.toNat < s.nreg → rb.toNat < s.nreg →
        s.reg ra.toNat = a → s.reg rb.toNat = b →
        ∃ t, exec (.mathSubReg ra rb) s = .next t ∧ t.flags.overflow = true ∧ t.reg ra.toNat = r) ∧
      (∀ (s : State) (rest : List Word), s.stack = b :: a :: rest →
        ∃ t, exec .mathSubStack s = .next t ∧ t.flags.overflow = true ∧ t.stack = r :: rest) ∧
      (∀ (s : State) (ra : RegIdx), ra.toNat < s.nreg → s.reg ra.toNat = a →
        ∃ t, exec (.mathSubRegLit ra b) s = .next t ∧ t.flags.overflow = true ∧ t.reg ra.toNat = r) ∧
      (∀ (s : State) (rest : List Word), s.stack = a :: rest →
        ∃ t, exec (.mathSubStackLit b) s = .next t ∧ t.flags.overflow = true ∧ t.stack = r :: rest) ∧
      (∀ (s : State) (ra : RegIdx), b = 1 → ra.toNat < s.nreg → s.reg ra.toNat = a →
        ∃ t, exec (.mathDecReg ra) s = .next t ∧ t.flags.overflow = true ∧ t.reg ra.toNat = r) ∧
      (∀ (s : State) (rest : List Word), b = 1 → s.stack = a :: rest →
        ∃ t, exec .mathDecStack s = .next t ∧ t.flags.overflow = true ∧ t.stack = r :: rest))

/-- MUL raises `DivisionByZero` exactly on right operand 0; otherwise the product mod 2^32, with the
flag the document's `a > MAX / b`, which is exactly that the true product exceeds `MAX`. -/
def Obligations.MultiplicationOverflowIsExact : Prop :=
  ∀ a b : Word,
    (b = 0 → aluMul a b = .error .divisionByZero) ∧
    (b ≠ 0 → ∃ r v, aluMul a b = .ok ⟨r, some v⟩ ∧
      r.toNat = a.toNat * b.toNat % 4294967296 ∧
      v = decide (a.toNat > maxWord / b.toNat) ∧
      (v = true ↔ a.toNat * b.toNat > maxWord))

/-- AND, OR, XOR and NOT bit by bit, and none of their instructions writes a flag. -/
def Obligations.BitwiseOperationsAreBitByBit : Prop :=
  (∀ a b : Word,
    (∃ r, aluAnd a b = .ok ⟨r, none⟩ ∧ ∀ i, i < 32 → r.getLsbD i = (a.getLsbD i && b.getLsbD i)) ∧
    (∃ r, aluOr a b = .ok ⟨r, none⟩ ∧ ∀ i, i < 32 → r.getLsbD i = (a.getLsbD i || b.getLsbD i)) ∧
    (∃ r, aluXor a b = .ok ⟨r, none⟩ ∧ ∀ i, i < 32 → r.getLsbD i = (a.getLsbD i != b.getLsbD i)) ∧
    (∃ r, aluNot a = ⟨r, none⟩ ∧ r.toNat = maxWord - a.toNat ∧
      ∀ i, i < 32 → r.getLsbD i = !a.getLsbD i)) ∧
  (∀ (i : Instr) (s t : State), isBitwise i = true → exec i s = .next t → t.flags = s.flags)

/-- SQRT is the largest integer whose square does not exceed the operand, at most 65535, and its two
instructions write no flag. -/
def Obligations.SquareRootIsTheFloor : Prop :=
  (∀ a : Word, ∃ r, aluSqrt a = ⟨r, none⟩ ∧ r.toNat * r.toNat ≤ a.toNat ∧
    (∀ n : Nat, n * n ≤ a.toNat → n ≤ r.toNat) ∧ r.toNat ≤ 65535) ∧
  (∀ (s t : State) (ra : RegIdx), exec (.mathSqrtReg ra) s = .next t → t.flags = s.flags) ∧
  (∀ s t : State, exec .mathSqrtStack s = .next t → t.flags = s.flags)

/-- POW by squaring is the exact integer power reduced mod 2^32, and its flag is exactly that the true
power exceeds `MAX` (decision D8 of the spec), for every base and exponent, `0^0 = 1` included. -/
def Obligations.PowerIsExact : Prop :=
  ∀ a b : Word, aluPow a b =
    .ok ⟨BitVec.ofNat 32 (a.toNat ^ b.toNat), some (decide (a.toNat ^ b.toNat > maxWord))⟩

/-- INC equals ADD of 1 and DEC equals SUB of 1, result and flag, for every operand; INC overflows
exactly at `MAX`, to 0, and DEC exactly at 0, to `MAX`. -/
def Obligations.IncrementAndDecrementAreAddAndSubOfOne : Prop :=
  ∀ a : Word,
    aluAdd a 1 = .ok (aluInc a) ∧ aluSub a 1 = .ok (aluDec a) ∧
    (aluInc a).value.toNat = (a.toNat + 1) % 4294967296 ∧
    ((aluDec a).value.toNat : Int) = ((a.toNat : Int) - 1) % 4294967296 ∧
    (aluInc a).overflow = some (decide (a.toNat = maxWord)) ∧
    (aluDec a).overflow = some (decide (a.toNat = 0))

/-! ### Results of the arithmetic instructions -/

/-- The nine register-register arithmetic instructions complete on registers in range (and a right
operand other than 0 for mul and div): the result goes to the first register, `overflow` is written by
add, sub and mul only, `pc` advances by 3. Which register is which is decision D4 of the spec. -/
def Obligations.RegisterRegisterArithmeticResult : Prop :=
  ∀ F ∈ binaryFamilies, ∀ (s : State) (ra rb : RegIdx),
    ra.toNat < s.nreg → rb.toNat < s.nreg → F.hasResult (s.reg ra.toNat) (s.reg rb.toNat) →
    exec (F.reg ra rb) s =
      .next (regWritten s 3 ra (F.value (s.reg ra.toNat) (s.reg rb.toNat))
        (F.overflow (s.reg ra.toNat) (s.reg rb.toNat)))

/-- The nine stack-stack arithmetic instructions: the top is the right operand, the value below it the
left one, both are popped and the result pushed (decision D5 of the spec). -/
def Obligations.StackStackArithmeticResult : Prop :=
  ∀ F ∈ binaryFamilies, ∀ (s : State) (a b : Word) (rest : List Word),
    s.stack = b :: a :: rest → F.hasResult a b →
    exec F.stack s = .next (stackWritten s 1 (F.value a b :: rest) (F.overflow a b))

/-- The nine register-literal arithmetic instructions. -/
def Obligations.RegisterLiteralArithmeticResult : Prop :=
  ∀ F ∈ binaryFamilies, ∀ (s : State) (ra : RegIdx) (lit : Word),
    ra.toNat < s.nreg → F.hasResult (s.reg ra.toNat) lit →
    exec (F.regLit ra lit) s =
      .next (regWritten s 6 ra (F.value (s.reg ra.toNat) lit) (F.overflow (s.reg ra.toNat) lit))

/-- The nine stack-literal arithmetic instructions: the top is popped and replaced (decision D5). -/
def Obligations.StackLiteralArithmeticResult : Prop :=
  ∀ F ∈ binaryFamilies, ∀ (s : State) (a lit : Word) (rest : List Word),
    s.stack = a :: rest → F.hasResult a lit →
    exec (F.stackLit lit) s = .next (stackWritten s 5 (F.value a lit :: rest) (F.overflow a lit))

/-- not, inc, dec and sqrt in both forms: the register is updated in place, the top of the stack is
replaced; `overflow` is written by inc and dec only. -/
def Obligations.UnaryArithmeticResult : Prop :=
  ∀ F ∈ unaryFamilies,
    (∀ (s : State) (ra : RegIdx), ra.toNat < s.nreg →
      exec (F.reg ra) s =
        .next (regWritten s 2 ra (F.value (s.reg ra.toNat)) (F.overflow (s.reg ra.toNat)))) ∧
    (∀ (s : State) (a : Word) (rest : List Word), s.stack = a :: rest →
      exec F.stack s = .next (stackWritten s 1 (F.value a :: rest) (F.overflow a)))

/-- pow in both forms: the exact power mod 2^32 (decision D8 of the spec), base in the first register
or below the top, exponent in the second or on top. It raises no error of its own. -/
def Obligations.PowerInstructionsResult : Prop :=
  (∀ (s : State) (ra rb : RegIdx), ra.toNat < s.nreg → rb.toNat < s.nreg →
    exec (.mathPowReg ra rb) s =
      .next (regWritten s 3 ra (BitVec.ofNat 32 ((s.reg ra.toNat).toNat ^ (s.reg rb.toNat).toNat))
        (some (decide ((s.reg ra.toNat).toNat ^ (s.reg rb.toNat).toNat > maxWord))))) ∧
  (∀ (s : State) (a b : Word) (rest : List Word), s.stack = b :: a :: rest →
    exec .mathPowStack s =
      .next (stackWritten s 1 (BitVec.ofNat 32 (a.toNat ^ b.toNat) :: rest)
        (some (decide (a.toNat ^ b.toNat > maxWord)))))

/-- rand in both forms: the host's answer, whatever it is, goes to the register or on the stack, no
flag is written, one request is placed and one answer drawn. That the request is recorded with its
answer is the model's choice (log 8), and the counter of draws is the model's own (log 7). -/
def Obligations.RandomInstructionsResult : Prop :=
  (∀ (s : State) (ra : RegIdx), ra.toNat < s.nreg →
    exec (.mathRandReg ra) s = .next { s with
      pc := s.pc + 2
      regs := s.regs.set ra.toNat (Config.randWord s.draws)
      trace := s.trace ++ [.rand (Config.randWord s.draws)]
      draws := s.draws + 1 }) ∧
  (∀ s : State,
    exec .mathRandStack s = .next { s with
      pc := s.pc + 1
      stack := Config.randWord s.draws :: s.stack
      trace := s.trace ++ [.rand (Config.randWord s.draws)]
      draws := s.draws + 1 })

/-! ### Fatal errors of the instructions -/

/-- mul and div raise `DivisionByZero` on right operand 0, in all eight forms, whatever the left
operand, and keep the whole state but `err`: registers, both stack values, flags, `pc`. -/
def Obligations.ZeroRightOperandRaisesDivisionByZero : Prop :=
  (∀ (s : State) (ra rb : RegIdx), ra.toNat < s.nreg → rb.toNat < s.nreg → s.reg rb.toNat = 0 →
    exec (.mathMulReg ra rb) s = .next (failedBy s .divisionByZero (.mathMulReg ra rb)) ∧
    exec (.mathDivReg ra rb) s = .next (failedBy s .divisionByZero (.mathDivReg ra rb))) ∧
  (∀ (s : State) (a : Word) (rest : List Word), s.stack = 0 :: a :: rest →
    exec .mathMulStack s = .next (failedBy s .divisionByZero .mathMulStack) ∧
    exec .mathDivStack s = .next (failedBy s .divisionByZero .mathDivStack)) ∧
  (∀ (s : State) (ra : RegIdx), ra.toNat < s.nreg →
    exec (.mathMulRegLit ra 0) s = .next (failedBy s .divisionByZero (.mathMulRegLit ra 0)) ∧
    exec (.mathDivRegLit ra 0) s = .next (failedBy s .divisionByZero (.mathDivRegLit ra 0))) ∧
  (∀ (s : State) (a : Word) (rest : List Word), s.stack = a :: rest →
    exec (.mathMulStackLit 0) s = .next (failedBy s .divisionByZero (.mathMulStackLit 0)) ∧
    exec (.mathDivStackLit 0) s = .next (failedBy s .divisionByZero (.mathDivStackLit 0)))

/-- Every instruction with a register index not below `NREG` raises `DecodeError` before anything
else, on any stack and any address (decision D15 of the spec), and changes nothing but `err`. That
`exec` and not the byte decoder raises it is log 13. -/
def Obligations.RegisterOutOfRangeRaisesDecodeError : Prop :=
  ∀ (i : Instr) (s : State), i.wellFormed s.nreg = false →
    exec i s = .next (failedBy s .decodeError i)

/-- Every instruction that pops or peeks, `procedure_return` excepted, raises `StackUnderflow` on a stack
with too few values, before any later error (decision D15 of the spec), and keeps the values that are
there. `procedure_return` raises `ControlFlowError` first: `Obligations.ReturnErrors` says when it raises
which. -/
def Obligations.ShortStackRaisesStackUnderflow : Prop :=
  ∀ (i : Instr) (s : State), i.wellFormed s.nreg = true → s.stack.length < stackNeed i →
    exec i s = .next (failedBy s .stackUnderflow i)

/-- Every word instruction raises `MemoryOutOfBounds` exactly where its address fails `addr + 3 <
MEM_SIZE`, the sum over the naturals, and then changes nothing but `err`: nothing is popped, written or
loaded. In bounds, at any alignment, it records no error. -/
def Obligations.WordAccessBounds : Prop :=
  ∀ (s : State) (ra : RegIdx) (lit addr addr2 : Word), s.err = none → ra.toNat < s.nreg →
    (s.memSize ≤ addr.toNat + 3 →
      exec (.pushMem addr) s = .next (failedBy s .memoryOutOfBounds (.pushMem addr)) ∧
      (s.stack ≠ [] → exec (.popMemory addr) s = .next (failedBy s .memoryOutOfBounds (.popMemory addr))) ∧
      exec (.movMemReg ra addr) s = .next (failedBy s .memoryOutOfBounds (.movMemReg ra addr)) ∧
      exec (.movRegMem ra addr) s = .next (failedBy s .memoryOutOfBounds (.movRegMem ra addr)) ∧
      exec (.movLitMem lit addr) s = .next (failedBy s .memoryOutOfBounds (.movLitMem lit addr)) ∧
      exec (.movMemMem addr addr2) s = .next (failedBy s .memoryOutOfBounds (.movMemMem addr addr2)) ∧
      exec (.movMemMem addr2 addr) s = .next (failedBy s .memoryOutOfBounds (.movMemMem addr2 addr))) ∧
    (addr.toNat + 3 < s.memSize →
      (∃ t, exec (.pushMem addr) s = .next t ∧ t.err = none) ∧
      (s.stack ≠ [] → ∃ t, exec (.popMemory addr) s = .next t ∧ t.err = none) ∧
      (∃ t, exec (.movMemReg ra addr) s = .next t ∧ t.err = none) ∧
      (∃ t, exec (.movRegMem ra addr) s = .next t ∧ t.err = none) ∧
      (∃ t, exec (.movLitMem lit addr) s = .next t ∧ t.err = none) ∧
      (addr2.toNat + 3 < s.memSize → ∃ t, exec (.movMemMem addr addr2) s = .next t ∧ t.err = none))

/-- Errors are precise: an instruction that leaves an error where there was none has no other effect,
and the record names its opcode and `pc0` (decision D14 of the spec). -/
def Obligations.ErrorsArePrecise : Prop :=
  ∀ (i : Instr) (s t : State), s.err = none → exec i s = .next t → t.err ≠ none →
    ∃ k, t = failedBy s k i

/-- No instruction faults or is refused: every instruction, with any operands and in any state, answers
a next state. -/
def Obligations.EveryInstructionHasANextState : Prop :=
  ∀ (i : Instr) (s : State), ∃ t, exec i s = .next t

/-! ### Compares and flags -/

/-- The three compares write the four relational flags together, unsigned, and nothing else but `pc`:
operands, the stack (peeked), `overflow` and `stop` are unchanged. That the first register, or the top
of the stack, is the left operand is decision D4 of the spec (log 19). -/
def Obligations.CompareResult : Prop :=
  let compared (s : State) (n : Nat) (a b : Word) : State := { s with
    pc := s.pc + BitVec.ofNat 32 n
    flags := { s.flags with
      equal := decide (a.toNat = b.toNat)
      notEqual := decide (a.toNat ≠ b.toNat)
      greater := decide (a.toNat > b.toNat)
      smaller := decide (a.toNat < b.toNat) } }
  (∀ (s : State) (ra rb : RegIdx), ra.toNat < s.nreg → rb.toNat < s.nreg →
    exec (.compareRegReg ra rb) s = .next (compared s 3 (s.reg ra.toNat) (s.reg rb.toNat))) ∧
  (∀ (s : State) (ra : RegIdx) (lit : Word), ra.toNat < s.nreg →
    exec (.compareRegLit ra lit) s = .next (compared s 6 (s.reg ra.toNat) lit)) ∧
  (∀ (s : State) (lit a : Word) (rest : List Word), s.stack = a :: rest →
    exec (.compareStackLit lit) s = .next (compared s 5 a lit))

/-- After CMP exactly one of equal, greater, smaller is true and not_equal is the negation of equal;
the three outcomes are (1,0,0,0), (0,1,1,0) and (0,1,0,1). -/
def Obligations.CompareHasThreeOutcomes : Prop :=
  ∀ (s : State) (a b : Word),
    let f := (s.compare a b).flags
    f.notEqual = !f.equal ∧
    (a = b → (f.equal, f.notEqual, f.greater, f.smaller) = (true, false, false, false)) ∧
    (a.toNat > b.toNat → (f.equal, f.notEqual, f.greater, f.smaller) = (false, true, true, false)) ∧
    (a.toNat < b.toNat → (f.equal, f.notEqual, f.greater, f.smaller) = (false, true, false, true)) ∧
    (f.equal.toNat + f.greater.toNat + f.smaller.toNat = 1)

/-- `flag_reset`, the byte 0x63 of the default map (log 9), clears the five condition flags and leaves
`stop`, and changes nothing else but `pc`; a second one changes no flag; and none runs while `stop` is
set. -/
def Obligations.FlagResetClearsConditions : Prop :=
  encode OpMap.default .flagReset = [0x63] ∧
  (∀ s : State, exec .flagReset s = .next { s with
    pc := s.pc + 1
    flags := { equal := false, notEqual := false, greater := false, smaller := false,
               overflow := false, stop := s.flags.stop } }) ∧
  (∀ s t u : State, exec .flagReset s = .next t → exec .flagReset t = .next u → u.flags = t.flags) ∧
  (∀ s : State, s.configLegal = true → s.flags.stop = true → step s = .fault .stopped)

/-- Who writes which flag, over all 75 instructions: the relational flags only the three compares and
`flag_reset`; `overflow` only the add, sub, mul, inc, dec, pow instructions and `flag_reset`; `stop`
only `exit`, which only sets it. -/
def Obligations.FlagsHaveOnlyTheirWriters : Prop :=
  ∀ (i : Instr) (s t : State), exec i s = .next t →
    (writesRelational i = false →
      t.flags.equal = s.flags.equal ∧ t.flags.notEqual = s.flags.notEqual ∧
      t.flags.greater = s.flags.greater ∧ t.flags.smaller = s.flags.smaller) ∧
    (writesOverflow i = false → t.flags.overflow = s.flags.overflow) ∧
    (i ≠ .exit → t.flags.stop = s.flags.stop) ∧
    (i = .exit → t.flags.stop = true)

/-! ### Data movement -/

/-- `push_lit` whole, from its bytes: the opcode byte, 10 in the default map (log 9), and l3 l2 l1 l0 push
the big-endian literal, `len` grows by 1 and nothing else changes but `pc`; with fewer than four operand
bytes it is `DecodeError`. -/
def Obligations.PushLitFromItsBytes : Prop :=
  (∀ lit, (Instr.pushLit lit).opcode OpMap.default = 0x10) ∧
  ∀ (s : State) (op : Byte), s.configLegal = true → s.flags.stop = false → s.err = none →
    op = (Instr.pushLit 0).opcode s.opmap →
    (∀ l3 l2 l1 l0 rest,
      s.prog.drop (s.headerSize + s.pc.toNat) = op :: l3 :: l2 :: l1 :: l0 :: rest →
      step s = .next { s with
        pc := s.pc + 5
        stack := BitVec.ofNat 32 (l3.toNat * 16777216 + l2.toNat * 65536 + l1.toNat * 256 + l0.toNat)
          :: s.stack }) ∧
    (∀ rest, s.prog.drop (s.headerSize + s.pc.toNat) = op :: rest → rest.length < 4 →
      step s = .next (failed s .decodeError (some op)))

/-- `push_reg` whole, from its bytes: the opcode byte, 11 in the default map (log 9), and ra push the
register, which keeps its value; a missing byte and an index not below `NREG` are `DecodeError`. -/
def Obligations.PushRegFromItsBytes : Prop :=
  (∀ ra, (Instr.pushReg ra).opcode OpMap.default = 0x11) ∧
  ∀ (s : State) (op : Byte), s.configLegal = true → s.flags.stop = false → s.err = none →
    op = (Instr.pushReg 0).opcode s.opmap →
    (∀ ra rest, s.prog.drop (s.headerSize + s.pc.toNat) = op :: ra :: rest →
      (ra.toNat < s.nreg → step s = .next { s with pc := s.pc + 2, stack := s.reg ra.toNat :: s.stack }) ∧
      (s.nreg ≤ ra.toNat → step s = .next (failed s .decodeError (some op)))) ∧
    (s.prog.drop (s.headerSize + s.pc.toNat) = [op] →
      step s = .next (failed s .decodeError (some op)))

/-- The pushes, the pop into a register and `stack_dupe`: what each pushes or pops, no flag written,
everything else unchanged but `pc`. -/
def Obligations.StackMovementResult : Prop :=
  (∀ (s : State) (lit : Word), exec (.pushLit lit) s = .next (stackWritten s 5 (lit :: s.stack) none)) ∧
  (∀ (s : State) (ra : RegIdx), ra.toNat < s.nreg →
    exec (.pushReg ra) s = .next (stackWritten s 2 (s.reg ra.toNat :: s.stack) none)) ∧
  (∀ (s : State) (addr : Word), addr.toNat + 3 < s.memSize →
    exec (.pushMem addr) s = .next (stackWritten s 5 (wordAt s addr.toNat :: s.stack) none)) ∧
  (∀ (s : State) (ra : RegIdx) (v : Word) (rest : List Word), ra.toNat < s.nreg → s.stack = v :: rest →
    exec (.popReg ra) s =
      .next { s with pc := s.pc + 2, regs := s.regs.set ra.toNat v, stack := rest }) ∧
  (∀ (s : State) (v : Word) (rest : List Word), s.stack = v :: rest →
    exec .stackDupe s = .next (stackWritten s 1 (v :: v :: rest) none))

/-- The moves into a register: literal, register (first register the source, second the destination,
decision D4 of the spec) and big-endian word of RAM. -/
def Obligations.MovesIntoRegistersResult : Prop :=
  (∀ (s : State) (ra : RegIdx) (lit : Word), ra.toNat < s.nreg →
    exec (.movLitReg ra lit) s = .next (regWritten s 6 ra lit none)) ∧
  (∀ (s : State) (ra rb : RegIdx), ra.toNat < s.nreg → rb.toNat < s.nreg →
    exec (.movRegReg ra rb) s = .next (regWritten s 3 rb (s.reg ra.toNat) none)) ∧
  (∀ (s : State) (ra : RegIdx) (addr : Word), ra.toNat < s.nreg → addr.toNat + 3 < s.memSize →
    exec (.movMemReg ra addr) s = .next (regWritten s 6 ra (wordAt s addr.toNat) none))

/-- The four stores to RAM: the word stands big-endian at the instruction's address, every other byte
of RAM is unchanged, and nothing else changes but `pc` and, for `pop_memory`, the popped value. A copy
between overlapping words writes the source word as it was before. That `mov_mem_mem` has its source
address first is decisions D3 and D4 of the spec (log 19). The premise is the canonical form of RAM,
part of the invariant. -/
def Obligations.StoresWriteTheirWord : Prop :=
  ∀ s : State, Memory.wf s.mem = true →
    (∀ (addr v : Word) (rest : List Word), addr.toNat + 3 < s.memSize → s.stack = v :: rest →
      ∃ t, exec (.popMemory addr) s = .next t ∧ StoresWord s t 5 addr.toNat v rest) ∧
    (∀ (ra : RegIdx) (addr : Word), ra.toNat < s.nreg → addr.toNat + 3 < s.memSize →
      ∃ t, exec (.movRegMem ra addr) s = .next t ∧
        StoresWord s t 6 addr.toNat (s.reg ra.toNat) s.stack) ∧
    (∀ lit addr : Word, addr.toNat + 3 < s.memSize →
      ∃ t, exec (.movLitMem lit addr) s = .next t ∧ StoresWord s t 9 addr.toNat lit s.stack) ∧
    (∀ addr1 addr2 : Word, addr1.toNat + 3 < s.memSize → addr2.toNat + 3 < s.memSize →
      ∃ t, exec (.movMemMem addr1 addr2) s = .next t ∧
        StoresWord s t 9 addr2.toNat (wordAt s addr1.toNat) s.stack)

/-- MemRead and MemWrite of a word: out of bounds, `addr + 3 ≥ MEM_SIZE` with the sum over the naturals
(conflict C5 and decision D22 of the spec, log 19), they fail with `MemoryOutOfBounds`; in bounds a read
is the big-endian sum of the four bytes, and a write puts the four bytes there and changes no other
byte and no other state. -/
def Obligations.WordReadAndWriteAreBigEndian : Prop :=
  ∀ (s : State) (addr v : Word), Memory.wf s.mem = true →
    (s.memSize ≤ addr.toNat + 3 →
      s.memRead addr = .error .memoryOutOfBounds ∧ s.memWrite addr v = .error .memoryOutOfBounds) ∧
    (addr.toNat + 3 < s.memSize →
      s.memRead addr = .ok (wordAt s addr.toNat) ∧
      ∃ t, s.memWrite addr v = .ok t ∧ StoresWord s t 0 addr.toNat v s.stack)

/-- Only `pop_memory`, `mov_reg_mem`, `mov_lit_mem`, `mov_mem_mem` and `syscall` with selector 1 change
RAM. -/
def Obligations.MemoryHasOnlyItsWriters : Prop :=
  ∀ (i : Instr) (s t : State), exec i s = .next t → writesMemory s i = false → t.mem = s.mem

/-! ### Control flow -/

/-- `jump_absolute` always, and each conditional jump exactly when its own flag is set, sends `pc` to
the target, else to the next instruction; nothing else changes, flags included. A target is not
checked (decision D25 of the spec). -/
def Obligations.JumpResult : Prop :=
  (∀ (s : State) (addr : Word), exec (.jumpAbsolute addr) s = .next { s with pc := addr }) ∧
  (∀ J ∈ conditionalJumps, ∀ (s : State) (addr : Word),
    (J.2 s.flags = true → exec (J.1 addr) s = .next { s with pc := addr }) ∧
    (J.2 s.flags = false → exec (J.1 addr) s = .next { s with pc := s.pc + 5 }))

/-- `procedure_call`: the frame `x[0] x[1] x[2] x[3] pc0` is pushed in that order, `sbp` is the new
length, one more call is outstanding (decision D17 of the spec), `pc` is the target; no register, flag
or byte of RAM changes. -/
def Obligations.CallResult : Prop :=
  ∀ (s : State) (addr : Word), 4 ≤ s.nreg →
    exec (.procedureCall addr) s = .next { s with
      pc := addr
      stack := s.pc :: s.reg 3 :: s.reg 2 :: s.reg 1 :: s.reg 0 :: s.stack
      sbp := s.stack.length + 5
      cdepth := s.cdepth + 1 }

/-- `procedure_return` with a call outstanding and a whole frame at `sbp`: the locals above it are
discarded, registers 3, 2, 1, 0 are restored, `pc` is the saved value plus 5 mod 2^32, `sbp` is the new
length, one call fewer is outstanding; registers from 4 up, flags and RAM are unchanged. -/
def Obligations.ReturnResult : Prop :=
  ∀ (s : State) (locals rest : List Word) (saved r3 r2 r1 r0 : Word),
    4 ≤ s.nreg → s.cdepth ≠ 0 →
    s.stack = locals ++ saved :: r3 :: r2 :: r1 :: r0 :: rest → s.sbp = rest.length + 5 →
    exec .procedureReturn s = .next { s with
      pc := saved + 5
      regs := r0 :: r1 :: r2 :: r3 :: s.regs.drop 4
      stack := rest
      sbp := rest.length
      cdepth := s.cdepth - 1 }

/-- `procedure_return` fails, with nothing changed but `err`: `ControlFlowError` with no call
outstanding, whatever the stack; otherwise `StackUnderflow` when the stack is shorter than `sbp`, or
when `sbp` leaves fewer than five frame values (decisions D17, D18 of the spec). -/
def Obligations.ReturnErrors : Prop :=
  ∀ s : State,
    (s.cdepth = 0 → exec .procedureReturn s = .next (failedBy s .controlFlowError .procedureReturn)) ∧
    (s.cdepth ≠ 0 → s.stack.length < s.sbp →
      exec .procedureReturn s = .next (failedBy s .stackUnderflow .procedureReturn)) ∧
    (s.cdepth ≠ 0 → s.sbp ≤ s.stack.length → s.sbp < 5 →
      exec .procedureReturn s = .next (failedBy s .stackUnderflow .procedureReturn))

/-- Call, then any callee, then return: if the callee comes to its return with the frame of the call
still in place under its locals, and with `sbp` and `cdepth` as the call left them, the return gives
back registers 0 to 3, the stack and `cdepth` of before the call, leaves `sbp` at the stack length
before the call, and continues at the instruction after the call, whatever the callee did to registers,
RAM, flags and the stack above its frame. -/
def Obligations.CallThenReturnRestoresTheCaller : Prop :=
  ∀ (s t u : State) (addr : Word) (locals : List Word),
    4 ≤ s.nreg → exec (.procedureCall addr) s = .next t →
    u.regs.length = s.regs.length → u.stack = locals ++ t.stack → u.sbp = t.sbp → u.cdepth = t.cdepth →
    ∃ v, exec .procedureReturn u = .next v ∧
      v.reg 0 = s.reg 0 ∧ v.reg 1 = s.reg 1 ∧ v.reg 2 = s.reg 2 ∧ v.reg 3 = s.reg 3 ∧
      (∀ n, 4 ≤ n → v.reg n = u.reg n) ∧
      v.stack = s.stack ∧ v.sbp = s.stack.length ∧ v.cdepth = s.cdepth ∧
      v.pc = s.pc + 5 ∧ v.mem = u.mem ∧ v.flags = u.flags ∧ v.err = u.err

/-- The nested-call hazard: an inner call and its return, made while the outer procedure has whatever
stack it has, leave `sbp` at the stack length of the inner call, not at the outer frame's top; the outer
procedure's own return then takes its return address from the topmost stack value and registers 3 to 0
from the four below it, with no error, whatever those values are. -/
def Obligations.NestedCallLeavesTheInnerBase : Prop :=
  ∀ (s t u v : State) (addr saved r3 r2 r1 r0 : Word) (rest : List Word),
    4 ≤ s.nreg → s.cdepth ≠ 0 →
    exec (.procedureCall addr) s = .next t →
    u.regs.length = s.regs.length → u.stack = t.stack → u.sbp = t.sbp → u.cdepth = t.cdepth →
    exec .procedureReturn u = .next v →
    v.sbp = s.stack.length ∧ v.stack = s.stack ∧
    (s.stack = saved :: r3 :: r2 :: r1 :: r0 :: rest →
      ∃ w, exec .procedureReturn v = .next w ∧ w.err = v.err ∧ w.pc = saved + 5 ∧
        w.stack = rest ∧ w.reg 0 = r0 ∧ w.reg 1 = r1 ∧ w.reg 2 = r2 ∧ w.reg 3 = r3)

/-- `sbp`: 0 at construction; a call writes the post-push length; a return that completes pops down to
the length it reads there, then the frame, and writes the post-pop length; every other instruction
neither writes it nor reads it: with another value of `sbp` it does the same. -/
def Obligations.StackBaseIsCallAndReturnOnly : Prop :=
  (∀ p : Params, (State.construct p).sbp = 0) ∧
  (∀ (s t : State) (addr : Word), exec (.procedureCall addr) s = .next t → t.sbp = t.stack.length) ∧
  (∀ s t : State, s.err = none → exec .procedureReturn s = .next t → t.err = none →
    t.sbp = t.stack.length ∧ t.sbp + 5 = s.sbp) ∧
  (∀ (i : Instr) (s : State) (n : Nat), isCallOrReturn i = false →
    exec i { s with sbp := n } = mapNext (fun t => { t with sbp := n }) (exec i s))

/-- `cdepth` changes only by a call, which adds 1, and by a return that completes, which takes 1 away;
no other instruction reads or writes it (decision D17 of the spec). -/
def Obligations.CallDepthIsCallAndReturnOnly : Prop :=
  (∀ (s t : State) (addr : Word), exec (.procedureCall addr) s = .next t → t.cdepth = s.cdepth + 1) ∧
  (∀ s t : State, s.err = none → exec .procedureReturn s = .next t → t.err = none →
    s.cdepth = t.cdepth + 1) ∧
  (∀ (i : Instr) (s : State) (n : Nat), isCallOrReturn i = false →
    exec i { s with cdepth := n } = mapNext (fun t => { t with cdepth := n }) (exec i s))

/-! ### Syscall, nop, exit -/

/-- Selector 0 with an empty range or one inside RAM: one `WriteChar` request for each byte from `x[1]`
up, in ascending order, nothing else changed but `pc`. -/
def Obligations.SyscallWriteResult : Prop :=
  ∀ s : State, s.reg 0 = 0 →
    ((s.reg 2).toNat = 0 ∨ (s.reg 1).toNat + (s.reg 2).toNat ≤ s.memSize) →
    ∃ reqs : List HostRequest, exec .syscall s = .next { s with pc := s.pc + 1, trace := s.trace ++ reqs } ∧
      reqs.length = (s.reg 2).toNat ∧
      ∀ k, k < (s.reg 2).toNat → reqs[k]? = some (.writeChar (s.readByte ((s.reg 1).toNat + k)))

/-- Selector 1 with an empty range or one inside RAM: one `ReadLine` request of size `x[2]`; the host's
answer, of some length at most `x[2]`, stands in RAM from `x[1]` up, every other byte of RAM is
unchanged, and nothing else changes but `pc` and the model's counter of draws (log 7). The answer is a
free value (log 6). -/
def Obligations.SyscallReadResult : Prop :=
  ∀ s : State, Memory.wf s.mem = true → s.reg 0 = 1 →
    ((s.reg 2).toNat = 0 ∨ (s.reg 1).toNat + (s.reg 2).toNat ≤ s.memSize) →
    ∃ (data : List Byte) (t : State), exec .syscall s = .next t ∧ data.length ≤ (s.reg 2).toNat ∧
      (∀ k, k < data.length → some (t.readByte ((s.reg 1).toNat + k)) = data[k]?) ∧
      (∀ a, a < (s.reg 1).toNat ∨ (s.reg 1).toNat + data.length ≤ a → t.readByte a = s.readByte a) ∧
      t = { s with
        pc := s.pc + 1
        mem := t.mem
        trace := s.trace ++ [.readLine (s.reg 2) data]
        draws := s.draws + 1 }

/-- Selector 2: one `ClearTerminal` request and no other (no fallthrough, decision D19 of the spec,
log 19), no core state other than `pc` changed, `x[1]` and `x[2]` not read, no error. -/
def Obligations.SyscallClearResult : Prop :=
  ∀ s : State, s.reg 0 = 2 →
    exec .syscall s = .next { s with pc := s.pc + 1, trace := s.trace ++ [.clearTerminal] }

/-- Selector 3 places one `WriteDecimal` request for `x[1]`; a selector of 4 or more, compared as 32
bits, changes nothing but `pc` and places no request (decision D20 of the spec). -/
def Obligations.SyscallDecimalAndUnknownSelectors : Prop :=
  ∀ s : State,
    (s.reg 0 = 3 →
      exec .syscall s = .next { s with pc := s.pc + 1, trace := s.trace ++ [.writeDecimal (s.reg 1)] }) ∧
    (4 ≤ (s.reg 0).toNat → exec .syscall s = .next (advanced s 1))

/-- Selectors 0 and 1 with a non-empty range that leaves RAM, the sum over the naturals, raise
`MemoryOutOfBounds` before the host is asked: no request, no byte, nothing changed but `err` (decision
D20 of the spec). -/
def Obligations.SyscallRangeErrors : Prop :=
  ∀ s : State, (s.reg 0 = 0 ∨ s.reg 0 = 1) → 0 < (s.reg 2).toNat →
    s.memSize < (s.reg 1).toNat + (s.reg 2).toNat →
    exec .syscall s = .next (failedBy s .memoryOutOfBounds .syscall)

/-- Only `syscall` and the two rand instructions place requests or draw answers, and no instruction
takes a request back: the trace only grows at its end. -/
def Obligations.OnlySyscallAndRandReachTheHost : Prop :=
  ∀ (i : Instr) (s t : State), exec i s = .next t →
    (∃ reqs, t.trace = s.trace ++ reqs) ∧
    (asksHost i = false → t.trace = s.trace ∧ t.draws = s.draws)

/-- `nop` changes nothing but `pc` and places no request (decision D26 of the spec, log 18); `exit`
sets `stop`, changes nothing else but `pc`, which is past it (decision D16 of the spec), and stops the
core cleanly. -/
def Obligations.NopAndExitResult : Prop :=
  (∀ s : State, exec .nop s = .next { s with pc := s.pc + 1 }) ∧
  (∀ s : State, exec .exit s = .next { s with pc := s.pc + 1, flags := { s.flags with stop := true } }) ∧
  (∀ s t : State, s.configLegal = true → s.err = none → exec .exit s = .next t →
    t.cleanStop = true ∧ step t = .fault .stopped)

/-! ### The whole machine -/

/-- The invariant holds at every next state of a state that has it: the configuration stays legal, RAM
stays canonical and inside `MEM_SIZE`, the relational flags stay a compare's outcome or all clear, a
clean stop and an error exclude each other, an error record names the opcode byte at `pc`, and the
host's answers are counted and fit their sizes. -/
def Obligations.StepKeepsTheInvariant : Prop :=
  ∀ s t : State, s.Inv → step s = .next t → t.Inv

/-- The invariant holds after reset: after construction with any parameters that meet the constraints
of R8, whatever program they hold, and at `State.reset`, which is construction with the parameters of
log 1. -/
def Obligations.ResetHasTheInvariant : Prop :=
  (∀ p : Params, 4 ≤ p.nreg → p.nreg ≤ 256 → p.memSize ≤ 4294967296 →
    p.headerSize ≤ p.prog.length → p.opmap.length = 75 → p.opmap.Nodup →
    (State.construct p).Inv) ∧
  State.reset.Inv

/-- After construction with any legal parameters the registers, flags, `pc`, `sbp` and `cdepth` are 0,
the stack is empty, no error is recorded, and RAM holds the initial bytes and zero elsewhere. The zeros
other than `sbp` are decisions D10, D11, D14, D17 of the spec (logs 2 and 3). -/
def Obligations.ConstructionValues : Prop :=
  ∀ p : Params, p.memInit.length ≤ p.memSize →
    let s := State.construct p
    s.pc = 0 ∧ s.nreg = p.nreg ∧ (∀ n, s.reg n = 0) ∧ s.stack = [] ∧ s.flags = Flags.clear ∧
    s.sbp = 0 ∧ s.cdepth = 0 ∧ s.err = none ∧ s.run = .running ∧ s.prog = p.prog ∧ s.opmap = p.opmap ∧
    s.headerSize = p.headerSize ∧ s.memSize = p.memSize ∧
    (∀ a, s.readByte a = p.memInit.getD a 0)

/-- The header size, the buffer and the opcode map are constants that no instruction writes and none
reads as data: with another buffer and another header size every instruction does the same, and with
another map it does the same but for the opcode byte in the record of an error it raises. `code(pc + k)`
is the byte at index `H + pc + k` of the buffer. -/
def Obligations.BufferAndHeaderAreNotData : Prop :=
  (∀ (i : Instr) (s t : State), exec i s = .next t →
    t.prog = s.prog ∧ t.headerSize = s.headerSize ∧ t.opmap = s.opmap ∧ t.memSize = s.memSize ∧
    t.nreg = s.nreg) ∧
  (∀ (i : Instr) (s : State) (p : List Byte) (h : Nat),
    exec i { s with prog := p, headerSize := h } =
      mapNext (fun t => { t with prog := p, headerSize := h }) (exec i s)) ∧
  (∀ (i : Instr) (s : State) (m : OpMap), s.err = none →
    exec i { s with opmap := m } =
      mapNext (fun t => { t with
        opmap := m
        err := t.err.map fun e => { e with opcode := some (i.opcode m) } }) (exec i s)) ∧
  (∀ (s : State) (k : Nat), s.stream[k]? = s.prog[s.headerSize + s.pc.toNat + k]?)

/-- `pc` after an instruction that records no error: `next` for every instruction that is not a jump, a
call or a return. -/
def Obligations.ProgramCounterAdvancesByTheLength : Prop :=
  ∀ (i : Instr) (s t : State), s.err = none → exec i s = .next t → t.err = none →
    isCallOrReturn i = false → (∀ addr, i ≠ .jumpAbsolute addr) →
    (∀ J ∈ conditionalJumps, ∀ addr, i ≠ J.1 addr) →
    t.pc.toNat = (s.pc.toNat + (encode s.opmap i).length) % 4294967296

/-- push, pop and peek on the operand stack: push appends and the length grows by 1, pop removes and
returns the last value pushed, peek returns it and leaves the stack, and the two fail on an empty
stack. -/
def Obligations.OperandStackIsLastInFirstOut : Prop :=
  ∀ (s : State) (v : Word),
    s.len = s.stack.length ∧
    (s.push v).len = s.len + 1 ∧
    (s.push v).pop = .ok (v, s) ∧
    (s.push v).peek = .ok v ∧
    (∀ w t, s.pop = .ok (w, t) → s.peek = .ok w ∧ s.len = t.len + 1 ∧ t.push w = s) ∧
    (s.len = 0 → s.pop = .error .stackUnderflow ∧ s.peek = .error .stackUnderflow) ∧
    (s.len ≠ 0 → ∃ w t, s.pop = .ok (w, t))
end

