-- ==== Sys2Proof/Laws/Bytes.lean ====
section
/-! SUPPORT. Words and their four bytes: the two directions of the byte order (`30_encoding.md` R72). -/

namespace Sys2Proof

theorem wordOfBytes_toNat (b3 b2 b1 b0 : Byte) :
    (wordOfBytes b3 b2 b1 b0).toNat =
      b3.toNat * 16777216 + b2.toNat * 65536 + b1.toNat * 256 + b0.toNat := by
  have := b3.isLt; have := b2.isLt; have := b1.isLt; have := b0.isLt
  rw [wordOfBytes, BitVec.toNat_ofNat]
  exact Nat.mod_eq_of_lt (by omega)

@[simp] theorem byte3_wordOfBytes (b3 b2 b1 b0 : Byte) : byte3 (wordOfBytes b3 b2 b1 b0) = b3 := by
  apply BitVec.eq_of_toNat_eq
  rw [byte3, BitVec.toNat_ofNat, wordOfBytes_toNat]
  have := b3.isLt; have := b2.isLt; have := b1.isLt; have := b0.isLt
  omega

@[simp] theorem byte2_wordOfBytes (b3 b2 b1 b0 : Byte) : byte2 (wordOfBytes b3 b2 b1 b0) = b2 := by
  apply BitVec.eq_of_toNat_eq
  rw [byte2, BitVec.toNat_ofNat, wordOfBytes_toNat]
  have := b3.isLt; have := b2.isLt; have := b1.isLt; have := b0.isLt
  omega

@[simp] theorem byte1_wordOfBytes (b3 b2 b1 b0 : Byte) : byte1 (wordOfBytes b3 b2 b1 b0) = b1 := by
  apply BitVec.eq_of_toNat_eq
  rw [byte1, BitVec.toNat_ofNat, wordOfBytes_toNat]
  have := b3.isLt; have := b2.isLt; have := b1.isLt; have := b0.isLt
  omega

@[simp] theorem byte0_wordOfBytes (b3 b2 b1 b0 : Byte) : byte0 (wordOfBytes b3 b2 b1 b0) = b0 := by
  apply BitVec.eq_of_toNat_eq
  rw [byte0, BitVec.toNat_ofNat, wordOfBytes_toNat]
  have := b3.isLt; have := b2.isLt; have := b1.isLt; have := b0.isLt
  omega

@[simp] theorem wordOfBytes_bytes (v : Word) : wordOfBytes (byte3 v) (byte2 v) (byte1 v) (byte0 v) = v := by
  apply BitVec.eq_of_toNat_eq
  rw [wordOfBytes_toNat, byte3, byte2, byte1, byte0]
  simp only [BitVec.toNat_ofNat]
  have := v.isLt
  omega

@[simp] theorem bytesOfWord_length (v : Word) : (bytesOfWord v).length = 4 := rfl

/-- `FetchLit` undoes the encoding of a literal. -/
@[simp] theorem takeLit_bytesOfWord (v : Word) (rest : List Byte) :
    takeLit (bytesOfWord v ++ rest) = some (v, rest) := by
  simp [bytesOfWord, takeLit]

/-- What `FetchLit` can answer: the four bytes it consumed are its value's bytes. -/
theorem takeLit_some {bs rest : List Byte} {v : Word} (h : takeLit bs = some (v, rest)) :
    bs = bytesOfWord v ++ rest := by
  match bs, h with
  | b3 :: b2 :: b1 :: b0 :: tail, h =>
    simp only [takeLit, Option.some.injEq, Prod.mk.injEq] at h
    obtain ⟨rfl, rfl⟩ := h
    simp [bytesOfWord]

@[simp] theorem takeReg_cons (r : RegIdx) (rest : List Byte) : takeReg (r :: rest) = some (r, rest) := rfl

/-- What `FetchReg` can answer: the byte it consumed. -/
theorem takeReg_some {bs rest : List Byte} {r : RegIdx} (h : takeReg bs = some (r, rest)) :
    bs = r :: rest := by
  match bs, h with
  | b :: tail, h =>
    simp only [takeReg, Option.some.injEq, Prod.mk.injEq] at h
    obtain ⟨rfl, rfl⟩ := h
    rfl

end Sys2Proof
end

