-- ==== Sys2Proof/Laws/Memory.lean ====
section
/-! SUPPORT. RAM: every operation keeps the canonical form and the bound, a read after a write gives
the value written, and a write leaves every other address alone. -/

namespace Sys2Proof.Machine

theorem Memory.wf_cons {k : Nat} {b : Byte} {m : Memory} :
    Memory.wf ((k, b) :: m) = true ↔
      b ≠ Config.unlistedByte ∧ (∀ c ∈ m, k < c.1) ∧ Memory.wf m = true := by
  simp [Memory.wf, and_assoc]

/-- Below the first listed address nothing is listed. -/
theorem Memory.read_below {m : Memory} {a : Nat} (h : ∀ c ∈ m, a < c.1) :
    Memory.read m a = Config.unlistedByte := by
  induction m with
  | nil => rfl
  | cons c m ih =>
    obtain ⟨k, b⟩ := c
    have hk : a < k := h (k, b) (by simp)
    simp only [Memory.read]
    rw [if_neg (by omega), ih fun c hc => h c (by simp [hc])]

theorem Memory.mem_consCell {a : Nat} {v : Byte} {m : Memory} {c : Host.Cell}
    (h : c ∈ Memory.consCell a v m) : c = (a, v) ∨ c ∈ m := by
  unfold Memory.consCell at h
  split at h
  · exact .inr h
  · simpa using h

/-- A write lists no address but its own and those listed before. -/
theorem Memory.mem_write {m : Memory} {a : Nat} {v : Byte} {c : Host.Cell}
    (h : c ∈ Memory.write a v m) : c = (a, v) ∨ c ∈ m := by
  induction m with
  | nil => exact Memory.mem_consCell h
  | cons d m ih =>
    obtain ⟨k, b⟩ := d
    simp only [Memory.write] at h
    split at h
    · exact Memory.mem_consCell h
    · split at h
      · rcases Memory.mem_consCell h with h | h
        · exact .inl h
        · exact .inr (by simp [h])
      · rcases List.mem_cons.1 h with h | h
        · exact .inr (by simp [h])
        · rcases ih h with h | h
          · exact .inl h
          · exact .inr (by simp [h])

theorem Memory.wf_consCell {a : Nat} {v : Byte} {m : Memory} (hm : Memory.wf m = true)
    (h : ∀ c ∈ m, a < c.1) : Memory.wf (Memory.consCell a v m) = true := by
  unfold Memory.consCell
  split
  · exact hm
  · exact Memory.wf_cons.2 ⟨‹_›, h, hm⟩

/-- Writing a byte keeps the canonical form. -/
theorem Memory.wf_write {m : Memory} (a : Nat) (v : Byte) (hm : Memory.wf m = true) :
    Memory.wf (Memory.write a v m) = true := by
  induction m with
  | nil => exact Memory.wf_consCell rfl (by simp)
  | cons d m ih =>
    obtain ⟨k, b⟩ := d
    obtain ⟨hb, hk, hw⟩ := Memory.wf_cons.1 hm
    simp only [Memory.write]
    split
    · rename_i hlt
      refine Memory.wf_consCell hm fun c hc => ?_
      rcases List.mem_cons.1 hc with rfl | hc
      · exact hlt
      · exact lt_trans hlt (hk c hc)
    · split
      · rename_i heq
        exact Memory.wf_consCell hw fun c hc => heq ▸ hk c hc
      · refine Memory.wf_cons.2 ⟨hb, fun c hc => ?_, ih hw⟩
        rcases Memory.mem_write hc with rfl | hc
        · show k < a
          omega
        · exact hk c hc

/-- Writing a byte below `size` keeps every listed address below `size`. -/
theorem Memory.within_write {m : Memory} {size a : Nat} (v : Byte) (ha : a < size)
    (hm : Memory.within size m = true) : Memory.within size (Memory.write a v m) = true := by
  simp only [Memory.within, List.all_eq_true, decide_eq_true_eq] at hm ⊢
  intro c hc
  rcases Memory.mem_write hc with rfl | hc
  · exact ha
  · exact hm c hc

theorem Memory.read_consCell_other {m : Memory} {a a' : Nat} (v : Byte) (h : a' ≠ a) :
    Memory.read (Memory.consCell a v m) a' = Memory.read m a' := by
  unfold Memory.consCell
  split
  · rfl
  · simp [Memory.read, h]

/-- A write leaves every other address alone. -/
theorem Memory.read_write_other (m : Memory) {a a' : Nat} (v : Byte) (h : a' ≠ a) :
    Memory.read (Memory.write a v m) a' = Memory.read m a' := by
  induction m with
  | nil => exact Memory.read_consCell_other v h
  | cons d m ih =>
    obtain ⟨k, b⟩ := d
    simp only [Memory.write]
    split
    · exact Memory.read_consCell_other v h
    · split
      · rename_i heq
        rw [Memory.read_consCell_other v h]
        simp [Memory.read, heq ▸ h]
      · simp only [Memory.read, ih]

theorem Memory.read_consCell_same {m : Memory} {a : Nat} (v : Byte) (h : ∀ c ∈ m, a < c.1) :
    Memory.read (Memory.consCell a v m) a = v := by
  unfold Memory.consCell
  split
  · rename_i hv
    rw [Memory.read_below h, hv]
  · simp [Memory.read]

/-- A read after a write gives the value written. -/
theorem Memory.read_write_same {m : Memory} (a : Nat) (v : Byte) (hm : Memory.wf m = true) :
    Memory.read (Memory.write a v m) a = v := by
  induction m with
  | nil => exact Memory.read_consCell_same v (by simp)
  | cons d m ih =>
    obtain ⟨k, b⟩ := d
    obtain ⟨_, hk, hw⟩ := Memory.wf_cons.1 hm
    simp only [Memory.write]
    split
    · rename_i hlt
      refine Memory.read_consCell_same v fun c hc => ?_
      rcases List.mem_cons.1 hc with rfl | hc
      · exact hlt
      · exact lt_trans hlt (hk c hc)
    · split
      · rename_i heq
        exact Memory.read_consCell_same v fun c hc => heq ▸ hk c hc
      · rename_i hne
        simp only [Memory.read, if_neg hne, ih hw]

/-! ### Byte strings and words -/

theorem Memory.wf_writeBytes (bs : List Byte) (a : Nat) {m : Memory} (hm : Memory.wf m = true) :
    Memory.wf (Memory.writeBytes a bs m) = true := by
  induction bs generalizing a m with
  | nil => exact hm
  | cons b bs ih => exact ih (a + 1) (Memory.wf_write a b hm)

theorem Memory.within_writeBytes {size : Nat} (bs : List Byte) (a : Nat) {m : Memory}
    (h : bs = [] ∨ a + bs.length ≤ size) (hm : Memory.within size m = true) :
    Memory.within size (Memory.writeBytes a bs m) = true := by
  induction bs generalizing a m with
  | nil => exact hm
  | cons b bs ih =>
    have hle : a + (bs.length + 1) ≤ size := by simpa using h
    exact ih (a + 1) (.inr (by omega)) (Memory.within_write b (by omega) hm)

/-- A byte string leaves every address outside it alone. -/
theorem Memory.read_writeBytes_other (bs : List Byte) (a : Nat) (m : Memory) {a' : Nat}
    (h : a' < a ∨ a + bs.length ≤ a') :
    Memory.read (Memory.writeBytes a bs m) a' = Memory.read m a' := by
  induction bs generalizing a m with
  | nil => rfl
  | cons b bs ih =>
    simp only [List.length_cons] at h
    simp only [Memory.writeBytes]
    rw [ih (a + 1) _ (by omega), Memory.read_write_other _ _ (by omega)]

/-- A byte string stands where it was written. -/
theorem Memory.read_writeBytes_same (bs : List Byte) (a : Nat) {m : Memory} (hm : Memory.wf m = true)
    {k : Nat} (hk : k < bs.length) :
    Memory.read (Memory.writeBytes a bs m) (a + k) = bs[k] := by
  induction bs generalizing a m k with
  | nil => simp at hk
  | cons b bs ih =>
    simp only [Memory.writeBytes]
    cases k with
    | zero =>
      rw [Memory.read_writeBytes_other _ _ _ (by omega)]
      exact Memory.read_write_same a b hm
    | succ k =>
      have := ih (a + 1) (Memory.wf_write a b hm) (k := k) (by simpa using hk)
      rw [show a + (k + 1) = a + 1 + k by omega, this]
      rfl

@[simp] theorem Memory.readBytes_length (m : Memory) (a n : Nat) : (Memory.readBytes m a n).length = n := by
  simp [Memory.readBytes]

theorem Memory.wf_writeWord (a : Nat) (v : Word) {m : Memory} (hm : Memory.wf m = true) :
    Memory.wf (Memory.writeWord a v m) = true := Memory.wf_writeBytes _ _ hm

theorem Memory.within_writeWord {size a : Nat} (v : Word) {m : Memory} (h : a + 3 < size)
    (hm : Memory.within size m = true) : Memory.within size (Memory.writeWord a v m) = true :=
  Memory.within_writeBytes _ _ (.inr (by simp; omega)) hm

theorem Memory.read_writeWord_other (m : Memory) (a : Nat) (v : Word) {a' : Nat}
    (h : a' < a ∨ a + 3 < a') : Memory.read (Memory.writeWord a v m) a' = Memory.read m a' :=
  Memory.read_writeBytes_other _ _ _ (by simp; omega)

/-- The four bytes of a word after it was written. -/
theorem Memory.read_writeWord_same (a : Nat) (v : Word) {m : Memory} (hm : Memory.wf m = true) :
    Memory.read (Memory.writeWord a v m) a = byte3 v ∧
    Memory.read (Memory.writeWord a v m) (a + 1) = byte2 v ∧
    Memory.read (Memory.writeWord a v m) (a + 2) = byte1 v ∧
    Memory.read (Memory.writeWord a v m) (a + 3) = byte0 v :=
  ⟨Memory.read_writeBytes_same (bytesOfWord v) a hm (k := 0) (by simp),
   Memory.read_writeBytes_same (bytesOfWord v) a hm (k := 1) (by simp),
   Memory.read_writeBytes_same (bytesOfWord v) a hm (k := 2) (by simp),
   Memory.read_writeBytes_same (bytesOfWord v) a hm (k := 3) (by simp)⟩

/-- A word read where it was written is the word. -/
theorem Memory.readWord_writeWord (a : Nat) (v : Word) {m : Memory} (hm : Memory.wf m = true) :
    Memory.readWord (Memory.writeWord a v m) a = v := by
  obtain ⟨h3, h2, h1, h0⟩ := Memory.read_writeWord_same a v hm
  simp [Memory.readWord, h3, h2, h1, h0]

theorem Memory.wf_ofInit (size : Nat) (bytes : List Byte) : Memory.wf (Memory.ofInit size bytes) = true :=
  Memory.wf_writeBytes _ _ rfl

theorem Memory.within_ofInit (size : Nat) (bytes : List Byte) :
    Memory.within size (Memory.ofInit size bytes) = true :=
  Memory.within_writeBytes _ _ (.inr (by simp)) rfl

end Sys2Proof.Machine
end

