-- ==== Sys2Proof/Laws/OpMap.lean ====
section
/-! SUPPORT. Opcode maps: what `legal` says, and what a map's lookup finds (`30_encoding.md` R75). -/

namespace Sys2Proof

/-- The bit test finds exactly the maps without a repeated byte and without one of those seen. -/
theorem OpMap.distinct_iff (m : OpMap) (seen : Nat) :
    m.distinct seen = true ↔ m.Nodup ∧ ∀ b ∈ m, seen.testBit b.toNat = false := by
  induction m generalizing seen with
  | nil => simp [OpMap.distinct]
  | cons b m ih =>
    simp only [OpMap.distinct, Bool.and_eq_true, Bool.not_eq_true', ih, Nat.testBit_or, Bool.or_eq_false_iff,
      Nat.testBit_two_pow, decide_eq_false_iff_not, List.nodup_cons, List.forall_mem_cons]
    constructor
    · rintro ⟨hb, hm, h⟩
      exact ⟨⟨fun hc => (h b hc).2 rfl, hm⟩, hb, fun c hc => (h c hc).1⟩
    · rintro ⟨⟨hb, hm⟩, hs, h⟩
      exact ⟨hs, hm, fun c hc => ⟨h c hc, fun he => hb (BitVec.eq_of_toNat_eq he ▸ hc)⟩⟩

/-- A legal map is an injective map of the 75 instructions. -/
theorem OpMap.legal_iff {m : OpMap} : m.legal = true ↔ m.length = 75 ∧ m.Nodup := by
  simp [OpMap.legal, OpMap.distinct_iff]

theorem OpMap.default_legal : OpMap.default.legal = true := by decide

theorem shapes_length : shapes.length = 75 := rfl

theorem Instr.row_lt (i : Instr) : i.row < 75 := by
  cases i <;> simp [Instr.row]

/-- Under a map with a byte for each row, an instruction's opcode is that of its row. -/
theorem Instr.getElem?_row {m : OpMap} (h : m.length = 75) (i : Instr) :
    m[i.row]? = some (i.opcode m) := by
  have hi : i.row < m.length := h ▸ i.row_lt
  simp [Instr.opcode, List.getD, hi]

/-- In lists without a repeated key, a lookup finds what stands at the key's place. -/
theorem lookup_zip {α β : Type} [BEq α] [LawfulBEq α] {ks : List α} {vs : List β} (hk : ks.Nodup)
    {n : Nat} {k : α} {v : β} (h1 : ks[n]? = some k) (h2 : vs[n]? = some v) :
    (ks.zip vs).lookup k = some v := by
  induction ks generalizing vs n with
  | nil => simp at h1
  | cons a ks ih =>
    cases vs with
    | nil => simp at h2
    | cons b vs =>
      cases n with
      | zero => simp_all
      | succ n =>
        simp only [List.getElem?_cons_succ] at h1 h2
        have hne : (k == a) = false := by
          simp only [beq_eq_false_iff_ne, ne_eq]
          rintro rfl
          exact (List.nodup_cons.1 hk).1 (List.mem_of_getElem? h1)
        simp only [List.zip_cons_cons, List.lookup_cons, hne]
        exact ih (List.nodup_cons.1 hk).2 h1 h2

/-- What a lookup finds stands at one place with its key. -/
theorem lookup_zip_some {α β : Type} [BEq α] [LawfulBEq α] {ks : List α} {vs : List β} {k : α} {v : β}
    (h : (ks.zip vs).lookup k = some v) : ∃ n : Nat, ks[n]? = some k ∧ vs[n]? = some v := by
  obtain ⟨l₁, l₂, he, -⟩ := List.lookup_eq_some_iff.1 h
  have hm : (k, v) ∈ ks.zip vs := by simp [he]
  obtain ⟨n, hn⟩ := List.mem_iff_getElem?.1 hm
  exact ⟨n, List.getElem?_zip_eq_some.1 hn⟩

/-- A legal map's byte for an instruction selects the shape of the instruction's row. -/
theorem shapeOf_opcode {m : OpMap} (hm : m.legal = true) (i : Instr) :
    shapeOf m (i.opcode m) = shapes[i.row]? := by
  obtain ⟨hl, hn⟩ := OpMap.legal_iff.1 hm
  have hi : i.row < shapes.length := i.row_lt
  rw [List.getElem?_eq_getElem hi]
  exact lookup_zip hn (Instr.getElem?_row hl i) (List.getElem?_eq_getElem hi)

/-- A byte selects a shape only from the row where the map has it. -/
theorem shapeOf_eq_some {m : OpMap} {op : Byte} {shape : Shape} (h : shapeOf m op = some shape) :
    ∃ n : Nat, m[n]? = some op ∧ shapes[n]? = some shape := lookup_zip_some h

/-- A byte selects nothing exactly where a map of the 75 instructions does not have it. -/
theorem shapeOf_eq_none {m : OpMap} (hm : m.length = 75) {op : Byte} :
    shapeOf m op = none ↔ op ∉ m := by
  rw [shapeOf, List.lookup_eq_none_iff]
  constructor
  · intro h hc
    obtain ⟨n, hn⟩ := List.mem_iff_getElem?.1 hc
    have hlt : n < m.length := (List.getElem?_eq_some_iff.1 hn).1
    have hs : n < shapes.length := by rw [shapes_length]; omega
    have := h (op, shapes[n]) (List.mem_iff_getElem?.2 ⟨n, List.getElem?_zip_eq_some.2
      ⟨hn, List.getElem?_eq_getElem hs⟩⟩)
    simp at this
  · rintro h ⟨k, v⟩ hp
    have : k ∈ m := (List.of_mem_zip hp).1
    simp only [bne_iff_ne, ne_eq]
    rintro rfl
    exact h this

end Sys2Proof
end

