-- ==== Sys2Proof/Laws/State.lean ====
section
/-! SUPPORT. One lemma per field per update of the state, so that no later proof unfolds one. -/

namespace Sys2Proof.Machine

section
variable (s : State) (n : Nat) (v : Word)
@[simp] theorem State.setReg_pc : (s.setReg n v).pc = s.pc := rfl
@[simp] theorem State.setReg_headerSize : (s.setReg n v).headerSize = s.headerSize := rfl
@[simp] theorem State.setReg_prog : (s.setReg n v).prog = s.prog := rfl
@[simp] theorem State.setReg_opmap : (s.setReg n v).opmap = s.opmap := rfl
@[simp] theorem State.setReg_regs : (s.setReg n v).regs = s.regs.set n v := rfl
@[simp] theorem State.setReg_stack : (s.setReg n v).stack = s.stack := rfl
@[simp] theorem State.setReg_memSize : (s.setReg n v).memSize = s.memSize := rfl
@[simp] theorem State.setReg_mem : (s.setReg n v).mem = s.mem := rfl
@[simp] theorem State.setReg_flags : (s.setReg n v).flags = s.flags := rfl
@[simp] theorem State.setReg_sbp : (s.setReg n v).sbp = s.sbp := rfl
@[simp] theorem State.setReg_cdepth : (s.setReg n v).cdepth = s.cdepth := rfl
@[simp] theorem State.setReg_err : (s.setReg n v).err = s.err := rfl
@[simp] theorem State.setReg_trace : (s.setReg n v).trace = s.trace := rfl
@[simp] theorem State.setReg_draws : (s.setReg n v).draws = s.draws := rfl
end

section
variable (s : State) (t : Word)
@[simp] theorem State.setPc_pc : (s.setPc t).pc = t := rfl
@[simp] theorem State.setPc_headerSize : (s.setPc t).headerSize = s.headerSize := rfl
@[simp] theorem State.setPc_prog : (s.setPc t).prog = s.prog := rfl
@[simp] theorem State.setPc_opmap : (s.setPc t).opmap = s.opmap := rfl
@[simp] theorem State.setPc_regs : (s.setPc t).regs = s.regs := rfl
@[simp] theorem State.setPc_stack : (s.setPc t).stack = s.stack := rfl
@[simp] theorem State.setPc_memSize : (s.setPc t).memSize = s.memSize := rfl
@[simp] theorem State.setPc_mem : (s.setPc t).mem = s.mem := rfl
@[simp] theorem State.setPc_flags : (s.setPc t).flags = s.flags := rfl
@[simp] theorem State.setPc_sbp : (s.setPc t).sbp = s.sbp := rfl
@[simp] theorem State.setPc_cdepth : (s.setPc t).cdepth = s.cdepth := rfl
@[simp] theorem State.setPc_err : (s.setPc t).err = s.err := rfl
@[simp] theorem State.setPc_trace : (s.setPc t).trace = s.trace := rfl
@[simp] theorem State.setPc_draws : (s.setPc t).draws = s.draws := rfl
end

section
variable (s : State) (f : Flags)
@[simp] theorem State.setFlags_pc : (s.setFlags f).pc = s.pc := rfl
@[simp] theorem State.setFlags_headerSize : (s.setFlags f).headerSize = s.headerSize := rfl
@[simp] theorem State.setFlags_prog : (s.setFlags f).prog = s.prog := rfl
@[simp] theorem State.setFlags_opmap : (s.setFlags f).opmap = s.opmap := rfl
@[simp] theorem State.setFlags_regs : (s.setFlags f).regs = s.regs := rfl
@[simp] theorem State.setFlags_stack : (s.setFlags f).stack = s.stack := rfl
@[simp] theorem State.setFlags_memSize : (s.setFlags f).memSize = s.memSize := rfl
@[simp] theorem State.setFlags_mem : (s.setFlags f).mem = s.mem := rfl
@[simp] theorem State.setFlags_flags : (s.setFlags f).flags = f := rfl
@[simp] theorem State.setFlags_sbp : (s.setFlags f).sbp = s.sbp := rfl
@[simp] theorem State.setFlags_cdepth : (s.setFlags f).cdepth = s.cdepth := rfl
@[simp] theorem State.setFlags_err : (s.setFlags f).err = s.err := rfl
@[simp] theorem State.setFlags_trace : (s.setFlags f).trace = s.trace := rfl
@[simp] theorem State.setFlags_draws : (s.setFlags f).draws = s.draws := rfl
end

section
variable (s : State) (st : List Word)
@[simp] theorem State.setStack_pc : (s.setStack st).pc = s.pc := rfl
@[simp] theorem State.setStack_headerSize : (s.setStack st).headerSize = s.headerSize := rfl
@[simp] theorem State.setStack_prog : (s.setStack st).prog = s.prog := rfl
@[simp] theorem State.setStack_opmap : (s.setStack st).opmap = s.opmap := rfl
@[simp] theorem State.setStack_regs : (s.setStack st).regs = s.regs := rfl
@[simp] theorem State.setStack_stack : (s.setStack st).stack = st := rfl
@[simp] theorem State.setStack_memSize : (s.setStack st).memSize = s.memSize := rfl
@[simp] theorem State.setStack_mem : (s.setStack st).mem = s.mem := rfl
@[simp] theorem State.setStack_flags : (s.setStack st).flags = s.flags := rfl
@[simp] theorem State.setStack_sbp : (s.setStack st).sbp = s.sbp := rfl
@[simp] theorem State.setStack_cdepth : (s.setStack st).cdepth = s.cdepth := rfl
@[simp] theorem State.setStack_err : (s.setStack st).err = s.err := rfl
@[simp] theorem State.setStack_trace : (s.setStack st).trace = s.trace := rfl
@[simp] theorem State.setStack_draws : (s.setStack st).draws = s.draws := rfl
end

section
variable (s : State) (v : Word)
@[simp] theorem State.push_pc : (s.push v).pc = s.pc := rfl
@[simp] theorem State.push_headerSize : (s.push v).headerSize = s.headerSize := rfl
@[simp] theorem State.push_prog : (s.push v).prog = s.prog := rfl
@[simp] theorem State.push_opmap : (s.push v).opmap = s.opmap := rfl
@[simp] theorem State.push_regs : (s.push v).regs = s.regs := rfl
@[simp] theorem State.push_stack : (s.push v).stack = v :: s.stack := rfl
@[simp] theorem State.push_memSize : (s.push v).memSize = s.memSize := rfl
@[simp] theorem State.push_mem : (s.push v).mem = s.mem := rfl
@[simp] theorem State.push_flags : (s.push v).flags = s.flags := rfl
@[simp] theorem State.push_sbp : (s.push v).sbp = s.sbp := rfl
@[simp] theorem State.push_cdepth : (s.push v).cdepth = s.cdepth := rfl
@[simp] theorem State.push_err : (s.push v).err = s.err := rfl
@[simp] theorem State.push_trace : (s.push v).trace = s.trace := rfl
@[simp] theorem State.push_draws : (s.push v).draws = s.draws := rfl
end

section
variable (s : State) (m : Memory)
@[simp] theorem State.setMem_pc : (s.setMem m).pc = s.pc := rfl
@[simp] theorem State.setMem_headerSize : (s.setMem m).headerSize = s.headerSize := rfl
@[simp] theorem State.setMem_prog : (s.setMem m).prog = s.prog := rfl
@[simp] theorem State.setMem_opmap : (s.setMem m).opmap = s.opmap := rfl
@[simp] theorem State.setMem_regs : (s.setMem m).regs = s.regs := rfl
@[simp] theorem State.setMem_stack : (s.setMem m).stack = s.stack := rfl
@[simp] theorem State.setMem_memSize : (s.setMem m).memSize = s.memSize := rfl
@[simp] theorem State.setMem_mem : (s.setMem m).mem = m := rfl
@[simp] theorem State.setMem_flags : (s.setMem m).flags = s.flags := rfl
@[simp] theorem State.setMem_sbp : (s.setMem m).sbp = s.sbp := rfl
@[simp] theorem State.setMem_cdepth : (s.setMem m).cdepth = s.cdepth := rfl
@[simp] theorem State.setMem_err : (s.setMem m).err = s.err := rfl
@[simp] theorem State.setMem_trace : (s.setMem m).trace = s.trace := rfl
@[simp] theorem State.setMem_draws : (s.setMem m).draws = s.draws := rfl
end

section
variable (s : State) (rs : List HostRequest)
@[simp] theorem State.request_pc : (s.request rs).pc = s.pc := rfl
@[simp] theorem State.request_headerSize : (s.request rs).headerSize = s.headerSize := rfl
@[simp] theorem State.request_prog : (s.request rs).prog = s.prog := rfl
@[simp] theorem State.request_opmap : (s.request rs).opmap = s.opmap := rfl
@[simp] theorem State.request_regs : (s.request rs).regs = s.regs := rfl
@[simp] theorem State.request_stack : (s.request rs).stack = s.stack := rfl
@[simp] theorem State.request_memSize : (s.request rs).memSize = s.memSize := rfl
@[simp] theorem State.request_mem : (s.request rs).mem = s.mem := rfl
@[simp] theorem State.request_flags : (s.request rs).flags = s.flags := rfl
@[simp] theorem State.request_sbp : (s.request rs).sbp = s.sbp := rfl
@[simp] theorem State.request_cdepth : (s.request rs).cdepth = s.cdepth := rfl
@[simp] theorem State.request_err : (s.request rs).err = s.err := rfl
@[simp] theorem State.request_trace : (s.request rs).trace = s.trace ++ rs := rfl
@[simp] theorem State.request_draws : (s.request rs).draws = s.draws := rfl
end

section
variable (s : State) (r : HostRequest)
@[simp] theorem State.answered_pc : (s.answered r).pc = s.pc := rfl
@[simp] theorem State.answered_headerSize : (s.answered r).headerSize = s.headerSize := rfl
@[simp] theorem State.answered_prog : (s.answered r).prog = s.prog := rfl
@[simp] theorem State.answered_opmap : (s.answered r).opmap = s.opmap := rfl
@[simp] theorem State.answered_regs : (s.answered r).regs = s.regs := rfl
@[simp] theorem State.answered_stack : (s.answered r).stack = s.stack := rfl
@[simp] theorem State.answered_memSize : (s.answered r).memSize = s.memSize := rfl
@[simp] theorem State.answered_mem : (s.answered r).mem = s.mem := rfl
@[simp] theorem State.answered_flags : (s.answered r).flags = s.flags := rfl
@[simp] theorem State.answered_sbp : (s.answered r).sbp = s.sbp := rfl
@[simp] theorem State.answered_cdepth : (s.answered r).cdepth = s.cdepth := rfl
@[simp] theorem State.answered_err : (s.answered r).err = s.err := rfl
@[simp] theorem State.answered_trace : (s.answered r).trace = s.trace ++ [r] := rfl
@[simp] theorem State.answered_draws : (s.answered r).draws = s.draws + 1 := rfl
end

section
variable (s : State) (k : ErrKind) (op : Option Byte)
@[simp] theorem State.raise_pc : (s.raise k op).pc = s.pc := rfl
@[simp] theorem State.raise_headerSize : (s.raise k op).headerSize = s.headerSize := rfl
@[simp] theorem State.raise_prog : (s.raise k op).prog = s.prog := rfl
@[simp] theorem State.raise_opmap : (s.raise k op).opmap = s.opmap := rfl
@[simp] theorem State.raise_regs : (s.raise k op).regs = s.regs := rfl
@[simp] theorem State.raise_stack : (s.raise k op).stack = s.stack := rfl
@[simp] theorem State.raise_memSize : (s.raise k op).memSize = s.memSize := rfl
@[simp] theorem State.raise_mem : (s.raise k op).mem = s.mem := rfl
@[simp] theorem State.raise_flags : (s.raise k op).flags = s.flags := rfl
@[simp] theorem State.raise_sbp : (s.raise k op).sbp = s.sbp := rfl
@[simp] theorem State.raise_cdepth : (s.raise k op).cdepth = s.cdepth := rfl
@[simp] theorem State.raise_err : (s.raise k op).err = some { kind := k, opcode := op, offset := s.pc } := rfl
@[simp] theorem State.raise_trace : (s.raise k op).trace = s.trace := rfl
@[simp] theorem State.raise_draws : (s.raise k op).draws = s.draws := rfl
end

section
variable (s : State) (b d : Nat)
@[simp] theorem State.setFrame_pc : (s.setFrame b d).pc = s.pc := rfl
@[simp] theorem State.setFrame_headerSize : (s.setFrame b d).headerSize = s.headerSize := rfl
@[simp] theorem State.setFrame_prog : (s.setFrame b d).prog = s.prog := rfl
@[simp] theorem State.setFrame_opmap : (s.setFrame b d).opmap = s.opmap := rfl
@[simp] theorem State.setFrame_regs : (s.setFrame b d).regs = s.regs := rfl
@[simp] theorem State.setFrame_stack : (s.setFrame b d).stack = s.stack := rfl
@[simp] theorem State.setFrame_memSize : (s.setFrame b d).memSize = s.memSize := rfl
@[simp] theorem State.setFrame_mem : (s.setFrame b d).mem = s.mem := rfl
@[simp] theorem State.setFrame_flags : (s.setFrame b d).flags = s.flags := rfl
@[simp] theorem State.setFrame_sbp : (s.setFrame b d).sbp = b := rfl
@[simp] theorem State.setFrame_cdepth : (s.setFrame b d).cdepth = d := rfl
@[simp] theorem State.setFrame_err : (s.setFrame b d).err = s.err := rfl
@[simp] theorem State.setFrame_trace : (s.setFrame b d).trace = s.trace := rfl
@[simp] theorem State.setFrame_draws : (s.setFrame b d).draws = s.draws := rfl
end

/-- Two fields that are read through a name. -/
@[simp] theorem State.setReg_nreg (s : State) (n : Nat) (v : Word) : (s.setReg n v).nreg = s.nreg := by
  simp [State.nreg]

theorem State.reg_setReg_same (s : State) (n : Nat) (v : Word) (h : n < s.nreg) :
    (s.setReg n v).reg n = v := by
  have h' : n < s.regs.length := h
  simp [State.reg, List.getD, h']

theorem State.reg_setReg_other (s : State) (n m : Nat) (v : Word) (h : n ≠ m) :
    (s.setReg n v).reg m = s.reg m := by
  simp [State.reg, List.getD, h]

@[simp] theorem Flags.putOverflow_overflow (f : Flags) (v : Option Bool) :
    (f.putOverflow v).overflow = v.getD f.overflow := rfl
@[simp] theorem Flags.putOverflow_equal (f : Flags) (v : Option Bool) : (f.putOverflow v).equal = f.equal := rfl
@[simp] theorem Flags.putOverflow_notEqual (f : Flags) (v : Option Bool) :
    (f.putOverflow v).notEqual = f.notEqual := rfl
@[simp] theorem Flags.putOverflow_greater (f : Flags) (v : Option Bool) :
    (f.putOverflow v).greater = f.greater := rfl
@[simp] theorem Flags.putOverflow_smaller (f : Flags) (v : Option Bool) :
    (f.putOverflow v).smaller = f.smaller := rfl
@[simp] theorem Flags.putOverflow_stop (f : Flags) (v : Option Bool) : (f.putOverflow v).stop = f.stop := rfl
@[simp] theorem Flags.compare_overflow (f : Flags) (a b : Word) : (f.compare a b).overflow = f.overflow := rfl
@[simp] theorem Flags.compare_stop (f : Flags) (a b : Word) : (f.compare a b).stop = f.stop := rfl

end Sys2Proof.Machine
end

