-- ==== Sys2Proof/Laws/Ops.lean ====
section
/-! SUPPORT. For each shared operation one lemma that says everything it can answer, and its values
where it succeeds and where it fails. -/

namespace Sys2Proof.Machine

/-! ### Failing computations -/

@[simp] theorem ok_bind {α β : Type} (a : α) (f : α → Except ErrKind β) :
    ((Except.ok a : Except ErrKind α) >>= f) = f a := rfl

@[simp] theorem error_bind {α β : Type} (k : ErrKind) (f : α → Except ErrKind β) :
    ((Except.error k : Except ErrKind α) >>= f) = .error k := rfl

/-- A sequence succeeds only if both parts do. -/
theorem bind_eq_ok {α β : Type} {x : Except ErrKind α} {f : α → Except ErrKind β} {b : β} :
    (x >>= f) = .ok b ↔ ∃ a, x = .ok a ∧ f a = .ok b := by
  cases x <;> simp

/-! ### Registers -/

theorem State.regOperand_inRange {s : State} {r : RegIdx} (h : r.toNat < s.nreg) :
    s.regOperand r = .ok (s.reg r.toNat) := if_pos h

theorem State.regOperand_outOfRange {s : State} {r : RegIdx} (h : ¬ r.toNat < s.nreg) :
    s.regOperand r = .error .decodeError := if_neg h

theorem State.regOperand_eq_ok {s : State} {r : RegIdx} {v : Word} :
    s.regOperand r = .ok v ↔ r.toNat < s.nreg ∧ v = s.reg r.toNat := by
  unfold State.regOperand
  split <;> simp_all [eq_comm]

theorem State.checkReg_inRange {s : State} {r : RegIdx} (h : r.toNat < s.nreg) :
    s.checkReg r = .ok () := if_pos h

theorem State.checkReg_outOfRange {s : State} {r : RegIdx} (h : ¬ r.toNat < s.nreg) :
    s.checkReg r = .error .decodeError := if_neg h

theorem State.checkReg_eq_ok {s : State} {r : RegIdx} {u : Unit} :
    s.checkReg r = .ok u ↔ r.toNat < s.nreg := by
  unfold State.checkReg
  split <;> simp_all

/-! ### Stack -/

theorem State.pop_cons {s : State} {v : Word} {rest : List Word} (h : s.stack = v :: rest) :
    s.pop = .ok (v, s.setStack rest) := by simp [State.pop, h]

theorem State.pop_nil {s : State} (h : s.stack = []) : s.pop = .error .stackUnderflow := by
  simp [State.pop, h]

theorem State.pop_eq_ok {s t : State} {v : Word} :
    s.pop = .ok (v, t) ↔ ∃ rest, s.stack = v :: rest ∧ t = s.setStack rest := by
  unfold State.pop
  split <;> simp_all [eq_comm]

theorem State.peek_cons {s : State} {v : Word} {rest : List Word} (h : s.stack = v :: rest) :
    s.peek = .ok v := by simp [State.peek, h]

theorem State.peek_nil {s : State} (h : s.stack = []) : s.peek = .error .stackUnderflow := by
  simp [State.peek, h]

theorem State.peek_eq_ok {s : State} {v : Word} : s.peek = .ok v ↔ ∃ rest, s.stack = v :: rest := by
  unfold State.peek
  split <;> simp_all

/-! ### RAM -/

theorem State.wordInBounds_iff {s : State} {addr : Word} :
    s.wordInBounds addr = true ↔ addr.toNat + 3 < s.memSize := by simp [State.wordInBounds]

theorem State.memRead_inBounds {s : State} {addr : Word} (h : addr.toNat + 3 < s.memSize) :
    s.memRead addr = .ok (Memory.readWord s.mem addr.toNat) :=
  if_pos (State.wordInBounds_iff.2 h)

theorem State.memRead_outOfBounds {s : State} {addr : Word} (h : ¬ addr.toNat + 3 < s.memSize) :
    s.memRead addr = .error .memoryOutOfBounds :=
  if_neg fun hb => h (State.wordInBounds_iff.1 hb)

theorem State.memRead_eq_ok {s : State} {addr v : Word} :
    s.memRead addr = .ok v ↔ addr.toNat + 3 < s.memSize ∧ v = Memory.readWord s.mem addr.toNat := by
  by_cases h : addr.toNat + 3 < s.memSize
  · simp [State.memRead_inBounds h, h, eq_comm]
  · simp [State.memRead_outOfBounds h, h]

theorem State.memWrite_inBounds {s : State} {addr : Word} (v : Word) (h : addr.toNat + 3 < s.memSize) :
    s.memWrite addr v = .ok (s.setMem (Memory.writeWord addr.toNat v s.mem)) :=
  if_pos (State.wordInBounds_iff.2 h)

theorem State.memWrite_outOfBounds {s : State} {addr : Word} (v : Word)
    (h : ¬ addr.toNat + 3 < s.memSize) : s.memWrite addr v = .error .memoryOutOfBounds :=
  if_neg fun hb => h (State.wordInBounds_iff.1 hb)

theorem State.memWrite_eq_ok {s t : State} {addr v : Word} :
    s.memWrite addr v = .ok t ↔
      addr.toNat + 3 < s.memSize ∧ t = s.setMem (Memory.writeWord addr.toNat v s.mem) := by
  by_cases h : addr.toNat + 3 < s.memSize
  · simp [State.memWrite_inBounds v h, h, eq_comm]
  · simp [State.memWrite_outOfBounds v h, h]

theorem State.rangeInBounds_iff {s : State} {p n : Word} :
    s.rangeInBounds p n = true ↔ n.toNat = 0 ∨ p.toNat + n.toNat ≤ s.memSize := by
  simp [State.rangeInBounds]

/-- The host's answer to a read is no longer than the size asked for (`46_syscall.md` R232). -/
theorem State.lineAnswer_length (s : State) (n : Word) : (s.lineAnswer n).length ≤ n.toNat := by
  simp [State.lineAnswer]

/-! ### Retiring -/

@[simp] theorem State.retire_ok (s : State) (i : Instr) (t : State) :
    s.retire i (.ok t) = .next (t.setPc (s.nextPc i)) := rfl

@[simp] theorem State.retire_error (s : State) (i : Instr) (k : ErrKind) :
    s.retire i (.error k) = .next (s.raise k (some (s.opcodeOf i))) := rfl

@[simp] theorem State.retireTo_ok (s : State) (i : Instr) (t : State) (target : Word) :
    s.retireTo i (.ok (t, target)) = .next (t.setPc target) := rfl

@[simp] theorem State.retireTo_error (s : State) (i : Instr) (k : ErrKind) :
    s.retireTo i (.error k) = .next (s.raise k (some (s.opcodeOf i))) := rfl

/-- What a retired instruction can answer: its effect with `pc` advanced, or the error it raised. -/
theorem State.retire_next {s t : State} {i : Instr} {r : Except ErrKind State}
    (h : s.retire i r = .next t) :
    (∃ u, r = .ok u ∧ t = u.setPc (s.nextPc i)) ∨
    (∃ k, r = .error k ∧ t = s.raise k (some (s.opcodeOf i))) := by
  cases r <;> simp_all [eq_comm]

/-- What a control transfer can answer. -/
theorem State.retireTo_next {s t : State} {i : Instr} {r : Except ErrKind (State × Word)}
    (h : s.retireTo i r = .next t) :
    (∃ u target, r = .ok (u, target) ∧ t = u.setPc target) ∨
    (∃ k, r = .error k ∧ t = s.raise k (some (s.opcodeOf i))) := by
  rcases r with k | ⟨u, target⟩ <;> simp_all [eq_comm]

/-! ### Operand forms -/

/-- What a register-register form can answer. -/
theorem binaryReg_next {op : BinaryOp} {i : Instr} {ra rb : RegIdx} {s t : State}
    (h : binaryReg op i ra rb s = .next t) :
    (∃ r, ra.toNat < s.nreg ∧ rb.toNat < s.nreg ∧ op (s.reg ra.toNat) (s.reg rb.toNat) = .ok r ∧
      t = (s.putRegResult ra.toNat r).setPc (s.nextPc i)) ∨
    (∃ k, t = s.raise k (some (s.opcodeOf i))) := by
  rcases State.retire_next h with ⟨u, hu, rfl⟩ | ⟨k, -, rfl⟩
  · simp only [bind_eq_ok, State.regOperand_eq_ok] at hu
    obtain ⟨_, ⟨ha, rfl⟩, _, ⟨hb, rfl⟩, r, hr, hu⟩ := hu
    simp only [Except.ok.injEq] at hu
    exact .inl ⟨r, ha, hb, hr, by rw [hu]⟩
  · exact .inr ⟨k, rfl⟩

/-- What a register-literal form can answer. -/
theorem binaryRegLit_next {op : BinaryOp} {i : Instr} {ra : RegIdx} {lit : Word} {s t : State}
    (h : binaryRegLit op i ra lit s = .next t) :
    (∃ r, ra.toNat < s.nreg ∧ op (s.reg ra.toNat) lit = .ok r ∧
      t = (s.putRegResult ra.toNat r).setPc (s.nextPc i)) ∨
    (∃ k, t = s.raise k (some (s.opcodeOf i))) := by
  rcases State.retire_next h with ⟨u, hu, rfl⟩ | ⟨k, -, rfl⟩
  · simp only [bind_eq_ok, State.regOperand_eq_ok] at hu
    obtain ⟨_, ⟨ha, rfl⟩, r, hr, hu⟩ := hu
    simp only [Except.ok.injEq] at hu
    exact .inl ⟨r, ha, hr, by rw [hu]⟩
  · exact .inr ⟨k, rfl⟩

/-- What a stack-stack form can answer. -/
theorem binaryStack_next {op : BinaryOp} {i : Instr} {s t : State}
    (h : binaryStack op i s = .next t) :
    (∃ a b rest r, s.stack = b :: a :: rest ∧ op a b = .ok r ∧
      t = ((s.setStack rest).putStackResult r).setPc (s.nextPc i)) ∨
    (∃ k, t = s.raise k (some (s.opcodeOf i))) := by
  rcases State.retire_next h with ⟨u, hu, rfl⟩ | ⟨k, -, rfl⟩
  · simp only [bind_eq_ok] at hu
    obtain ⟨⟨b, s1⟩, h1, ⟨a, s2⟩, h2, r, hr, hu⟩ := hu
    obtain ⟨rest1, hs, rfl⟩ := State.pop_eq_ok.1 h1
    obtain ⟨rest, hs1, rfl⟩ := State.pop_eq_ok.1 h2
    simp only [State.setStack_stack] at hs1
    subst hs1
    simp only [Except.ok.injEq] at hu
    exact .inl ⟨a, b, rest, r, hs, hr, by rw [← hu]; rfl⟩
  · exact .inr ⟨k, rfl⟩

/-- What a stack-literal form can answer. -/
theorem binaryStackLit_next {op : BinaryOp} {i : Instr} {lit : Word} {s t : State}
    (h : binaryStackLit op i lit s = .next t) :
    (∃ a rest r, s.stack = a :: rest ∧ op a lit = .ok r ∧
      t = ((s.setStack rest).putStackResult r).setPc (s.nextPc i)) ∨
    (∃ k, t = s.raise k (some (s.opcodeOf i))) := by
  rcases State.retire_next h with ⟨u, hu, rfl⟩ | ⟨k, -, rfl⟩
  · simp only [bind_eq_ok] at hu
    obtain ⟨⟨a, s1⟩, h1, r, hr, hu⟩ := hu
    obtain ⟨rest, hs, rfl⟩ := State.pop_eq_ok.1 h1
    simp only [Except.ok.injEq] at hu
    exact .inl ⟨a, rest, r, hs, hr, by rw [← hu]⟩
  · exact .inr ⟨k, rfl⟩

/-- What a one-operand register form can answer. -/
theorem unaryReg_next {op : UnaryOp} {i : Instr} {ra : RegIdx} {s t : State}
    (h : unaryReg op i ra s = .next t) :
    (ra.toNat < s.nreg ∧ t = (s.putRegResult ra.toNat (op (s.reg ra.toNat))).setPc (s.nextPc i)) ∨
    (∃ k, t = s.raise k (some (s.opcodeOf i))) := by
  rcases State.retire_next h with ⟨u, hu, rfl⟩ | ⟨k, -, rfl⟩
  · simp only [bind_eq_ok, State.regOperand_eq_ok] at hu
    obtain ⟨_, ⟨ha, rfl⟩, hu⟩ := hu
    simp only [Except.ok.injEq] at hu
    exact .inl ⟨ha, by rw [hu]⟩
  · exact .inr ⟨k, rfl⟩

/-- What a one-operand stack form can answer. -/
theorem unaryStack_next {op : UnaryOp} {i : Instr} {s t : State} (h : unaryStack op i s = .next t) :
    (∃ a rest, s.stack = a :: rest ∧
      t = ((s.setStack rest).putStackResult (op a)).setPc (s.nextPc i)) ∨
    (∃ k, t = s.raise k (some (s.opcodeOf i))) := by
  rcases State.retire_next h with ⟨u, hu, rfl⟩ | ⟨k, -, rfl⟩
  · simp only [bind_eq_ok] at hu
    obtain ⟨⟨a, s1⟩, h1, hu⟩ := hu
    obtain ⟨rest, hs, rfl⟩ := State.pop_eq_ok.1 h1
    simp only [Except.ok.injEq] at hu
    exact .inl ⟨a, rest, hs, by rw [← hu]⟩
  · exact .inr ⟨k, rfl⟩

/-! ### Jumps, return, syscall -/

/-- A jump always completes. -/
theorem jumpWhen_next (taken : Bool) (i : Instr) (target : Word) (s : State) :
    jumpWhen taken i target s = .next (s.setPc (if taken then target else s.nextPc i)) := rfl

/-- What a return that completes has found and done. -/
theorem State.leaveProcedure_eq_ok {s t : State} {target : Word} (h : s.leaveProcedure = .ok (t, target)) :
    s.cdepth ≠ 0 ∧ s.sbp ≤ s.len ∧ ∃ saved r3 r2 r1 r0 rest,
      s.discardLocals = saved :: r3 :: r2 :: r1 :: r0 :: rest ∧ target = saved + 5 ∧
      t = ((s.setStack rest).restoreRegs r3 r2 r1 r0).setFrame rest.length (s.cdepth - 1) := by
  unfold State.leaveProcedure at h
  split at h
  · cases h
  · split at h
    · cases h
    · split at h
      · rename_i hc hl _ saved r3 r2 r1 r0 rest hd
        simp only [Except.ok.injEq, Prod.mk.injEq] at h
        exact ⟨hc, by omega, saved, r3, r2, r1, r0, rest, hd, h.2.symm, h.1.symm⟩
      · cases h

/-- What a `syscall` that raises no error has done: one of the five branches. -/
theorem State.service_eq_ok {s t : State} (h : s.service = .ok t) :
    (s.reg 0 = 0 ∧ s.rangeInBounds (s.reg 1) (s.reg 2) = true ∧
      t = s.request ((Memory.readBytes s.mem (s.reg 1).toNat (s.reg 2).toNat).map .writeChar)) ∨
    (s.reg 0 = 1 ∧ s.rangeInBounds (s.reg 1) (s.reg 2) = true ∧
      t = (s.answered (.readLine (s.reg 2) (s.lineAnswer (s.reg 2)))).setMem
        (Memory.writeBytes (s.reg 1).toNat (s.lineAnswer (s.reg 2)) s.mem)) ∨
    (s.reg 0 = 2 ∧ t = s.request [.clearTerminal]) ∨
    (s.reg 0 = 3 ∧ t = s.request [.writeDecimal (s.reg 1)]) ∨
    (s.reg 0 ≠ 0 ∧ s.reg 0 ≠ 1 ∧ s.reg 0 ≠ 2 ∧ s.reg 0 ≠ 3 ∧ t = s) := by
  unfold State.service at h
  split at h
  · rename_i h0
    unfold State.sysWrite at h
    split at h
    · simp only [Except.ok.injEq] at h
      exact .inl ⟨h0, ‹_›, h.symm⟩
    · cases h
  · split at h
    · rename_i h1
      unfold State.sysRead at h
      split at h
      · simp only [Except.ok.injEq] at h
        exact .inr (.inl ⟨h1, ‹_›, h.symm⟩)
      · cases h
    · split at h
      · simp only [Except.ok.injEq] at h
        exact .inr (.inr (.inl ⟨‹_›, h.symm⟩))
      · split at h
        · simp only [Except.ok.injEq] at h
          exact .inr (.inr (.inr (.inl ⟨‹_›, h.symm⟩)))
        · simp only [Except.ok.injEq] at h
          exact .inr (.inr (.inr (.inr ⟨‹_›, ‹_›, ‹_›, ‹_›, h.symm⟩)))

/-! ### The cycle -/

/-- What a step can answer. -/
theorem step_cases (s : State) :
    (s.configLegal = false ∧ step s = .refused .illegalConfiguration) ∨
    (s.configLegal = true ∧ s.stopped = true ∧ step s = .fault .stopped) ∨
    (s.configLegal = true ∧ s.stopped = false ∧
      ((∃ i, s.fetch = .ok i ∧ step s = exec i s) ∨
       (∃ e, s.fetch = .error e ∧ step s = .next (s.raise .decodeError e.opcode)))) := by
  unfold step
  cases hc : s.configLegal <;> cases hs : s.stopped <;> simp
  cases hf : s.fetch <;> simp

end Sys2Proof.Machine
end

