-- ==== Sys2Proof/Laws/PerInstr.lean ====
section
/-! SUPPORT. The family `EncodedLength`, one lemma per instruction: its row of the opcode list gives a
format whose length its encoding has under every map (`30_encoding.md` R71, R75, R80). -/

namespace Sys2Proof.Laws.EncodedLength

/-- The instruction's row gives a shape whose format has the length of its encoding under every map. -/
def Statement (i : Instr) : Prop :=
  ∃ shape, shapes[i.row]? = some shape ∧ ∀ m : OpMap, (encode m i).length = shape.format.length

theorem exit : Statement .exit := ⟨_, rfl, fun _ => rfl⟩
theorem nop : Statement .nop := ⟨_, rfl, fun _ => rfl⟩
theorem pushLit (lit : Word) : Statement (.pushLit lit) := ⟨_, rfl, fun _ => rfl⟩
theorem pushReg (ra : RegIdx) : Statement (.pushReg ra) := ⟨_, rfl, fun _ => rfl⟩
theorem pushMem (addr : Word) : Statement (.pushMem addr) := ⟨_, rfl, fun _ => rfl⟩
theorem popReg (ra : RegIdx) : Statement (.popReg ra) := ⟨_, rfl, fun _ => rfl⟩
theorem popMemory (addr : Word) : Statement (.popMemory addr) := ⟨_, rfl, fun _ => rfl⟩
theorem stackDupe : Statement .stackDupe := ⟨_, rfl, fun _ => rfl⟩
theorem movLitReg (ra : RegIdx) (lit : Word) : Statement (.movLitReg ra lit) := ⟨_, rfl, fun _ => rfl⟩
theorem movRegReg (ra rb : RegIdx) : Statement (.movRegReg ra rb) := ⟨_, rfl, fun _ => rfl⟩
theorem movMemReg (ra : RegIdx) (addr : Word) : Statement (.movMemReg ra addr) := ⟨_, rfl, fun _ => rfl⟩
theorem movRegMem (ra : RegIdx) (addr : Word) : Statement (.movRegMem ra addr) := ⟨_, rfl, fun _ => rfl⟩
theorem movLitMem (lit addr : Word) : Statement (.movLitMem lit addr) := ⟨_, rfl, fun _ => rfl⟩
theorem movMemMem (addr1 addr2 : Word) : Statement (.movMemMem addr1 addr2) := ⟨_, rfl, fun _ => rfl⟩
theorem mathAddReg (ra rb : RegIdx) : Statement (.mathAddReg ra rb) := ⟨_, rfl, fun _ => rfl⟩
theorem mathAddStack : Statement .mathAddStack := ⟨_, rfl, fun _ => rfl⟩
theorem mathAddRegLit (ra : RegIdx) (lit : Word) : Statement (.mathAddRegLit ra lit) := ⟨_, rfl, fun _ => rfl⟩
theorem mathAddStackLit (lit : Word) : Statement (.mathAddStackLit lit) := ⟨_, rfl, fun _ => rfl⟩
theorem mathSubReg (ra rb : RegIdx) : Statement (.mathSubReg ra rb) := ⟨_, rfl, fun _ => rfl⟩
theorem mathSubStack : Statement .mathSubStack := ⟨_, rfl, fun _ => rfl⟩
theorem mathSubRegLit (ra : RegIdx) (lit : Word) : Statement (.mathSubRegLit ra lit) := ⟨_, rfl, fun _ => rfl⟩
theorem mathSubStackLit (lit : Word) : Statement (.mathSubStackLit lit) := ⟨_, rfl, fun _ => rfl⟩
theorem mathMulReg (ra rb : RegIdx) : Statement (.mathMulReg ra rb) := ⟨_, rfl, fun _ => rfl⟩
theorem mathMulStack : Statement .mathMulStack := ⟨_, rfl, fun _ => rfl⟩
theorem mathMulRegLit (ra : RegIdx) (lit : Word) : Statement (.mathMulRegLit ra lit) := ⟨_, rfl, fun _ => rfl⟩
theorem mathMulStackLit (lit : Word) : Statement (.mathMulStackLit lit) := ⟨_, rfl, fun _ => rfl⟩
theorem mathDivReg (ra rb : RegIdx) : Statement (.mathDivReg ra rb) := ⟨_, rfl, fun _ => rfl⟩
theorem mathDivStack : Statement .mathDivStack := ⟨_, rfl, fun _ => rfl⟩
theorem mathDivRegLit (ra : RegIdx) (lit : Word) : Statement (.mathDivRegLit ra lit) := ⟨_, rfl, fun _ => rfl⟩
theorem mathDivStackLit (lit : Word) : Statement (.mathDivStackLit lit) := ⟨_, rfl, fun _ => rfl⟩
theorem mathAndReg (ra rb : RegIdx) : Statement (.mathAndReg ra rb) := ⟨_, rfl, fun _ => rfl⟩
theorem mathAndStack : Statement .mathAndStack := ⟨_, rfl, fun _ => rfl⟩
theorem mathAndRegLit (ra : RegIdx) (lit : Word) : Statement (.mathAndRegLit ra lit) := ⟨_, rfl, fun _ => rfl⟩
theorem mathAndStackLit (lit : Word) : Statement (.mathAndStackLit lit) := ⟨_, rfl, fun _ => rfl⟩
theorem mathOrReg (ra rb : RegIdx) : Statement (.mathOrReg ra rb) := ⟨_, rfl, fun _ => rfl⟩
theorem mathOrStack : Statement .mathOrStack := ⟨_, rfl, fun _ => rfl⟩
theorem mathOrRegLit (ra : RegIdx) (lit : Word) : Statement (.mathOrRegLit ra lit) := ⟨_, rfl, fun _ => rfl⟩
theorem mathOrStackLit (lit : Word) : Statement (.mathOrStackLit lit) := ⟨_, rfl, fun _ => rfl⟩
theorem mathXorReg (ra rb : RegIdx) : Statement (.mathXorReg ra rb) := ⟨_, rfl, fun _ => rfl⟩
theorem mathXorStack : Statement .mathXorStack := ⟨_, rfl, fun _ => rfl⟩
theorem mathXorRegLit (ra : RegIdx) (lit : Word) : Statement (.mathXorRegLit ra lit) := ⟨_, rfl, fun _ => rfl⟩
theorem mathXorStackLit (lit : Word) : Statement (.mathXorStackLit lit) := ⟨_, rfl, fun _ => rfl⟩
theorem mathShlReg (ra rb : RegIdx) : Statement (.mathShlReg ra rb) := ⟨_, rfl, fun _ => rfl⟩
theorem mathShlStack : Statement .mathShlStack := ⟨_, rfl, fun _ => rfl⟩
theorem mathShlRegLit (ra : RegIdx) (lit : Word) : Statement (.mathShlRegLit ra lit) := ⟨_, rfl, fun _ => rfl⟩
theorem mathShlStackLit (lit : Word) : Statement (.mathShlStackLit lit) := ⟨_, rfl, fun _ => rfl⟩
theorem mathShrReg (ra rb : RegIdx) : Statement (.mathShrReg ra rb) := ⟨_, rfl, fun _ => rfl⟩
theorem mathShrStack : Statement .mathShrStack := ⟨_, rfl, fun _ => rfl⟩
theorem mathShrRegLit (ra : RegIdx) (lit : Word) : Statement (.mathShrRegLit ra lit) := ⟨_, rfl, fun _ => rfl⟩
theorem mathShrStackLit (lit : Word) : Statement (.mathShrStackLit lit) := ⟨_, rfl, fun _ => rfl⟩
theorem mathNotReg (ra : RegIdx) : Statement (.mathNotReg ra) := ⟨_, rfl, fun _ => rfl⟩
theorem mathNotStack : Statement .mathNotStack := ⟨_, rfl, fun _ => rfl⟩
theorem mathIncReg (ra : RegIdx) : Statement (.mathIncReg ra) := ⟨_, rfl, fun _ => rfl⟩
theorem mathIncStack : Statement .mathIncStack := ⟨_, rfl, fun _ => rfl⟩
theorem mathDecReg (ra : RegIdx) : Statement (.mathDecReg ra) := ⟨_, rfl, fun _ => rfl⟩
theorem mathDecStack : Statement .mathDecStack := ⟨_, rfl, fun _ => rfl⟩
theorem mathSqrtReg (ra : RegIdx) : Statement (.mathSqrtReg ra) := ⟨_, rfl, fun _ => rfl⟩
theorem mathSqrtStack : Statement .mathSqrtStack := ⟨_, rfl, fun _ => rfl⟩
theorem mathRandReg (ra : RegIdx) : Statement (.mathRandReg ra) := ⟨_, rfl, fun _ => rfl⟩
theorem mathRandStack : Statement .mathRandStack := ⟨_, rfl, fun _ => rfl⟩
theorem mathPowReg (ra rb : RegIdx) : Statement (.mathPowReg ra rb) := ⟨_, rfl, fun _ => rfl⟩
theorem mathPowStack : Statement .mathPowStack := ⟨_, rfl, fun _ => rfl⟩
theorem compareRegReg (ra rb : RegIdx) : Statement (.compareRegReg ra rb) := ⟨_, rfl, fun _ => rfl⟩
theorem compareRegLit (ra : RegIdx) (lit : Word) : Statement (.compareRegLit ra lit) := ⟨_, rfl, fun _ => rfl⟩
theorem compareStackLit (lit : Word) : Statement (.compareStackLit lit) := ⟨_, rfl, fun _ => rfl⟩
theorem flagReset : Statement .flagReset := ⟨_, rfl, fun _ => rfl⟩
theorem jumpAbsolute (addr : Word) : Statement (.jumpAbsolute addr) := ⟨_, rfl, fun _ => rfl⟩
theorem jumpEqual (addr : Word) : Statement (.jumpEqual addr) := ⟨_, rfl, fun _ => rfl⟩
theorem jumpNotEqual (addr : Word) : Statement (.jumpNotEqual addr) := ⟨_, rfl, fun _ => rfl⟩
theorem jumpGreater (addr : Word) : Statement (.jumpGreater addr) := ⟨_, rfl, fun _ => rfl⟩
theorem jumpSmaller (addr : Word) : Statement (.jumpSmaller addr) := ⟨_, rfl, fun _ => rfl⟩
theorem jumpOverflow (addr : Word) : Statement (.jumpOverflow addr) := ⟨_, rfl, fun _ => rfl⟩
theorem procedureCall (addr : Word) : Statement (.procedureCall addr) := ⟨_, rfl, fun _ => rfl⟩
theorem procedureReturn : Statement .procedureReturn := ⟨_, rfl, fun _ => rfl⟩
theorem syscall : Statement .syscall := ⟨_, rfl, fun _ => rfl⟩

end Sys2Proof.Laws.EncodedLength
end

