-- ==== Sys2Proof/Tests/Slice0.lean ====
section
/-! SUPPORT. Tests. Expected values come from the spec: the bytes of `30_encoding.md` R80, the vectors
V<n> and tables of `95_test_vectors.md`, and the rules named. `witness_<Name>` shows a concrete case
that meets every hypothesis of `Obligations.<Name>`, one for each clause. -/

set_option maxRecDepth 4000

namespace Sys2Proof.Tests

open Sys2Proof Sys2Proof.Machine

/-! ### Well-formedness: each check refuses its ill-formed term (NREG = 8) -/

theorem test_wellFormed_accepts :
    Instr.wellFormed 8 (.mathAddReg 7 0) = true ∧ Instr.wellFormed 8 (.jumpAbsolute 0xFFFFFFFF) = true ∧
    Instr.wellFormed 256 (.pushReg 255) = true := by decide

theorem test_wellFormed_refuses_one_register : Instr.wellFormed 8 (.pushReg 8) = false := by decide

theorem test_wellFormed_refuses_first_register : Instr.wellFormed 8 (.movRegReg 8 0) = false := by decide

theorem test_wellFormed_refuses_second_register : Instr.wellFormed 8 (.movRegReg 0 8) = false := by decide

theorem test_wellFormed_refuses_register_with_literal :
    Instr.wellFormed 8 (.mathAddRegLit 255 1) = false := by decide

theorem test_wellFormed_refuses_register_with_address :
    Instr.wellFormed 8 (.movMemReg 8 0) = false := by decide

/-! ### Decoding: the bytes of every instruction, written out from R80 -/

theorem test_decode_system_and_control :
    decode OpMap.default [0x00] = .ok (.exit, []) ∧
    decode OpMap.default [0x01] = .ok (.nop, []) ∧
    decode OpMap.default [0x70, 0x00, 0x01, 0x02, 0x03] = .ok (.jumpAbsolute 0x00010203, []) ∧
    decode OpMap.default [0x71, 0x00, 0x01, 0x02, 0x03] = .ok (.jumpEqual 0x00010203, []) ∧
    decode OpMap.default [0x72, 0x00, 0x01, 0x02, 0x03] = .ok (.jumpNotEqual 0x00010203, []) ∧
    decode OpMap.default [0x73, 0x00, 0x01, 0x02, 0x03] = .ok (.jumpGreater 0x00010203, []) ∧
    decode OpMap.default [0x74, 0x00, 0x01, 0x02, 0x03] = .ok (.jumpSmaller 0x00010203, []) ∧
    decode OpMap.default [0x75, 0x00, 0x01, 0x02, 0x03] = .ok (.jumpOverflow 0x00010203, []) ∧
    decode OpMap.default [0x80, 0x00, 0x01, 0x02, 0x03] = .ok (.procedureCall 0x00010203, []) ∧
    decode OpMap.default [0x81] = .ok (.procedureReturn, []) ∧
    decode OpMap.default [0x90] = .ok (.syscall, []) :=
  ⟨rfl, rfl, rfl, rfl, rfl, rfl, rfl, rfl, rfl, rfl, rfl⟩

theorem test_decode_data_movement :
    decode OpMap.default [0x10, 0xA1, 0xB2, 0xC3, 0xD4] = .ok (.pushLit 0xA1B2C3D4, []) ∧
    decode OpMap.default [0x11, 0x05] = .ok (.pushReg 5, []) ∧
    decode OpMap.default [0x12, 0x00, 0x01, 0x02, 0x03] = .ok (.pushMem 0x00010203, []) ∧
    decode OpMap.default [0x13, 0x05] = .ok (.popReg 5, []) ∧
    decode OpMap.default [0x14, 0x00, 0x01, 0x02, 0x03] = .ok (.popMemory 0x00010203, []) ∧
    decode OpMap.default [0x15] = .ok (.stackDupe, []) ∧
    decode OpMap.default [0x16, 0x06, 0x01, 0x02, 0x03, 0x04] = .ok (.movLitReg 6 0x01020304, []) ∧
    decode OpMap.default [0x17, 0x01, 0x02] = .ok (.movRegReg 1 2, []) ∧
    decode OpMap.default [0x18, 0x07, 0xFF, 0xFE, 0xFD, 0xFC] = .ok (.movMemReg 7 0xFFFEFDFC, []) ∧
    decode OpMap.default [0x19, 0x07, 0xFF, 0xFE, 0xFD, 0xFC] = .ok (.movRegMem 7 0xFFFEFDFC, []) ∧
    decode OpMap.default [0x1A, 0x11, 0x22, 0x33, 0x44, 0x00, 0x00, 0x00, 0x66] = .ok (.movLitMem 0x11223344 102, []) ∧
    decode OpMap.default [0x1B, 0x00, 0x00, 0x00, 0x10, 0x00, 0x00, 0x00, 0x20] = .ok (.movMemMem 16 32, []) :=
  ⟨rfl, rfl, rfl, rfl, rfl, rfl, rfl, rfl, rfl, rfl, rfl, rfl⟩

theorem test_decode_add_sub :
    decode OpMap.default [0x20, 0x01, 0x02] = .ok (.mathAddReg 1 2, []) ∧
    decode OpMap.default [0x21] = .ok (.mathAddStack, []) ∧
    decode OpMap.default [0x22, 0x06, 0x01, 0x02, 0x03, 0x04] = .ok (.mathAddRegLit 6 0x01020304, []) ∧
    decode OpMap.default [0x23, 0xA1, 0xB2, 0xC3, 0xD4] = .ok (.mathAddStackLit 0xA1B2C3D4, []) ∧
    decode OpMap.default [0x24, 0x01, 0x02] = .ok (.mathSubReg 1 2, []) ∧
    decode OpMap.default [0x25] = .ok (.mathSubStack, []) ∧
    decode OpMap.default [0x26, 0x06, 0x01, 0x02, 0x03, 0x04] = .ok (.mathSubRegLit 6 0x01020304, []) ∧
    decode OpMap.default [0x27, 0xA1, 0xB2, 0xC3, 0xD4] = .ok (.mathSubStackLit 0xA1B2C3D4, []) :=
  ⟨rfl, rfl, rfl, rfl, rfl, rfl, rfl, rfl⟩

theorem test_decode_mul_div :
    decode OpMap.default [0x28, 0x01, 0x02] = .ok (.mathMulReg 1 2, []) ∧
    decode OpMap.default [0x29] = .ok (.mathMulStack, []) ∧
    decode OpMap.default [0x2A, 0x06, 0x01, 0x02, 0x03, 0x04] = .ok (.mathMulRegLit 6 0x01020304, []) ∧
    decode OpMap.default [0x2B, 0xA1, 0xB2, 0xC3, 0xD4] = .ok (.mathMulStackLit 0xA1B2C3D4, []) ∧
    decode OpMap.default [0x2C, 0x01, 0x02] = .ok (.mathDivReg 1 2, []) ∧
    decode OpMap.default [0x2D] = .ok (.mathDivStack, []) ∧
    decode OpMap.default [0x2E, 0x06, 0x01, 0x02, 0x03, 0x04] = .ok (.mathDivRegLit 6 0x01020304, []) ∧
    decode OpMap.default [0x2F, 0xA1, 0xB2, 0xC3, 0xD4] = .ok (.mathDivStackLit 0xA1B2C3D4, []) :=
  ⟨rfl, rfl, rfl, rfl, rfl, rfl, rfl, rfl⟩

theorem test_decode_bitwise :
    decode OpMap.default [0x30, 0x01, 0x02] = .ok (.mathAndReg 1 2, []) ∧
    decode OpMap.default [0x31] = .ok (.mathAndStack, []) ∧
    decode OpMap.default [0x32, 0x06, 0x01, 0x02, 0x03, 0x04] = .ok (.mathAndRegLit 6 0x01020304, []) ∧
    decode OpMap.default [0x33, 0xA1, 0xB2, 0xC3, 0xD4] = .ok (.mathAndStackLit 0xA1B2C3D4, []) ∧
    decode OpMap.default [0x34, 0x01, 0x02] = .ok (.mathOrReg 1 2, []) ∧
    decode OpMap.default [0x35] = .ok (.mathOrStack, []) ∧
    decode OpMap.default [0x36, 0x06, 0x01, 0x02, 0x03, 0x04] = .ok (.mathOrRegLit 6 0x01020304, []) ∧
    decode OpMap.default [0x37, 0xA1, 0xB2, 0xC3, 0xD4] = .ok (.mathOrStackLit 0xA1B2C3D4, []) ∧
    decode OpMap.default [0x38, 0x01, 0x02] = .ok (.mathXorReg 1 2, []) ∧
    decode OpMap.default [0x39] = .ok (.mathXorStack, []) ∧
    decode OpMap.default [0x3A, 0x06, 0x01, 0x02, 0x03, 0x04] = .ok (.mathXorRegLit 6 0x01020304, []) ∧
    decode OpMap.default [0x3B, 0xA1, 0xB2, 0xC3, 0xD4] = .ok (.mathXorStackLit 0xA1B2C3D4, []) :=
  ⟨rfl, rfl, rfl, rfl, rfl, rfl, rfl, rfl, rfl, rfl, rfl, rfl⟩

theorem test_decode_shift :
    decode OpMap.default [0x3C, 0x01, 0x02] = .ok (.mathShlReg 1 2, []) ∧
    decode OpMap.default [0x3D] = .ok (.mathShlStack, []) ∧
    decode OpMap.default [0x3E, 0x06, 0x01, 0x02, 0x03, 0x04] = .ok (.mathShlRegLit 6 0x01020304, []) ∧
    decode OpMap.default [0x3F, 0xA1, 0xB2, 0xC3, 0xD4] = .ok (.mathShlStackLit 0xA1B2C3D4, []) ∧
    decode OpMap.default [0x40, 0x01, 0x02] = .ok (.mathShrReg 1 2, []) ∧
    decode OpMap.default [0x41] = .ok (.mathShrStack, []) ∧
    decode OpMap.default [0x42, 0x06, 0x01, 0x02, 0x03, 0x04] = .ok (.mathShrRegLit 6 0x01020304, []) ∧
    decode OpMap.default [0x43, 0xA1, 0xB2, 0xC3, 0xD4] = .ok (.mathShrStackLit 0xA1B2C3D4, []) :=
  ⟨rfl, rfl, rfl, rfl, rfl, rfl, rfl, rfl⟩

theorem test_decode_unary :
    decode OpMap.default [0x50, 0x05] = .ok (.mathNotReg 5, []) ∧
    decode OpMap.default [0x51] = .ok (.mathNotStack, []) ∧
    decode OpMap.default [0x52, 0x05] = .ok (.mathIncReg 5, []) ∧
    decode OpMap.default [0x53] = .ok (.mathIncStack, []) ∧
    decode OpMap.default [0x54, 0x05] = .ok (.mathDecReg 5, []) ∧
    decode OpMap.default [0x55] = .ok (.mathDecStack, []) ∧
    decode OpMap.default [0x56, 0x05] = .ok (.mathSqrtReg 5, []) ∧
    decode OpMap.default [0x57] = .ok (.mathSqrtStack, []) ∧
    decode OpMap.default [0x58, 0x05] = .ok (.mathRandReg 5, []) ∧
    decode OpMap.default [0x59] = .ok (.mathRandStack, []) ∧
    decode OpMap.default [0x5A, 0x01, 0x02] = .ok (.mathPowReg 1 2, []) ∧
    decode OpMap.default [0x5B] = .ok (.mathPowStack, []) :=
  ⟨rfl, rfl, rfl, rfl, rfl, rfl, rfl, rfl, rfl, rfl, rfl, rfl⟩

theorem test_decode_compare :
    decode OpMap.default [0x60, 0x01, 0x02] = .ok (.compareRegReg 1 2, []) ∧
    decode OpMap.default [0x61, 0x06, 0x01, 0x02, 0x03, 0x04] = .ok (.compareRegLit 6 0x01020304, []) ∧
    decode OpMap.default [0x62, 0xA1, 0xB2, 0xC3, 0xD4] = .ok (.compareStackLit 0xA1B2C3D4, []) ∧
    decode OpMap.default [0x63] = .ok (.flagReset, []) :=
  ⟨rfl, rfl, rfl, rfl⟩

theorem test_decode_rejects :
    decode OpMap.default [] = .error .noOpcodeByte ∧ decode OpMap.default [0x02, 0x00] = .error (.unassignedOpcode 0x02) ∧
    decode OpMap.default [0x10, 0x00, 0x00, 0x00] = .error (.operandPastEnd 0x10) ∧
    decode OpMap.default [0x17, 0x01] = .error (.operandPastEnd 0x17) := by decide

/-- The table's numbering: bit 0 of the word is bit 0 of the first byte; operand bytes are zero. -/
theorem test_decodeTableWord :
    decodeTableWord 8 0x00 = some .exit ∧ decodeTableWord 8 0x16 = some (.movLitReg 0 0) ∧
    decodeTableWord 8 0x90 = some .syscall ∧ decodeTableWord 8 0xFF = none := by decide

/-! ### One step of every instruction (`95_test_vectors.md` 2.3) -/

/-- Reset with a program, first registers and a stack (bottom first, as the vectors list it). -/
def start (bytes : List Byte) (regs stack : List Word) : State :=
  { State.reset with
    prog := bytes
    regs := (regs ++ List.replicate 8 0).take 8
    stack := stack.reverse }

/-- What one step leaves, seen through `f`; none where it answers no next state. -/
def sees {α : Type} (f : State → α) (s : State) : Option α :=
  match step s with
  | .next t => some (f t)
  | .fault _ => none
  | .refused _ => none

/-- The first registers, the stack bottom first, `pc`. -/
def regsStackPc (n : Nat) (t : State) : List Word × List Word × Word :=
  (t.regs.take n, t.stack.reverse, t.pc)

/-- The `FLAGS` byte (`10_state.md` R29), the stack bottom first, `pc`. -/
def flagsStackPc (t : State) : Byte × List Word × Word := (t.flags.toByte, t.stack.reverse, t.pc)

/-- The word at an address, the stack bottom first, `pc`. -/
def wordStackPc (a : Nat) (t : State) : Word × List Word × Word :=
  (Memory.readWord t.mem a, t.stack.reverse, t.pc)

/-- The error code, opcode and offset recorded, and the stack bottom first. -/
def errorStack (t : State) : Option (Nat × Option Byte × Word) × List Word :=
  (t.err.map fun e => (e.kind.code, e.opcode, e.offset), t.stack.reverse)

/-- V24. -/
theorem test_math_add_reg :
    sees (regsStackPc 3)
      (start [0x20, 0x01, 0x02] [0, 100, 7] []) =
    some ([0, 107, 7], [], 3) := by decide

/-- V25. -/
theorem test_math_add_stack :
    sees (regsStackPc 0)
      (start [0x21] [] [9, 100, 7]) =
    some ([], [9, 107], 1) := by decide

/-- V26. -/
theorem test_math_add_reg_lit :
    sees (regsStackPc 2)
      (start [0x22, 0x01, 0x00, 0x00, 0x00, 0x07] [0, 100] []) =
    some ([0, 107], [], 6) := by decide

/-- V27. -/
theorem test_math_add_stack_lit :
    sees (regsStackPc 0)
      (start [0x23, 0x00, 0x00, 0x00, 0x07] [] [9, 100]) =
    some ([], [9, 107], 5) := by decide

/-- V28. -/
theorem test_math_sub_reg :
    sees (regsStackPc 3)
      (start [0x24, 0x01, 0x02] [0, 100, 7] []) =
    some ([0, 93, 7], [], 3) := by decide

/-- V29. -/
theorem test_math_sub_stack :
    sees (regsStackPc 0)
      (start [0x25] [] [9, 100, 7]) =
    some ([], [9, 93], 1) := by decide

/-- V30. -/
theorem test_math_sub_reg_lit :
    sees (regsStackPc 2)
      (start [0x26, 0x01, 0x00, 0x00, 0x00, 0x07] [0, 100] []) =
    some ([0, 93], [], 6) := by decide

/-- V31. -/
theorem test_math_sub_stack_lit :
    sees (regsStackPc 0)
      (start [0x27, 0x00, 0x00, 0x00, 0x07] [] [9, 100]) =
    some ([], [9, 93], 5) := by decide

/-- V32. -/
theorem test_math_mul_reg :
    sees (regsStackPc 3)
      (start [0x28, 0x01, 0x02] [0, 100, 7] []) =
    some ([0, 700, 7], [], 3) := by decide

/-- V33. -/
theorem test_math_mul_stack :
    sees (regsStackPc 0)
      (start [0x29] [] [9, 100, 7]) =
    some ([], [9, 700], 1) := by decide

/-- V34. -/
theorem test_math_mul_reg_lit :
    sees (regsStackPc 2)
      (start [0x2A, 0x01, 0x00, 0x00, 0x00, 0x07] [0, 100] []) =
    some ([0, 700], [], 6) := by decide

/-- V35. -/
theorem test_math_mul_stack_lit :
    sees (regsStackPc 0)
      (start [0x2B, 0x00, 0x00, 0x00, 0x07] [] [9, 100]) =
    some ([], [9, 700], 5) := by decide

/-- V36. -/
theorem test_math_div_reg :
    sees (regsStackPc 3)
      (start [0x2C, 0x01, 0x02] [0, 100, 7] []) =
    some ([0, 14, 7], [], 3) := by decide

/-- V37. -/
theorem test_math_div_stack :
    sees (regsStackPc 0)
      (start [0x2D] [] [9, 100, 7]) =
    some ([], [9, 14], 1) := by decide

/-- V38. -/
theorem test_math_div_reg_lit :
    sees (regsStackPc 2)
      (start [0x2E, 0x01, 0x00, 0x00, 0x00, 0x07] [0, 100] []) =
    some ([0, 14], [], 6) := by decide

/-- V39. -/
theorem test_math_div_stack_lit :
    sees (regsStackPc 0)
      (start [0x2F, 0x00, 0x00, 0x00, 0x07] [] [9, 100]) =
    some ([], [9, 14], 5) := by decide

/-- V40. -/
theorem test_math_and_reg :
    sees (regsStackPc 3)
      (start [0x30, 0x01, 0x02] [0, 100, 7] []) =
    some ([0, 4, 7], [], 3) := by decide

/-- V41. -/
theorem test_math_and_stack :
    sees (regsStackPc 0)
      (start [0x31] [] [9, 100, 7]) =
    some ([], [9, 4], 1) := by decide

/-- V42. -/
theorem test_math_and_reg_lit :
    sees (regsStackPc 2)
      (start [0x32, 0x01, 0x00, 0x00, 0x00, 0x07] [0, 100] []) =
    some ([0, 4], [], 6) := by decide

/-- V43. -/
theorem test_math_and_stack_lit :
    sees (regsStackPc 0)
      (start [0x33, 0x00, 0x00, 0x00, 0x07] [] [9, 100]) =
    some ([], [9, 4], 5) := by decide

/-- V44. -/
theorem test_math_or_reg :
    sees (regsStackPc 3)
      (start [0x34, 0x01, 0x02] [0, 100, 7] []) =
    some ([0, 103, 7], [], 3) := by decide

/-- V45. -/
theorem test_math_or_stack :
    sees (regsStackPc 0)
      (start [0x35] [] [9, 100, 7]) =
    some ([], [9, 103], 1) := by decide

/-- V46. -/
theorem test_math_or_reg_lit :
    sees (regsStackPc 2)
      (start [0x36, 0x01, 0x00, 0x00, 0x00, 0x07] [0, 100] []) =
    some ([0, 103], [], 6) := by decide

/-- V47. -/
theorem test_math_or_stack_lit :
    sees (regsStackPc 0)
      (start [0x37, 0x00, 0x00, 0x00, 0x07] [] [9, 100]) =
    some ([], [9, 103], 5) := by decide

/-- V48. -/
theorem test_math_xor_reg :
    sees (regsStackPc 3)
      (start [0x38, 0x01, 0x02] [0, 100, 7] []) =
    some ([0, 99, 7], [], 3) := by decide

/-- V49. -/
theorem test_math_xor_stack :
    sees (regsStackPc 0)
      (start [0x39] [] [9, 100, 7]) =
    some ([], [9, 99], 1) := by decide

/-- V50. -/
theorem test_math_xor_reg_lit :
    sees (regsStackPc 2)
      (start [0x3A, 0x01, 0x00, 0x00, 0x00, 0x07] [0, 100] []) =
    some ([0, 99], [], 6) := by decide

/-- V51. -/
theorem test_math_xor_stack_lit :
    sees (regsStackPc 0)
      (start [0x3B, 0x00, 0x00, 0x00, 0x07] [] [9, 100]) =
    some ([], [9, 99], 5) := by decide

/-- V52. -/
theorem test_math_shl_reg :
    sees (regsStackPc 3)
      (start [0x3C, 0x01, 0x02] [0, 100, 7] []) =
    some ([0, 12800, 7], [], 3) := by decide

/-- V53. -/
theorem test_math_shl_stack :
    sees (regsStackPc 0)
      (start [0x3D] [] [9, 100, 7]) =
    some ([], [9, 12800], 1) := by decide

/-- V54. -/
theorem test_math_shl_reg_lit :
    sees (regsStackPc 2)
      (start [0x3E, 0x01, 0x00, 0x00, 0x00, 0x07] [0, 100] []) =
    some ([0, 12800], [], 6) := by decide

/-- V55. -/
theorem test_math_shl_stack_lit :
    sees (regsStackPc 0)
      (start [0x3F, 0x00, 0x00, 0x00, 0x07] [] [9, 100]) =
    some ([], [9, 12800], 5) := by decide

/-- V56. -/
theorem test_math_shr_reg :
    sees (regsStackPc 3)
      (start [0x40, 0x01, 0x02] [0, 100, 7] []) =
    some ([0, 0, 7], [], 3) := by decide

/-- V57. -/
theorem test_math_shr_stack :
    sees (regsStackPc 0)
      (start [0x41] [] [9, 100, 7]) =
    some ([], [9, 0], 1) := by decide

/-- V58. -/
theorem test_math_shr_reg_lit :
    sees (regsStackPc 2)
      (start [0x42, 0x01, 0x00, 0x00, 0x00, 0x07] [0, 100] []) =
    some ([0, 0], [], 6) := by decide

/-- V59. -/
theorem test_math_shr_stack_lit :
    sees (regsStackPc 0)
      (start [0x43, 0x00, 0x00, 0x00, 0x07] [] [9, 100]) =
    some ([], [9, 0], 5) := by decide

/-- V60. -/
theorem test_math_not_reg :
    sees (regsStackPc 2)
      (start [0x50, 0x01] [0, 100] []) =
    some ([0, 0xFFFFFF9B], [], 2) := by decide

/-- V61. -/
theorem test_math_not_stack :
    sees (regsStackPc 0)
      (start [0x51] [] [9, 100]) =
    some ([], [9, 0xFFFFFF9B], 1) := by decide

/-- V62. -/
theorem test_math_inc_reg :
    sees (regsStackPc 2)
      (start [0x52, 0x01] [0, 100] []) =
    some ([0, 101], [], 2) := by decide

/-- V63. -/
theorem test_math_inc_stack :
    sees (regsStackPc 0)
      (start [0x53] [] [9, 100]) =
    some ([], [9, 101], 1) := by decide

/-- V64. -/
theorem test_math_dec_reg :
    sees (regsStackPc 2)
      (start [0x54, 0x01] [0, 100] []) =
    some ([0, 99], [], 2) := by decide

/-- V65. -/
theorem test_math_dec_stack :
    sees (regsStackPc 0)
      (start [0x55] [] [9, 100]) =
    some ([], [9, 99], 1) := by decide

/-- V66. -/
theorem test_math_sqrt_reg :
    sees (regsStackPc 2)
      (start [0x56, 0x01] [0, 100] []) =
    some ([0, 10], [], 2) := by decide

/-- V67. -/
theorem test_math_sqrt_stack :
    sees (regsStackPc 0)
      (start [0x57] [] [9, 100]) =
    some ([], [9, 10], 1) := by decide

/-- V70. -/
theorem test_math_pow_reg :
    sees (regsStackPc 3)
      (start [0x5A, 0x01, 0x02] [0, 3, 4] []) =
    some ([0, 81, 4], [], 3) := by decide

/-- V71. -/
theorem test_math_pow_stack :
    sees (regsStackPc 0)
      (start [0x5B] [] [9, 3, 4]) =
    some ([], [9, 81], 1) := by decide

/-- V72. -/
theorem test_compare_reg_reg :
    sees flagsStackPc
      (start [0x60, 0x01, 0x02] [0, 100, 7] []) =
    some (6, [], 3) := by decide

/-- V73. -/
theorem test_compare_reg_lit :
    sees flagsStackPc
      (start [0x61, 0x01, 0x00, 0x00, 0x00, 0x64] [0, 100] []) =
    some (1, [], 6) := by decide

/-- V74. -/
theorem test_compare_stack_lit :
    sees flagsStackPc
      (start [0x62, 0x00, 0x00, 0x00, 0x65] [] [9, 100]) =
    some (10, [9, 100], 5) := by decide

/-- V75. -/
theorem test_flag_reset :
    sees flagsStackPc
      { start [0x63] [] [] with flags := { Flags.clear with equal := true, overflow := true } } =
    some (0, [], 1) := by decide

/-- V76. -/
theorem test_push_lit :
    sees (regsStackPc 0)
      (start [0x10, 0xDE, 0xAD, 0xBE, 0xEF] [] [9]) =
    some ([], [9, 0xDEADBEEF], 5) := by decide

/-- V77. -/
theorem test_push_reg :
    sees (regsStackPc 2)
      (start [0x11, 0x01] [0, 100] [9]) =
    some ([0, 100], [9, 100], 2) := by decide

/-- V78. -/
theorem test_push_mem :
    sees (regsStackPc 0)
      { start [0x12, 0x00, 0x00, 0x00, 0x10] [] [9] with mem := [(16, 0xDE), (17, 0xAD), (18, 0xBE), (19, 0xEF)] } =
    some ([], [9, 0xDEADBEEF], 5) := by decide

/-- V79. -/
theorem test_pop_reg :
    sees (regsStackPc 2)
      (start [0x13, 0x01] [0, 0] [9, 100]) =
    some ([0, 100], [9], 2) := by decide

/-- V80. -/
theorem test_pop_memory :
    sees (wordStackPc 16)
      (start [0x14, 0x00, 0x00, 0x00, 0x10] [] [9, 0xDEADBEEF]) =
    some (0xDEADBEEF, [9], 5) := by decide

/-- V81. -/
theorem test_stack_dupe :
    sees (regsStackPc 0)
      (start [0x15] [] [9, 100]) =
    some ([], [9, 100, 100], 1) := by decide

/-- V82. -/
theorem test_mov_lit_reg :
    sees (regsStackPc 2)
      (start [0x16, 0x01, 0xDE, 0xAD, 0xBE, 0xEF] [0, 0] []) =
    some ([0, 0xDEADBEEF], [], 6) := by decide

/-- V83. -/
theorem test_mov_reg_reg :
    sees (regsStackPc 3)
      (start [0x17, 0x01, 0x02] [0, 100, 7] []) =
    some ([0, 100, 100], [], 3) := by decide

/-- V84. -/
theorem test_mov_mem_reg :
    sees (regsStackPc 2)
      { start [0x18, 0x01, 0x00, 0x00, 0x00, 0x10] [0, 0] [] with mem := [(16, 0xDE), (17, 0xAD), (18, 0xBE), (19, 0xEF)] } =
    some ([0, 0xDEADBEEF], [], 6) := by decide

/-- V85. -/
theorem test_mov_reg_mem :
    sees (wordStackPc 16)
      (start [0x19, 0x01, 0x00, 0x00, 0x00, 0x10] [0, 0xDEADBEEF] []) =
    some (0xDEADBEEF, [], 6) := by decide

/-- V86. -/
theorem test_mov_lit_mem :
    sees (wordStackPc 16)
      (start [0x1A, 0xDE, 0xAD, 0xBE, 0xEF, 0x00, 0x00, 0x00, 0x10] [] []) =
    some (0xDEADBEEF, [], 9) := by decide

/-- V87. -/
theorem test_mov_mem_mem :
    sees (wordStackPc 32)
      { start [0x1B, 0x00, 0x00, 0x00, 0x10, 0x00, 0x00, 0x00, 0x20] [] [] with mem := [(16, 0xDE), (17, 0xAD), (18, 0xBE), (19, 0xEF)] } =
    some (0xDEADBEEF, [], 9) := by decide

/-- V88. -/
theorem test_jump_equal :
    sees flagsStackPc
      { start [0x71, 0x00, 0x00, 0x00, 0x40] [] [] with flags := { Flags.clear with equal := true } } =
    some (1, [], 64) := by decide

/-- V89. -/
theorem test_jump_equal_not_taken :
    sees flagsStackPc
      { start [0x71, 0x00, 0x00, 0x00, 0x40] [] [] with flags := { Flags.clear with notEqual := true, greater := true, smaller := true, overflow := true } } =
    some (30, [], 5) := by decide

/-- V90. -/
theorem test_jump_not_equal :
    sees flagsStackPc
      { start [0x72, 0x00, 0x00, 0x00, 0x40] [] [] with flags := { Flags.clear with notEqual := true } } =
    some (2, [], 64) := by decide

/-- V91. -/
theorem test_jump_not_equal_not_taken :
    sees flagsStackPc
      { start [0x72, 0x00, 0x00, 0x00, 0x40] [] [] with flags := { Flags.clear with equal := true, greater := true, smaller := true, overflow := true } } =
    some (29, [], 5) := by decide

/-- V92. -/
theorem test_jump_greater :
    sees flagsStackPc
      { start [0x73, 0x00, 0x00, 0x00, 0x40] [] [] with flags := { Flags.clear with greater := true } } =
    some (4, [], 64) := by decide

/-- V93. -/
theorem test_jump_greater_not_taken :
    sees flagsStackPc
      { start [0x73, 0x00, 0x00, 0x00, 0x40] [] [] with flags := { Flags.clear with equal := true, notEqual := true, smaller := true, overflow := true } } =
    some (27, [], 5) := by decide

/-- V94. -/
theorem test_jump_smaller :
    sees flagsStackPc
      { start [0x74, 0x00, 0x00, 0x00, 0x40] [] [] with flags := { Flags.clear with smaller := true } } =
    some (8, [], 64) := by decide

/-- V95. -/
theorem test_jump_smaller_not_taken :
    sees flagsStackPc
      { start [0x74, 0x00, 0x00, 0x00, 0x40] [] [] with flags := { Flags.clear with equal := true, notEqual := true, greater := true, overflow := true } } =
    some (23, [], 5) := by decide

/-- V96. -/
theorem test_jump_overflow :
    sees flagsStackPc
      { start [0x75, 0x00, 0x00, 0x00, 0x40] [] [] with flags := { Flags.clear with overflow := true } } =
    some (16, [], 64) := by decide

/-- V97. -/
theorem test_jump_overflow_not_taken :
    sees flagsStackPc
      { start [0x75, 0x00, 0x00, 0x00, 0x40] [] [] with flags := { Flags.clear with equal := true, notEqual := true, greater := true, smaller := true } } =
    some (15, [], 5) := by decide

/-- V98. -/
theorem test_jump_absolute :
    sees flagsStackPc
      (start [0x70, 0x00, 0x00, 0x00, 0x40] [] []) =
    some (0, [], 64) := by decide

/-- V99. -/
theorem test_procedure_call :
    sees (regsStackPc 5)
      (start [0x80, 0x00, 0x00, 0x00, 0x40] [1, 2, 3, 4, 5] [9]) =
    some ([1, 2, 3, 4, 5], [9, 1, 2, 3, 4, 0], 64) := by decide

/-- V105. -/
theorem test_nop :
    sees (regsStackPc 0)
      (start [0x01] [] []) =
    some ([], [], 1) := by decide

/-- V106. -/
theorem test_exit :
    sees flagsStackPc
      (start [0x00] [] []) =
    some (32, [], 1) := by decide

/-- V68, for the host's draw, whatever it is. -/
theorem test_math_rand_reg :
    sees (regsStackPc 2) (start [0x58, 0x01] [0, 100] []) = some ([0, Config.randWord 0], [], 2) := rfl

/-- V69: pushes, pops nothing. -/
theorem test_math_rand_stack :
    sees (regsStackPc 0) (start [0x59] [] [9, 100]) = some ([], [9, 100, Config.randWord 0], 1) := rfl

/-- V100, with `sbp` and `cdepth`. -/
theorem test_procedure_return :
    sees (fun t => (regsStackPc 5 t, t.sbp, t.cdepth))
      { start [0x01, 0x01, 0x81] [5, 6, 7, 8, 55] [9, 1, 2, 3, 4, 16, 77, 78] with
        pc := 2, sbp := 6, cdepth := 1 } =
    some (([1, 2, 3, 4, 55], [9], 21), 1, 0) := by decide

/-- V99, `sbp` and `cdepth`. -/
theorem test_procedure_call_frame :
    sees (fun t => (t.sbp, t.cdepth)) (start [0x80, 0x00, 0x00, 0x00, 0x40] [1, 2, 3, 4, 5] [9]) =
    some (6, 1) := by decide

/-- V101 and V104: the requests of the write and decimal services. -/
theorem test_syscall_output :
    sees State.trace
      { start [0x90] [0, 100, 3] [] with mem := [(100, 0x48), (101, 0x69), (102, 0x0A)] } =
      some [.writeChar 0x48, .writeChar 0x69, .writeChar 0x0A] ∧
    sees State.trace (start [0x90] [3, 0xFFFFFFFF] []) = some [.writeDecimal 4294967295] ∧
    sees State.trace (start [0x90] [2, 5, 5] []) = some [.clearTerminal] := by decide

/-- V102: the request of the read service, and RAM, for whatever the host answers. -/
theorem test_syscall_read :
    sees (fun t => (t.trace, t.mem)) (start [0x90] [1, 200, 8] []) =
    some ([.readLine 8 ((Config.inputLine 0).take 8)],
      Memory.writeBytes 200 ((Config.inputLine 0).take 8) []) := rfl

/-! ### Corner cases (`95_test_vectors.md` E4, E5, 2.1, 2.2, 2.4, 2.5) -/

/-- The ADD rows of `95_test_vectors.md` 2.1. -/
theorem test_aluAdd :
    aluAdd 0 0 = .ok ⟨0, some false⟩ ∧
    aluAdd 1 2 = .ok ⟨3, some false⟩ ∧
    aluAdd 0xFFFFFFFF 0 = .ok ⟨0xFFFFFFFF, some false⟩ ∧
    aluAdd 0xFFFFFFFF 1 = .ok ⟨0, some true⟩ ∧
    aluAdd 0xFFFFFFFF 0xFFFFFFFF = .ok ⟨0xFFFFFFFE, some true⟩ ∧
    aluAdd 0x7FFFFFFF 1 = .ok ⟨0x80000000, some false⟩ ∧
    aluAdd 0x80000000 0x80000000 = .ok ⟨0, some true⟩ ∧
    aluAdd 0xFFFFFFFE 1 = .ok ⟨0xFFFFFFFF, some false⟩ :=
  ⟨rfl, rfl, rfl, rfl, rfl, rfl, rfl, rfl⟩

/-- The SUB rows of `95_test_vectors.md` 2.1. -/
theorem test_aluSub :
    aluSub 0 0 = .ok ⟨0, some false⟩ ∧
    aluSub 5 3 = .ok ⟨2, some false⟩ ∧
    aluSub 3 5 = .ok ⟨0xFFFFFFFE, some true⟩ ∧
    aluSub 0 1 = .ok ⟨0xFFFFFFFF, some true⟩ ∧
    aluSub 0 0xFFFFFFFF = .ok ⟨1, some true⟩ ∧
    aluSub 0x80000000 1 = .ok ⟨0x7FFFFFFF, some false⟩ ∧
    aluSub 0xFFFFFFFF 0xFFFFFFFF = .ok ⟨0, some false⟩ ∧
    aluSub 7 7 = .ok ⟨0, some false⟩ :=
  ⟨rfl, rfl, rfl, rfl, rfl, rfl, rfl, rfl⟩

/-- The MUL rows of `95_test_vectors.md` 2.1. -/
theorem test_aluMul :
    aluMul 1 0 = .error .divisionByZero ∧
    aluMul 6 7 = .ok ⟨42, some false⟩ ∧
    aluMul 0x00010000 65535 = .ok ⟨0xFFFF0000, some false⟩ ∧
    aluMul 0x00010000 0x00010000 = .ok ⟨0, some true⟩ ∧
    aluMul 65535 0x00010001 = .ok ⟨0xFFFFFFFF, some false⟩ ∧
    aluMul 0xFFFFFFFF 2 = .ok ⟨0xFFFFFFFE, some true⟩ ∧
    aluMul 0xFFFFFFFF 0xFFFFFFFF = .ok ⟨1, some true⟩ ∧
    aluMul 3 0x55555555 = .ok ⟨0xFFFFFFFF, some false⟩ ∧
    aluMul 3 0x55555556 = .ok ⟨2, some true⟩ :=
  ⟨rfl, rfl, rfl, rfl, rfl, rfl, rfl, rfl, rfl⟩

/-- The DIV rows of `95_test_vectors.md` 2.1. -/
theorem test_aluDiv :
    aluDiv 7 2 = .ok ⟨3, none⟩ ∧
    aluDiv 7 8 = .ok ⟨0, none⟩ ∧
    aluDiv 0xFFFFFFFF 2 = .ok ⟨0x7FFFFFFF, none⟩ ∧
    aluDiv 0x80000000 0xFFFFFFFF = .ok ⟨0, none⟩ ∧
    aluDiv 1 0 = .error .divisionByZero :=
  ⟨rfl, rfl, rfl, rfl, rfl⟩

/-- The AND rows of `95_test_vectors.md` 2.1. -/
theorem test_aluAnd :
    aluAnd 0xFF00FF00 0x0FF00FF0 = .ok ⟨0x0F000F00, none⟩ ∧
    aluAnd 0xFFFFFFFF 0 = .ok ⟨0, none⟩ ∧
    aluAnd 0xFFFFFFFF 0xFFFFFFFF = .ok ⟨0xFFFFFFFF, none⟩ :=
  ⟨rfl, rfl, rfl⟩

/-- The OR rows of `95_test_vectors.md` 2.1. -/
theorem test_aluOr :
    aluOr 0xFF00FF00 0x0FF00FF0 = .ok ⟨0xFFF0FFF0, none⟩ ∧
    aluOr 0 0 = .ok ⟨0, none⟩ ∧
    aluOr 0x80000000 1 = .ok ⟨0x80000001, none⟩ :=
  ⟨rfl, rfl, rfl⟩

/-- The XOR rows of `95_test_vectors.md` 2.1. -/
theorem test_aluXor :
    aluXor 0xFF00FF00 0x0FF00FF0 = .ok ⟨0xF0F0F0F0, none⟩ ∧
    aluXor 0xFFFFFFFF 0xFFFFFFFF = .ok ⟨0, none⟩ ∧
    aluXor 0x12345678 0 = .ok ⟨0x12345678, none⟩ :=
  ⟨rfl, rfl, rfl⟩

/-- The SHL rows of `95_test_vectors.md` 2.1. -/
theorem test_aluShl :
    aluShl 1 0 = .ok ⟨1, none⟩ ∧
    aluShl 1 31 = .ok ⟨0x80000000, none⟩ ∧
    aluShl 1 32 = .ok ⟨0, none⟩ ∧
    aluShl 0xFFFFFFFF 4 = .ok ⟨0xFFFFFFF0, none⟩ ∧
    aluShl 0xFFFFFFFF 0xFFFFFFFF = .ok ⟨0, none⟩ :=
  ⟨rfl, rfl, rfl, rfl, rfl⟩

/-- The SHR rows of `95_test_vectors.md` 2.1. -/
theorem test_aluShr :
    aluShr 0x80000000 1 = .ok ⟨0x40000000, none⟩ ∧
    aluShr 0x80000000 31 = .ok ⟨1, none⟩ ∧
    aluShr 0x80000000 32 = .ok ⟨0, none⟩ ∧
    aluShr 0xFFFFFFFF 4 = .ok ⟨0x0FFFFFFF, none⟩ ∧
    aluShr 0xFFFFFFFF 256 = .ok ⟨0, none⟩ :=
  ⟨rfl, rfl, rfl, rfl, rfl⟩

/-- The NOT rows of `95_test_vectors.md` 2.2. -/
theorem test_aluNot :
    aluNot 0 = ⟨0xFFFFFFFF, none⟩ ∧
    aluNot 0xFFFFFFFF = ⟨0, none⟩ ∧
    aluNot 0x0F0F0F0F = ⟨0xF0F0F0F0, none⟩ :=
  ⟨rfl, rfl, rfl⟩

/-- The INC rows of `95_test_vectors.md` 2.2. -/
theorem test_aluInc :
    aluInc 0 = ⟨1, some false⟩ ∧
    aluInc 41 = ⟨42, some false⟩ ∧
    aluInc 0xFFFFFFFE = ⟨0xFFFFFFFF, some false⟩ ∧
    aluInc 0xFFFFFFFF = ⟨0, some true⟩ :=
  ⟨rfl, rfl, rfl, rfl⟩

/-- The DEC rows of `95_test_vectors.md` 2.2. -/
theorem test_aluDec :
    aluDec 0 = ⟨0xFFFFFFFF, some true⟩ ∧
    aluDec 1 = ⟨0, some false⟩ ∧
    aluDec 42 = ⟨41, some false⟩ ∧
    aluDec 0xFFFFFFFF = ⟨0xFFFFFFFE, some false⟩ :=
  ⟨rfl, rfl, rfl, rfl⟩

/-- The SQRT rows of `95_test_vectors.md` 2.2. -/
theorem test_aluSqrt :
    aluSqrt 0 = ⟨0, none⟩ ∧
    aluSqrt 3 = ⟨1, none⟩ ∧
    aluSqrt 4 = ⟨2, none⟩ ∧
    aluSqrt 0xFFFE0000 = ⟨65534, none⟩ ∧
    aluSqrt 0xFFFE0001 = ⟨65535, none⟩ ∧
    aluSqrt 0xFFFFFFFF = ⟨65535, none⟩ ∧
    aluSqrt 0x7FFFFFFF = ⟨46340, none⟩ := by decide

/-- The POW rows of `95_test_vectors.md` 2.2. -/
theorem test_aluPow :
    aluPow 0 0 = .ok ⟨1, some false⟩ ∧
    aluPow 0 0xFFFFFFFF = .ok ⟨0, some false⟩ ∧
    aluPow 2 10 = .ok ⟨1024, some false⟩ ∧
    aluPow 2 31 = .ok ⟨0x80000000, some false⟩ ∧
    aluPow 2 32 = .ok ⟨0, some true⟩ ∧
    aluPow 3 20 = .ok ⟨0xCFD41B91, some false⟩ ∧
    aluPow 0x00010000 2 = .ok ⟨0, some true⟩ ∧
    aluPow 0xFFFFFFFF 2 = .ok ⟨1, some true⟩ ∧
    aluPow 1626 3 = .ok ⟨0x003CA7A8, some true⟩ :=
  ⟨rfl, rfl, rfl, rfl, rfl, rfl, rfl, rfl, rfl⟩

/-- V107, V113, V114, V115: the same register twice; who clears and who leaves `overflow`. -/
theorem test_overflow_flag_is_rewritten_or_left :
    sees flagsStackPc (start [0x20, 0x01, 0x01] [0, 0x80000000] []) = some (16, [], 3) ∧
    sees flagsStackPc { start [0x20, 0x01, 0x02] [0, 1, 2] [] with flags := { Flags.clear with overflow := true } } =
      some (0, [], 3) ∧
    sees flagsStackPc { start [0x30, 0x01, 0x02] [0, 1, 2] [] with flags := { Flags.clear with overflow := true } } =
      some (16, [], 3) ∧
    sees flagsStackPc { start [0x2C, 0x01, 0x02] [0, 1, 2] [] with flags := { Flags.clear with overflow := true } } =
      some (16, [], 3) := by decide

/-- V1, V2, V3, V121, V128, V142, V144: errors with the state they leave. -/
theorem test_errors_keep_the_state :
    sees errorStack (start [0x81] [] [1, 2, 3, 4, 5, 6]) = some (some (5, some 0x81, 0), [1, 2, 3, 4, 5, 6]) ∧
    sees errorStack (start [0x13, 0x00] [77] []) = some (some (2, some 0x13, 0), []) ∧
    sees errorStack (start [0x29] [] [9, 0]) = some (some (4, some 0x29, 0), [9, 0]) ∧
    sees errorStack (start [0x21] [] [5]) = some (some (2, some 0x21, 0), [5]) ∧
    sees errorStack (start [0x1A, 0x11, 0x22, 0x33, 0x44, 0x00, 0x00, 0x00, 0xFD] [] []) =
      some (some (3, some 0x1A, 0), []) ∧
    sees errorStack (start [0x1A, 0x11, 0x22, 0x33, 0x44, 0xFF, 0xFF, 0xFF, 0xFF] [] []) =
      some (some (3, some 0x1A, 0), []) :=
  ⟨rfl, rfl, rfl, rfl, rfl, rfl⟩

/-- V141: the last word that is in bounds. -/
theorem test_last_word_of_RAM :
    sees State.mem (start [0x1A, 0x11, 0x22, 0x33, 0x44, 0x00, 0x00, 0x00, 0xFC] [] []) =
    some [(252, 0x11), (253, 0x22), (254, 0x33), (255, 0x44)] := by decide

/-- No opcode byte, and an unassigned one (decisions D13, D14 of the spec). -/
theorem test_undecodable :
    sees errorStack (start [] [] []) = some (some (1, none, 0), []) ∧
    sees errorStack (start [0x02] [] []) = some (some (1, some 0x02, 0), []) ∧
    sees errorStack (start [0x11, 0x08] [] []) = some (some (1, some 0x11, 0), []) := ⟨rfl, rfl, rfl⟩

/-- V167: the first index out of range and the second byte missing; the literal decoder stops at the
index, and the step records the same. -/
theorem test_first_operand_is_examined_first :
    State.fetchRegAt (start [0x20, 0x09] [] []) 0 = none ∧
    State.fetchLiteral (start [0x20, 0x09] [] []) = .error (some 0x20) ∧
    sees errorStack (start [0x20, 0x09] [] []) = some (some (1, some 0x20, 0), []) := ⟨rfl, rfl, rfl⟩

/-- `93_implementation_defined.md` U18: under another injective map only the bytes change; a map with a
repeated byte, or without a byte for each instruction, is refused. -/
theorem test_other_opcode_maps :
    OpMap.legal (OpMap.default.map (· + 0x20)) = true ∧
    sees State.stack { start [0x30, 0, 0, 0, 7] [] [] with opmap := OpMap.default.map (· + 0x20) } =
      some [7] ∧
    sees errorStack { start [0x41] [] [5] with opmap := OpMap.default.map (· + 0x20) } =
      some (some (2, some 0x41, 0), [5]) ∧
    OpMap.legal (OpMap.default.set 74 0x00) = false ∧ OpMap.legal (OpMap.default.take 74) = false :=
  ⟨by decide, rfl, rfl, by decide, by decide⟩

/-- The host's placement: the next step runs the placed instruction. -/
theorem test_withFetchWord :
    (State.reset.withFetchWord 8 0x01).fetch = .ok .nop ∧
    (State.reset.withFetchWord 8 0x16).fetch = .ok (.movLitReg 0 0) ∧
    sees State.pc (State.reset.withFetchWord 8 0x01) = some 1 := by decide

/-- The digits of the decimal service's output (P3 of `95_test_vectors.md`: 72; V104). -/
theorem test_decimal_output :
    HostRequest.output (.writeDecimal 72) = [0x37, 0x32] ∧ HostRequest.output (.writeDecimal 0) = [0x30] ∧
    HostRequest.output (.writeDecimal 4294967295) =
      [0x34, 0x32, 0x39, 0x34, 0x39, 0x36, 0x37, 0x32, 0x39, 0x35] := by decide

/-! ### Witnesses: cases that meet the hypotheses of the obligations -/

/-- A RUNNING state: registers 1 to 8, stack top 1 then 2 then 0, RAM bytes at 252 to 255. -/
def sample : State :=
  { State.reset with
    regs := [1, 2, 3, 4, 5, 6, 7, 8]
    stack := [1, 2, 0]
    mem := [(252, 0x11), (253, 0x22), (254, 0x33), (255, 0x44)] }

theorem witness_DecodedBytesAreTheEncoding :
    decode OpMap.default [0x00] = .ok (.exit, []) ∧
    decode OpMap.default [0x1B, 0, 0, 0, 1, 0, 0, 0, 2, 9] = .ok (.movMemMem 1 2, [9]) := ⟨rfl, rfl⟩

theorem witness_StepRunsTheDecodedInstruction :
    ∃ (s : State) (i : Instr), s.configLegal = true ∧ s.flags.stop = false ∧ s.err = none ∧
      decode s.opmap (s.prog.drop (s.headerSize + s.pc.toNat)) = .ok (i, [0x01]) ∧ i.wellFormed s.nreg = true :=
  ⟨{ sample with prog := [7, 7, 0x00, 0x11, 0x07, 0x01], headerSize := 2, pc := 1 }, .pushReg 7,
    rfl, rfl, rfl, rfl, rfl⟩

theorem witness_UndecodableBytesRaiseDecodeError :
    (∃ s : State, s.configLegal = true ∧ s.flags.stop = false ∧ s.err = none ∧
      s.prog.drop (s.headerSize + s.pc.toNat) = []) ∧
    (∃ s : State, s.configLegal = true ∧ s.flags.stop = false ∧ s.err = none ∧
      s.prog.drop (s.headerSize + s.pc.toNat) = 0x91 :: [5] ∧
      decode OpMap.default (0x91 :: [5]) = .error (.unassignedOpcode 0x91)) ∧
    (∃ s : State, s.configLegal = true ∧ s.flags.stop = false ∧ s.err = none ∧
      s.prog.drop (s.headerSize + s.pc.toNat) = 0x10 :: [1, 2, 3] ∧
      decode OpMap.default (0x10 :: [1, 2, 3]) = .error (.operandPastEnd 0x10)) :=
  ⟨⟨{ sample with pc := 4294967295 }, rfl, rfl, rfl, by simp [sample, State.reset, State.construct, Config.defaultParams]⟩,
    ⟨{ sample with prog := [0x91, 5] }, rfl, rfl, rfl, rfl, rfl⟩,
    ⟨{ sample with prog := [0x10, 1, 2, 3] }, rfl, rfl, rfl, rfl, rfl⟩⟩

theorem witness_StoppedCoreHasNoStep :
    ({ sample with flags := { Flags.clear with stop := true } } : State).configLegal = true ∧
    (∃ s : State, s.configLegal = true ∧ s.err ≠ none) ∧
    ({ sample with regs := [1, 2, 3] } : State).configLegal = false ∧
    ({ sample with headerSize := 1 } : State).configLegal = false ∧
    ({ sample with memSize := 4294967297 } : State).configLegal = false ∧
    ({ sample with opmap := OpMap.default.set 74 0x00 } : State).configLegal = false :=
  ⟨rfl, ⟨{ sample with err := some ⟨.decodeError, none, 0⟩ }, rfl, by simp⟩, rfl, rfl, rfl, rfl⟩

theorem witness_LiteralDecoderAgreesWithFetch :
    (∃ s : State, s.configLegal = true ∧ s.flags.stop = false ∧ s.err = none ∧
      s.prog.length ≤ s.headerSize + 4294967296 ∧ s.fetchLiteral = .ok (.pushReg 7, 1)) ∧
    (∃ s : State, s.configLegal = true ∧ s.flags.stop = false ∧ s.err = none ∧
      s.prog.length ≤ s.headerSize + 4294967296 ∧ s.fetchLiteral = .error (some 0x11)) :=
  ⟨⟨{ sample with prog := [9, 0x11, 7], headerSize := 1, pc := 0 }, rfl, rfl, rfl, by decide, rfl⟩,
    ⟨{ sample with prog := [9, 0x11, 8], headerSize := 1, pc := 0 }, rfl, rfl, rfl, by decide, rfl⟩⟩

theorem witness_AdditionOverflowIsExact :
    (4294967295 : Word).toNat + (1 : Word).toNat > maxWord ∧
    (7 : RegIdx).toNat < sample.nreg ∧
    (∃ s : State, s.reg 7 = 4294967295 ∧ s.reg 6 = 1 ∧ s.nreg = 8 ∧ s.stack = 1 :: 4294967295 :: []) ∧
    (∃ s : State, s.stack = 4294967295 :: []) :=
  ⟨by decide, by decide,
    ⟨{ sample with regs := [0, 0, 0, 0, 0, 0, 1, 4294967295], stack := [1, 4294967295] },
      rfl, rfl, rfl, rfl⟩,
    ⟨{ sample with stack := [4294967295] }, rfl⟩⟩

theorem witness_SubtractionWrapsBelowZero :
    (0 : Word).toNat < (1 : Word).toNat ∧ (7 : RegIdx).toNat < sample.nreg ∧
    (∃ s : State, s.reg 7 = 0 ∧ s.reg 6 = 1 ∧ s.nreg = 8 ∧ s.stack = 1 :: 0 :: []) ∧
    (∃ s : State, s.stack = 0 :: []) :=
  ⟨by decide, by decide,
    ⟨{ sample with regs := [0, 0, 0, 0, 0, 0, 1, 0], stack := [1, 0] }, rfl, rfl, rfl, rfl⟩,
    ⟨{ sample with stack := [0] }, rfl⟩⟩

theorem witness_MultiplicationOverflowIsExact : (0 : Word) = 0 ∧ (4294967295 : Word) ≠ 0 := by decide

/-- Every operation has a result on 1 and 2; registers 7 and 0 are in range; a stack with two values. -/
theorem witness_RegisterRegisterArithmeticResult :
    (7 : RegIdx).toNat < sample.nreg ∧ (0 : RegIdx).toNat < sample.nreg ∧
    ∀ F ∈ binaryFamilies, F.hasResult (sample.reg 7) (sample.reg 0) :=
  ⟨by decide, by decide, by simp [binaryFamilies, sample, State.reg]⟩

theorem witness_StackStackArithmeticResult :
    sample.stack = 1 :: 2 :: [0] ∧ ∀ F ∈ binaryFamilies, F.hasResult 2 1 :=
  ⟨rfl, by simp [binaryFamilies]⟩

theorem witness_RegisterLiteralArithmeticResult :
    (7 : RegIdx).toNat < sample.nreg ∧ ∀ F ∈ binaryFamilies, F.hasResult (sample.reg 7) 4294967295 :=
  ⟨by decide, by simp [binaryFamilies]⟩

theorem witness_StackLiteralArithmeticResult :
    sample.stack = 1 :: [2, 0] ∧ ∀ F ∈ binaryFamilies, F.hasResult 1 4294967295 :=
  ⟨rfl, by simp [binaryFamilies]⟩

theorem witness_UnaryArithmeticResult :
    (7 : RegIdx).toNat < sample.nreg ∧ sample.stack = 1 :: [2, 0] ∧ unaryFamilies.length = 4 :=
  ⟨by decide, rfl, rfl⟩

theorem witness_PowerInstructionsResult :
    (7 : RegIdx).toNat < sample.nreg ∧ (0 : RegIdx).toNat < sample.nreg ∧ sample.stack = 1 :: 2 :: [0] :=
  ⟨by decide, by decide, rfl⟩

theorem witness_RandomInstructionsResult : (7 : RegIdx).toNat < sample.nreg := by decide

theorem witness_ZeroRightOperandRaisesDivisionByZero :
    (∃ s : State, (7 : RegIdx).toNat < s.nreg ∧ (6 : RegIdx).toNat < s.nreg ∧ s.reg 6 = 0) ∧
    (∃ s : State, s.stack = 0 :: 4294967295 :: []) ∧ sample.stack = 1 :: [2, 0] :=
  ⟨⟨{ sample with regs := [1, 1, 1, 1, 1, 1, 0, 9] }, by decide, by decide, rfl⟩,
    ⟨{ sample with stack := [0, 4294967295] }, rfl⟩, rfl⟩

theorem witness_RegisterOutOfRangeRaisesDecodeError :
    (Instr.pushReg 8).wellFormed sample.nreg = false ∧
    (Instr.movRegReg 7 8).wellFormed sample.nreg = false ∧
    (Instr.mathRandReg 255).wellFormed sample.nreg = false := by decide

theorem witness_ShortStackRaisesStackUnderflow :
    (∃ s : State, (Instr.popReg 7).wellFormed s.nreg = true ∧ s.stack.length < stackNeed (.popReg 7)) ∧
    (∃ s : State, Instr.mathAddStack.wellFormed s.nreg = true ∧ s.stack.length = 1 ∧
      s.stack.length < stackNeed .mathAddStack) :=
  ⟨⟨{ sample with stack := [] }, by decide, by decide⟩, ⟨{ sample with stack := [5] }, by decide, rfl, by decide⟩⟩

theorem witness_WordAccessBounds :
    sample.err = none ∧ (7 : RegIdx).toNat < sample.nreg ∧ sample.stack ≠ [] ∧
    sample.memSize ≤ (253 : Word).toNat + 3 ∧ sample.memSize ≤ (4294967295 : Word).toNat + 3 ∧
    (252 : Word).toNat + 3 < sample.memSize := by decide

theorem witness_ErrorsArePrecise :
    ∃ s t : State, s.err = none ∧ exec .stackDupe s = .next t ∧ t.err ≠ none :=
  ⟨{ sample with stack := [] }, _, rfl, rfl, by simp⟩

theorem witness_CompareResult :
    (7 : RegIdx).toNat < sample.nreg ∧ (0 : RegIdx).toNat < sample.nreg ∧ sample.stack = 1 :: [2, 0] :=
  ⟨by decide, by decide, rfl⟩

theorem witness_CompareHasThreeOutcomes :
    (4294967295 : Word).toNat > (0 : Word).toNat ∧ (0 : Word).toNat < (2147483648 : Word).toNat := by decide

theorem witness_FlagResetClearsConditions :
    (∃ t u, exec .flagReset sample = .next t ∧ exec .flagReset t = .next u) ∧
    (∃ s : State, s.configLegal = true ∧ s.flags.stop = true) :=
  ⟨⟨_, _, rfl, rfl⟩, ⟨{ sample with flags := { Flags.clear with stop := true } }, rfl, rfl⟩⟩

theorem witness_FlagsHaveOnlyTheirWriters :
    (∃ t, exec .nop sample = .next t) ∧ (∃ t, exec .exit sample = .next t) ∧
    writesRelational .mathAddStack = false ∧ writesOverflow .mathDivStack = false ∧ Instr.nop ≠ .exit :=
  ⟨⟨_, rfl⟩, ⟨_, rfl⟩, rfl, rfl, by decide⟩

theorem witness_PushLitFromItsBytes :
    (∃ s : State, s.configLegal = true ∧ s.flags.stop = false ∧ s.err = none ∧
      0x10 = (Instr.pushLit 0).opcode s.opmap ∧
      s.prog.drop (s.headerSize + s.pc.toNat) = 0x10 :: 0xDE :: 0xAD :: 0xBE :: 0xEF :: []) ∧
    (∃ s : State, s.configLegal = true ∧ s.flags.stop = false ∧ s.err = none ∧
      0x10 = (Instr.pushLit 0).opcode s.opmap ∧
      s.prog.drop (s.headerSize + s.pc.toNat) = 0x10 :: [1, 2, 3]) :=
  ⟨⟨{ sample with prog := [0x10, 0xDE, 0xAD, 0xBE, 0xEF] }, rfl, rfl, rfl, rfl, rfl⟩,
    ⟨{ sample with prog := [0x10, 1, 2, 3] }, rfl, rfl, rfl, rfl, rfl⟩⟩

theorem witness_PushRegFromItsBytes :
    (∃ s : State, s.configLegal = true ∧ s.flags.stop = false ∧ s.err = none ∧
      0x11 = (Instr.pushReg 0).opcode s.opmap ∧
      s.prog.drop (s.headerSize + s.pc.toNat) = 0x11 :: 7 :: [] ∧ (7 : RegIdx).toNat < s.nreg) ∧
    (∃ s : State, s.configLegal = true ∧ s.flags.stop = false ∧ s.err = none ∧
      0x11 = (Instr.pushReg 0).opcode s.opmap ∧
      s.prog.drop (s.headerSize + s.pc.toNat) = 0x11 :: 8 :: [] ∧ s.nreg ≤ (8 : RegIdx).toNat) ∧
    (∃ s : State, s.configLegal = true ∧ s.flags.stop = false ∧ s.err = none ∧
      0x11 = (Instr.pushReg 0).opcode s.opmap ∧
      s.prog.drop (s.headerSize + s.pc.toNat) = [0x11]) :=
  ⟨⟨{ sample with prog := [0x11, 7] }, rfl, rfl, rfl, rfl, rfl, by decide⟩,
    ⟨{ sample with prog := [0x11, 8] }, rfl, rfl, rfl, rfl, rfl, by decide⟩,
    ⟨{ sample with prog := [0x11] }, rfl, rfl, rfl, rfl, rfl⟩⟩

theorem witness_StackMovementResult :
    (7 : RegIdx).toNat < sample.nreg ∧ (252 : Word).toNat + 3 < sample.memSize ∧
    sample.stack = 1 :: [2, 0] := ⟨by decide, by decide, rfl⟩

theorem witness_MovesIntoRegistersResult :
    (7 : RegIdx).toNat < sample.nreg ∧ (0 : RegIdx).toNat < sample.nreg ∧
    (252 : Word).toNat + 3 < sample.memSize := by decide

theorem witness_StoresWriteTheirWord :
    Memory.wf sample.mem = true ∧ (252 : Word).toNat + 3 < sample.memSize ∧
    (0 : Word).toNat + 3 < sample.memSize ∧ (7 : RegIdx).toNat < sample.nreg ∧
    sample.stack = 1 :: [2, 0] := by decide

theorem witness_WordReadAndWriteAreBigEndian :
    Memory.wf sample.mem = true ∧ sample.memSize ≤ (253 : Word).toNat + 3 ∧
    (252 : Word).toNat + 3 < sample.memSize := by decide

/-- `sample` has selector 1 in register 0, so its `syscall` can write RAM; with selector 0 it cannot. -/
theorem witness_MemoryHasOnlyItsWriters :
    (∃ t, exec .stackDupe sample = .next t) ∧ writesMemory sample .stackDupe = false ∧
    writesMemory sample .syscall = true ∧
    writesMemory { sample with regs := [0, 0, 0, 0] } .syscall = false := ⟨⟨_, rfl⟩, rfl, rfl, rfl⟩

theorem witness_JumpResult :
    (∀ J ∈ conditionalJumps, J.2 ⟨true, true, true, true, true, false⟩ = true) ∧
    (∀ J ∈ conditionalJumps, J.2 Flags.clear = false) := by
  simp [conditionalJumps, Flags.clear]

theorem witness_CallResult : 4 ≤ ({ sample with regs := [1, 2, 3, 4] } : State).nreg := by decide

/-- A state inside a procedure: the frame of a call from offset 16 under one local. -/
def inside : State :=
  { sample with regs := [5, 6, 7, 8], stack := [77, 16, 4, 3, 2, 1, 9], sbp := 6, cdepth := 1 }

theorem witness_ReturnResult :
    4 ≤ inside.nreg ∧ inside.cdepth ≠ 0 ∧ inside.stack = [77] ++ 16 :: 4 :: 3 :: 2 :: 1 :: [9] ∧
    inside.sbp = [(9 : Word)].length + 5 ∧
    (∃ s : State, s.cdepth ≠ 0 ∧ s.stack = [] ++ 16 :: 4 :: 3 :: 2 :: 1 :: [] ∧ s.sbp = 0 + 5) :=
  ⟨by decide, by decide, rfl, rfl,
    ⟨{ inside with stack := [16, 4, 3, 2, 1], sbp := 5 }, by decide, rfl, rfl⟩⟩

theorem witness_ReturnErrors :
    sample.cdepth = 0 ∧
    (∃ s : State, s.cdepth ≠ 0 ∧ s.stack.length < s.sbp) ∧
    (∃ s : State, s.cdepth ≠ 0 ∧ s.sbp ≤ s.stack.length ∧ s.sbp < 5) :=
  ⟨rfl, ⟨{ inside with sbp := 8 }, by decide, by decide⟩, ⟨{ inside with sbp := 4 }, by decide, by decide, by decide⟩⟩

/-- The callee has overwritten its registers and left one local above the frame. -/
theorem witness_CallThenReturnRestoresTheCaller :
    ∃ s t u : State, 4 ≤ s.nreg ∧ exec (.procedureCall 32) s = .next t ∧
      u.regs.length = s.regs.length ∧ u.stack = [77] ++ t.stack ∧ u.sbp = t.sbp ∧ u.cdepth = t.cdepth ∧
      u.reg 0 ≠ s.reg 0 :=
  ⟨sample, sample.enterProcedure.setPc 32,
    { sample.enterProcedure with regs := [9, 9, 9, 9, 9, 9, 9, 9], stack := 77 :: sample.enterProcedure.stack },
    by decide, rfl, rfl, rfl, rfl, rfl, by decide⟩

/-- The inner call is made with one local, 77, above the outer frame. -/
theorem witness_NestedCallLeavesTheInnerBase :
    ∃ t v : State, 4 ≤ inside.nreg ∧ inside.cdepth ≠ 0 ∧ exec (.procedureCall 32) inside = .next t ∧
      t.regs.length = inside.regs.length ∧ exec .procedureReturn t = .next v ∧
      inside.stack = 77 :: 16 :: 4 :: 3 :: 2 :: [1, 9] :=
  ⟨inside.enterProcedure.setPc 32, _, by decide, by decide, rfl, rfl, rfl, rfl⟩

theorem witness_StackBaseIsCallAndReturnOnly :
    (∃ t, exec (.procedureCall 32) sample = .next t) ∧
    (∃ t, inside.err = none ∧ exec .procedureReturn inside = .next t ∧ t.err = none) ∧
    isCallOrReturn .nop = false := ⟨⟨_, rfl⟩, ⟨_, rfl, rfl, rfl⟩, rfl⟩

theorem witness_CallDepthIsCallAndReturnOnly :
    (∃ t, exec (.procedureCall 32) sample = .next t) ∧
    (∃ t, inside.err = none ∧ exec .procedureReturn inside = .next t ∧ t.err = none) ∧
    isCallOrReturn .syscall = false := ⟨⟨_, rfl⟩, ⟨_, rfl, rfl, rfl⟩, rfl⟩

theorem witness_SyscallWriteResult :
    (∃ s : State, s.reg 0 = 0 ∧ (s.reg 2).toNat = 0 ∧ (s.reg 1).toNat = 4294967295) ∧
    (∃ s : State, s.reg 0 = 0 ∧ (s.reg 1).toNat + (s.reg 2).toNat = s.memSize ∧ 0 < (s.reg 2).toNat) :=
  ⟨⟨{ sample with regs := [0, 4294967295, 0, 0] }, rfl, rfl, rfl⟩,
    ⟨{ sample with regs := [0, 252, 4, 0] }, rfl, rfl, by decide⟩⟩

theorem witness_SyscallReadResult :
    (∃ s : State, Memory.wf s.mem = true ∧ s.reg 0 = 1 ∧ (s.reg 2).toNat = 0) ∧
    (∃ s : State, Memory.wf s.mem = true ∧ s.reg 0 = 1 ∧ (s.reg 1).toNat + (s.reg 2).toNat = s.memSize ∧
      0 < (s.reg 2).toNat) :=
  ⟨⟨{ sample with regs := [1, 4294967295, 0, 0] }, by decide, rfl, rfl⟩,
    ⟨{ sample with regs := [1, 252, 4, 0] }, by decide, rfl, rfl, by decide⟩⟩

theorem witness_SyscallClearResult : ({ sample with regs := [2, 0, 0, 0] } : State).reg 0 = 2 := rfl

theorem witness_SyscallDecimalAndUnknownSelectors :
    ({ sample with regs := [3, 0, 0, 0] } : State).reg 0 = 3 ∧
    4 ≤ (({ sample with regs := [4, 0, 0, 0] } : State).reg 0).toNat ∧
    4 ≤ (({ sample with regs := [256, 0, 0, 0] } : State).reg 0).toNat := ⟨rfl, by decide, by decide⟩

theorem witness_SyscallRangeErrors :
    (∃ s : State, s.reg 0 = 0 ∧ 0 < (s.reg 2).toNat ∧ (s.reg 1).toNat + (s.reg 2).toNat = s.memSize + 1) ∧
    (∃ s : State, s.reg 0 = 1 ∧ 0 < (s.reg 2).toNat ∧ s.memSize < (s.reg 1).toNat + (s.reg 2).toNat) :=
  ⟨⟨{ sample with regs := [0, 253, 4, 0] }, rfl, by decide, rfl⟩,
    ⟨{ sample with regs := [1, 4294967295, 1, 0] }, rfl, by decide, by decide⟩⟩

theorem witness_OnlySyscallAndRandReachTheHost :
    (∃ t, exec .nop sample = .next t) ∧ asksHost .nop = false ∧ (∃ t, exec .mathRandStack sample = .next t) :=
  ⟨⟨_, rfl⟩, rfl, ⟨_, rfl⟩⟩

theorem witness_NopAndExitResult :
    sample.configLegal = true ∧ sample.err = none ∧ ∃ t, exec .exit sample = .next t := ⟨rfl, rfl, _, rfl⟩

/-- A state that has the invariant, with a canonical RAM that is not empty, and takes a step. -/
theorem witness_StepKeepsTheInvariant :
    ∃ s t : State, s.Inv ∧ step s = .next t :=
  ⟨{ sample with prog := [0x15] }, _,
    { configLegal := rfl
      memWf := by decide
      memWithin := by decide
      flagsLegal := by decide
      stopClean := fun _ => rfl
      errHere := by simp [sample, State.reset, State.construct]
      drawsCounted := rfl
      answersFit := rfl }, rfl⟩

theorem witness_ConstructionValues :
    ∃ p : Params, p.memInit.length = p.memSize ∧ p.memInit = [0x11, 0, 0x22] :=
  ⟨{ nreg := 4, memSize := 3, memInit := [0x11, 0, 0x22], prog := [], headerSize := 0, opmap := OpMap.default }, rfl, rfl⟩

theorem witness_BufferAndHeaderAreNotData : sample.err = none ∧ ∃ t, exec .nop sample = .next t :=
  ⟨rfl, _, rfl⟩

theorem witness_ProgramCounterAdvancesByTheLength :
    ∃ s t : State, s.err = none ∧ exec (.movLitMem 5 252) s = .next t ∧ t.err = none ∧
      s.pc.toNat = 4294967295 ∧ isCallOrReturn (.movLitMem 5 252) = false ∧
      (∀ addr, Instr.movLitMem 5 252 ≠ .jumpAbsolute addr) ∧
      (∀ J ∈ conditionalJumps, ∀ addr, Instr.movLitMem 5 252 ≠ J.1 addr) :=
  ⟨{ sample with pc := 4294967295 }, _, rfl, rfl, rfl, rfl, rfl, by simp, by simp [conditionalJumps]⟩

theorem witness_OperandStackIsLastInFirstOut :
    (∃ w t, sample.pop = .ok (w, t)) ∧ ({ sample with stack := [] } : State).len = 0 ∧ sample.len ≠ 0 :=
  ⟨⟨_, _, rfl⟩, rfl, by decide⟩

theorem witness_BitwiseOperationsAreBitByBit :
    (∃ t, exec .mathXorStack sample = .next t) ∧ isBitwise .mathXorStack = true ∧
    isBitwise (.mathNotReg 7) = true := ⟨⟨_, rfl⟩, rfl, rfl⟩

theorem witness_SquareRootIsTheFloor :
    (3 : Nat) * 3 ≤ (9 : Word).toNat ∧ (∃ t, exec (.mathSqrtReg 7) sample = .next t) ∧
    (∃ t, exec .mathSqrtStack sample = .next t) := ⟨by decide, ⟨_, rfl⟩, ⟨_, rfl⟩⟩

/-- A map other than the default, with operands and bytes after the instruction. -/
theorem witness_DecodeOfEncodeIsIdentity :
    ∃ m : OpMap, m.legal = true ∧ m ≠ OpMap.default ∧
      encode m (.mathAddReg 1 2) = [0x40, 1, 2] := ⟨OpMap.default.map (· + 0x20), by decide, by decide, rfl⟩

theorem witness_UnassignedOpcodesAreTheListedRanges :
    OpMap.default.legal = true ∧ (0x91 : Byte) ∉ OpMap.default ∧ (0x90 : Byte) ∈ OpMap.default := by decide

/-- Parameters at the ends of their ranges, with a program and initial RAM. -/
theorem witness_ResetHasTheInvariant :
    ∃ p : Params, p.nreg = 4 ∧ p.memSize = 4294967296 ∧ p.headerSize = p.prog.length ∧
      p.opmap.length = 75 ∧ p.opmap.Nodup ∧ p.prog ≠ [] ∧ p.memInit ≠ [] :=
  ⟨{ nreg := 4, memSize := 4294967296, memInit := [1], prog := [0x00], headerSize := 1,
     opmap := OpMap.default }, rfl, rfl, rfl, rfl, (OpMap.legal_iff.1 OpMap.default_legal).2, by simp, by simp⟩

end Sys2Proof.Tests
end

section
/-! O60, `10_state.md` R27: the operand stack. -/

namespace Sys2Proof.Machine

theorem State.setStack_self (s : State) : s.setStack s.stack = s := rfl

theorem State.pop_push (s : State) (v : Word) : (s.push v).pop = .ok (v, s) :=
  State.pop_cons (State.push_stack s v)

theorem State.peek_push (s : State) (v : Word) : (s.push v).peek = .ok v :=
  State.peek_cons (State.push_stack s v)

theorem State.len_push (s : State) (v : Word) : (s.push v).len = s.len + 1 := rfl

theorem State.len_eq_zero {s : State} : s.len = 0 ↔ s.stack = [] := List.length_eq_zero_iff

/-- A pop undoes exactly one push: what it returns is what `peek` sees, and pushing it back gives the
state before. -/
theorem State.push_of_pop {s t : State} {w : Word} (h : s.pop = .ok (w, t)) :
    s.peek = .ok w ∧ t.push w = s := by
  obtain ⟨rest, hs, rfl⟩ := State.pop_eq_ok.1 h
  have hpush : (s.setStack rest).push w = s.setStack s.stack := by rw [hs]; rfl
  exact ⟨State.peek_cons hs, hpush.trans s.setStack_self⟩

theorem State.pop_of_len_ne_zero {s : State} (h : s.len ≠ 0) : ∃ w t, s.pop = .ok (w, t) := by
  obtain ⟨w, rest, hs⟩ := List.exists_cons_of_ne_nil (mt State.len_eq_zero.2 h)
  exact ⟨w, _, State.pop_cons hs⟩

/-- Settles O60, from the rules of `push`, `pop` and `peek` above. -/
theorem operandStackIsLastInFirstOut : Obligations.OperandStackIsLastInFirstOut := by
  intro s v
  refine ⟨rfl, s.len_push v, s.pop_push v, s.peek_push v, ?popped, ?empty, State.pop_of_len_ne_zero⟩
  case popped =>
    intro w t h
    obtain ⟨hpeek, hpush⟩ := State.push_of_pop h
    exact ⟨hpeek, by rw [← hpush, State.len_push], hpush⟩
  case empty =>
    intro h
    have hs : s.stack = [] := State.len_eq_zero.1 h
    exact ⟨State.pop_nil hs, State.peek_nil hs⟩

end Sys2Proof.Machine
end

section
/-! Non-interference, stated once for any change of the state that the instructions do not see. -/

namespace Sys2Proof.Machine

/-- A change of the state that leaves every field an instruction other than a call or a return reads,
and commutes with every update such an instruction makes. -/
structure Unseen (f : State → State) : Prop where
  pc (s : State) : (f s).pc = s.pc
  opmap (s : State) : (f s).opmap = s.opmap
  regs (s : State) : (f s).regs = s.regs
  stack (s : State) : (f s).stack = s.stack
  memSize (s : State) : (f s).memSize = s.memSize
  mem (s : State) : (f s).mem = s.mem
  flags (s : State) : (f s).flags = s.flags
  draws (s : State) : (f s).draws = s.draws
  setPc (s : State) (t : Word) : (f s).setPc t = f (s.setPc t)
  setReg (s : State) (n : Nat) (v : Word) : (f s).setReg n v = f (s.setReg n v)
  setStack (s : State) (st : List Word) : (f s).setStack st = f (s.setStack st)
  setFlags (s : State) (fl : Flags) : (f s).setFlags fl = f (s.setFlags fl)
  setMem (s : State) (m : Memory) : (f s).setMem m = f (s.setMem m)
  request (s : State) (rs : List HostRequest) : (f s).request rs = f (s.request rs)
  answered (s : State) (r : HostRequest) : (f s).answered r = f (s.answered r)
  raise (s : State) (k : ErrKind) (op : Option Byte) : (f s).raise k op = f (s.raise k op)

namespace Unseen

variable {f : State → State} (hf : Unseen f) (s : State)
include hf

/-! ### The operations on such a changed state -/

theorem nreg : (f s).nreg = s.nreg := by rw [State.nreg, hf.regs, State.nreg]

theorem reg (n : Nat) : (f s).reg n = s.reg n := by rw [State.reg, hf.regs, State.reg]

theorem regOperand (r : RegIdx) : (f s).regOperand r = s.regOperand r := by
  rw [State.regOperand, hf.nreg, hf.reg, State.regOperand]

theorem checkReg (r : RegIdx) : (f s).checkReg r = s.checkReg r := by
  rw [State.checkReg, hf.nreg, State.checkReg]

theorem push (v : Word) : (f s).push v = f (s.push v) := by
  rw [State.push, hf.stack, hf.setStack, State.push]

theorem pop : (f s).pop = Prod.map id f <$> s.pop := by
  cases h : s.stack with
  | nil => rw [State.pop_nil h, State.pop_nil ((hf.stack s).trans h)]; rfl
  | cons v rest =>
    rw [State.pop_cons h, State.pop_cons ((hf.stack s).trans h), hf.setStack]; rfl

theorem peek : (f s).peek = s.peek := by
  cases h : s.stack with
  | nil => rw [State.peek_nil h, State.peek_nil ((hf.stack s).trans h)]
  | cons v rest => rw [State.peek_cons h, State.peek_cons ((hf.stack s).trans h)]

theorem wordInBounds (addr : Word) : (f s).wordInBounds addr = s.wordInBounds addr := by
  rw [State.wordInBounds, hf.memSize, State.wordInBounds]

theorem memRead (addr : Word) : (f s).memRead addr = s.memRead addr := by
  rw [State.memRead, hf.wordInBounds, hf.mem, State.memRead]

theorem memWrite (addr v : Word) : (f s).memWrite addr v = f <$> s.memWrite addr v := by
  simp only [State.memWrite, hf.wordInBounds, hf.mem, hf.setMem]
  split <;> rfl

theorem putRegResult (n : Nat) (r : AluResult) : (f s).putRegResult n r = f (s.putRegResult n r) := by
  simp only [State.putRegResult, hf.flags, hf.setFlags, hf.setReg]

theorem putStackResult (r : AluResult) : (f s).putStackResult r = f (s.putStackResult r) := by
  simp only [State.putStackResult, hf.flags, hf.setFlags, hf.push]

theorem compare (a b : Word) : (f s).compare a b = f (s.compare a b) := by
  simp only [State.compare, hf.flags, hf.setFlags]

theorem randAnswer : (f s).randAnswer = s.randAnswer := by
  rw [State.randAnswer, hf.draws, State.randAnswer]

theorem drawRand : (f s).drawRand = f s.drawRand := by
  rw [State.drawRand, hf.randAnswer, hf.answered, State.drawRand]

theorem lineAnswer (n : Word) : (f s).lineAnswer n = s.lineAnswer n := by
  rw [State.lineAnswer, hf.draws, State.lineAnswer]

theorem rangeInBounds (p n : Word) : (f s).rangeInBounds p n = s.rangeInBounds p n := by
  rw [State.rangeInBounds, hf.memSize, State.rangeInBounds]

theorem sysWrite : (f s).sysWrite = f <$> s.sysWrite := by
  simp only [State.sysWrite, hf.rangeInBounds, hf.reg, hf.mem, hf.request]
  split <;> rfl

theorem sysRead : (f s).sysRead = f <$> s.sysRead := by
  simp only [State.sysRead, hf.rangeInBounds, hf.reg, hf.mem, hf.lineAnswer, hf.answered, hf.setMem]
  split <;> rfl

theorem service : (f s).service = f <$> s.service := by
  simp only [State.service, State.sysClear, State.sysDecimal, hf.reg, hf.sysWrite, hf.sysRead, hf.request,
    apply_ite (f <$> ·), Except.map_ok]

/-! ### The ends of the cycle -/

theorem nextPc (i : Instr) : (f s).nextPc i = s.nextPc i := by rw [State.nextPc, hf.pc, State.nextPc]

theorem opcodeOf (i : Instr) : (f s).opcodeOf i = s.opcodeOf i := by
  rw [State.opcodeOf, hf.opmap, State.opcodeOf]

/-- An effect that commutes with the change retires to a result that does. -/
theorem retire {i : Instr} {r r' : Except ErrKind State} (h : r' = f <$> r) :
    (f s).retire i r' = mapNext f (s.retire i r) := by
  subst h
  cases r with
  | ok t => exact congrArg Host.Outcome.next ((hf.setPc ..).trans (by rw [hf.nextPc]))
  | error k => exact congrArg Host.Outcome.next ((hf.raise ..).trans (by rw [hf.opcodeOf]))

/-- The effect of an instruction that cannot fail. -/
theorem retire_ok {i : Instr} {t t' : State} (h : t' = f t) :
    (f s).retire i (.ok t') = mapNext f (s.retire i (.ok t)) :=
  hf.retire s (congrArg Except.ok h)

theorem jumpWhen {taken taken' : Bool} {i : Instr} {target : Word} (h : taken' = taken) :
    jumpWhen taken' i target (f s) = mapNext f (jumpWhen taken i target s) := by
  simp only [h, jumpWhen_next, hf.setPc, hf.nextPc, mapNext]

/-! ### The operand forms -/

theorem binaryReg (op : BinaryOp) (i : Instr) (ra rb : RegIdx) :
    binaryReg op i ra rb (f s) = mapNext f (binaryReg op i ra rb s) :=
  hf.retire s (by simp [hf.regOperand, hf.putRegResult])

theorem binaryRegLit (op : BinaryOp) (i : Instr) (ra : RegIdx) (lit : Word) :
    binaryRegLit op i ra lit (f s) = mapNext f (binaryRegLit op i ra lit s) :=
  hf.retire s (by simp [hf.regOperand, hf.putRegResult])

theorem binaryStack (op : BinaryOp) (i : Instr) :
    binaryStack op i (f s) = mapNext f (binaryStack op i s) :=
  hf.retire s (by simp [hf.pop, hf.putStackResult])

theorem binaryStackLit (op : BinaryOp) (i : Instr) (lit : Word) :
    binaryStackLit op i lit (f s) = mapNext f (binaryStackLit op i lit s) :=
  hf.retire s (by simp [hf.pop, hf.putStackResult])

theorem unaryReg (op : UnaryOp) (i : Instr) (ra : RegIdx) :
    unaryReg op i ra (f s) = mapNext f (unaryReg op i ra s) :=
  hf.retire s (by simp [hf.regOperand, hf.putRegResult])

theorem unaryStack (op : UnaryOp) (i : Instr) :
    unaryStack op i (f s) = mapNext f (unaryStack op i s) :=
  hf.retire s (by simp [hf.pop, hf.putStackResult])

/-! ### Every instruction -/

/-- No instruction but a call or a return sees the change. -/
theorem exec {i : Instr} (hi : isCallOrReturn i = false) : exec i (f s) = mapNext f (exec i s) := by
  cases i with
  | exit | flagReset => exact hf.retire_ok s (by simp [hf.flags, hf.setFlags])
  | nop => exact hf.retire_ok s rfl
  | pushLit lit => exact hf.retire_ok s (hf.push ..)
  | pushReg ra => exact hf.retire s (by simp [hf.regOperand, hf.push])
  | pushMem addr => exact hf.retire s (by simp [hf.memRead, hf.push])
  | popReg ra => exact hf.retire s (by simp [hf.checkReg, hf.pop, hf.setReg])
  | popMemory addr => exact hf.retire s (by simp [hf.pop, hf.memWrite])
  | stackDupe => exact hf.retire s (by simp [hf.peek, hf.push])
  | movLitReg ra lit => exact hf.retire s (by simp [hf.checkReg, hf.setReg])
  | movRegReg ra rb => exact hf.retire s (by simp [hf.regOperand, hf.checkReg, hf.setReg])
  | movMemReg ra addr => exact hf.retire s (by simp [hf.checkReg, hf.memRead, hf.setReg])
  | movRegMem ra addr => exact hf.retire s (by simp [hf.regOperand, hf.memWrite])
  | movLitMem lit addr => exact hf.retire s (hf.memWrite ..)
  | movMemMem addr1 addr2 => exact hf.retire s (by simp [hf.memRead, hf.memWrite])
  | mathAddReg ra rb | mathSubReg ra rb | mathMulReg ra rb | mathDivReg ra rb | mathAndReg ra rb
  | mathOrReg ra rb | mathXorReg ra rb | mathShlReg ra rb | mathShrReg ra rb | mathPowReg ra rb
    => exact hf.binaryReg ..
  | mathAddRegLit ra lit | mathSubRegLit ra lit | mathMulRegLit ra lit | mathDivRegLit ra lit
  | mathAndRegLit ra lit | mathOrRegLit ra lit | mathXorRegLit ra lit | mathShlRegLit ra lit
  | mathShrRegLit ra lit => exact hf.binaryRegLit ..
  | mathAddStack | mathSubStack | mathMulStack | mathDivStack | mathAndStack | mathOrStack
  | mathXorStack | mathShlStack | mathShrStack | mathPowStack => exact hf.binaryStack ..
  | mathAddStackLit lit | mathSubStackLit lit | mathMulStackLit lit | mathDivStackLit lit
  | mathAndStackLit lit | mathOrStackLit lit | mathXorStackLit lit | mathShlStackLit lit
  | mathShrStackLit lit => exact hf.binaryStackLit ..
  | mathNotReg ra | mathIncReg ra | mathDecReg ra | mathSqrtReg ra => exact hf.unaryReg ..
  | mathNotStack | mathIncStack | mathDecStack | mathSqrtStack => exact hf.unaryStack ..
  | mathRandReg ra => exact hf.retire s (by simp [hf.checkReg, hf.drawRand, hf.randAnswer, hf.setReg])
  | mathRandStack => exact hf.retire_ok s (by simp [hf.drawRand, hf.randAnswer, hf.push])
  | compareRegReg ra rb | compareRegLit ra lit
    => exact hf.retire s (by simp [hf.regOperand, hf.compare])
  | compareStackLit lit => exact hf.retire s (by simp [hf.peek, hf.compare])
  | jumpAbsolute addr => exact hf.jumpWhen s rfl
  | jumpEqual addr | jumpNotEqual addr | jumpGreater addr | jumpSmaller addr | jumpOverflow addr =>
    exact hf.jumpWhen s (by rw [hf.flags])
  | procedureCall addr | procedureReturn => cases hi
  | syscall => exact hf.retire s (hf.service s)

end Unseen
end Sys2Proof.Machine
end

section
/-! O46, `10_state.md` R31: the stack-base pointer. -/

namespace Sys2Proof.Machine

/-- Only `State.setFrame`, `State.discardLocals` and `State.leaveProcedure` touch `sbp`, and only a call
or a return uses them. -/
theorem unseen_sbp (n : Nat) : Unseen fun s => { s with sbp := n } := by
  constructor <;> intros <;> rfl

theorem State.construct_sbp (p : Params) : (State.construct p).sbp = 0 := rfl

theorem State.enterProcedure_sbp (s : State) :
    s.enterProcedure.sbp = s.enterProcedure.stack.length := rfl

/-- A call always completes. -/
theorem procedureCall_next (addr : Word) (s : State) :
    exec (.procedureCall addr) s = .next (s.enterProcedure.setPc addr) := rfl

theorem State.restoreRegs_stack (s : State) (r3 r2 r1 r0 : Word) :
    (s.restoreRegs r3 r2 r1 r0).stack = s.stack := rfl

theorem State.discardLocals_length {s : State} (h : s.sbp ≤ s.len) : s.discardLocals.length = s.sbp := by
  rw [State.discardLocals, List.length_drop]
  exact Nat.sub_sub_self h

/-- A return that completes leaves `sbp` at the length of the stack, the five words of the frame below
the length it found there. -/
theorem State.leaveProcedure_sbp {s t : State} {target : Word}
    (h : s.leaveProcedure = .ok (t, target)) : t.sbp = t.stack.length ∧ t.sbp + 5 = s.sbp := by
  obtain ⟨-, hlen, saved, r3, r2, r1, r0, rest, hframe, -, rfl⟩ := State.leaveProcedure_eq_ok h
  have hpopped : rest.length + 5 = s.sbp := by
    rw [← State.discardLocals_length hlen, hframe]; rfl
  exact ⟨by simp [State.restoreRegs_stack], hpopped⟩

theorem procedureReturn_sbp {s t : State} (h : exec .procedureReturn s = .next t) (hok : t.err = none) :
    t.sbp = t.stack.length ∧ t.sbp + 5 = s.sbp := by
  rcases State.retireTo_next h with ⟨u, target, hu, rfl⟩ | ⟨k, -, rfl⟩
  · exact (State.leaveProcedure_sbp hu :)
  · cases hok

/-- Settles O46: the construction, the call and the return by their own lemmas, every other instruction
because it does not see `sbp`. -/
theorem stackBaseIsCallAndReturnOnly : Obligations.StackBaseIsCallAndReturnOnly := by
  refine ⟨State.construct_sbp, ?call, fun s t _ h hok => procedureReturn_sbp h hok,
    fun i s n hi => (unseen_sbp n).exec s hi⟩
  case call =>
    intro s t addr h
    rw [procedureCall_next] at h
    cases h
    exact s.enterProcedure_sbp

end Sys2Proof.Machine
end

section
/-! O12, `41_arithmetic_binary.md` R116-R118 and `42_arithmetic_unary.md` R162: the bitwise operations. -/

namespace Sys2Proof.Machine

/-! ### An operation without an overflow check leaves the flags (R111) -/

theorem Flags.putOverflow_none (f : Flags) : f.putOverflow none = f := rfl

theorem State.putRegResult_flags (s : State) (n : Nat) {r : AluResult} (hr : r.overflow = none) :
    (s.putRegResult n r).flags = s.flags := by
  rw [State.putRegResult, hr, State.setReg_flags, State.setFlags_flags, Flags.putOverflow_none]

theorem State.putStackResult_flags (s : State) {r : AluResult} (hr : r.overflow = none) :
    (s.putStackResult r).flags = s.flags := by
  rw [State.putStackResult, hr, State.push_flags, State.setFlags_flags, Flags.putOverflow_none]

/-- The operation has no overflow check: no result of it carries an outcome of one. -/
def BinaryOp.Unchecked (op : BinaryOp) : Prop := ∀ ⦃a b r⦄, op a b = .ok r → r.overflow = none

theorem BinaryOp.unchecked_of_value (g : Word → Word → Word) :
    BinaryOp.Unchecked fun a b => .ok ⟨g a b, none⟩ := by
  rintro a b r ⟨⟩
  rfl

section
variable {op : BinaryOp} (hop : op.Unchecked) {i : Instr} {s t : State}
include hop

theorem binaryReg_flags {ra rb : RegIdx} (h : binaryReg op i ra rb s = .next t) : t.flags = s.flags := by
  rcases binaryReg_next h with ⟨r, -, -, hr, rfl⟩ | ⟨k, rfl⟩
  · exact State.putRegResult_flags s ra.toNat (hop hr)
  · exact State.raise_flags ..

theorem binaryRegLit_flags {ra : RegIdx} {lit : Word} (h : binaryRegLit op i ra lit s = .next t) :
    t.flags = s.flags := by
  rcases binaryRegLit_next h with ⟨r, -, hr, rfl⟩ | ⟨k, rfl⟩
  · exact State.putRegResult_flags s ra.toNat (hop hr)
  · exact State.raise_flags ..

theorem binaryStack_flags (h : binaryStack op i s = .next t) : t.flags = s.flags := by
  rcases binaryStack_next h with ⟨a, b, rest, r, -, hr, rfl⟩ | ⟨k, rfl⟩
  · exact State.putStackResult_flags (s.setStack rest) (hop hr)
  · exact State.raise_flags ..

theorem binaryStackLit_flags {lit : Word} (h : binaryStackLit op i lit s = .next t) :
    t.flags = s.flags := by
  rcases binaryStackLit_next h with ⟨a, rest, r, -, hr, rfl⟩ | ⟨k, rfl⟩
  · exact State.putStackResult_flags (s.setStack rest) (hop hr)
  · exact State.raise_flags ..

end

section
variable {op : UnaryOp} (hop : ∀ a, (op a).overflow = none) {i : Instr} {s t : State}
include hop

theorem unaryReg_flags {ra : RegIdx} (h : unaryReg op i ra s = .next t) : t.flags = s.flags := by
  rcases unaryReg_next h with ⟨-, rfl⟩ | ⟨k, rfl⟩
  · exact State.putRegResult_flags s ra.toNat (hop _)
  · exact State.raise_flags ..

theorem unaryStack_flags (h : unaryStack op i s = .next t) : t.flags = s.flags := by
  rcases unaryStack_next h with ⟨a, rest, -, rfl⟩ | ⟨k, rfl⟩
  · exact State.putStackResult_flags (s.setStack rest) (hop a)
  · exact State.raise_flags ..

end

/-! ### The bitwise operations -/

theorem exec_flags_of_isBitwise {i : Instr} {s t : State} (hi : isBitwise i = true)
    (h : exec i s = .next t) : t.flags = s.flags := by
  cases i with
  | mathAndReg ra rb | mathOrReg ra rb | mathXorReg ra rb =>
    exact binaryReg_flags (BinaryOp.unchecked_of_value _) h
  | mathAndStack | mathOrStack | mathXorStack =>
    exact binaryStack_flags (BinaryOp.unchecked_of_value _) h
  | mathAndRegLit ra lit | mathOrRegLit ra lit | mathXorRegLit ra lit =>
    exact binaryRegLit_flags (BinaryOp.unchecked_of_value _) h
  | mathAndStackLit lit | mathOrStackLit lit | mathXorStackLit lit =>
    exact binaryStackLit_flags (BinaryOp.unchecked_of_value _) h
  | mathNotReg ra => exact unaryReg_flags (fun _ => rfl) h
  | mathNotStack => exact unaryStack_flags (fun _ => rfl) h
  | _ => cases hi

/-- Settles O12: the values by the library's bit rules, the flags because none of the four operations has
an overflow check. -/
theorem bitwiseOperationsAreBitByBit : Obligations.BitwiseOperationsAreBitByBit := by
  refine ⟨fun a b => ⟨?and, ?or, ?xor, ?not⟩, fun i s t hi h => exec_flags_of_isBitwise hi h⟩
  case and => exact ⟨a &&& b, rfl, fun _ _ => BitVec.getLsbD_and⟩
  case or => exact ⟨a ||| b, rfl, fun _ _ => BitVec.getLsbD_or⟩
  case xor => exact ⟨a ^^^ b, rfl, fun _ _ => BitVec.getLsbD_xor⟩
  case not =>
    refine ⟨~~~a, rfl, BitVec.toNat_not, fun i hi => ?_⟩
    rw [BitVec.getLsbD_not, decide_eq_true hi, Bool.true_and]

end Sys2Proof.Machine
end

section
/-! O13, `42_arithmetic_unary.md` R165: the integer square root. -/

namespace Sys2Proof.Machine

/-- The bits found so far are right while the root lies in `[r, r + 2 ^ k)`; each bit halves the
interval, and at `k = 0` only `r` is left. -/
theorem sqrtBits_eq_sqrt {a : Nat} :
    ∀ {k r : Nat}, r * r ≤ a → a < (r + 2 ^ k) * (r + 2 ^ k) → sqrtBits a k r = Nat.sqrt a := by
  intro k
  induction k with
  | zero => exact fun hle hlt => Nat.eq_sqrt.2 ⟨hle, hlt⟩
  | succ k ih =>
    intro r hle hlt
    rw [sqrtBits]
    split
    case isTrue hbit =>
      have hhalves : r + 2 ^ k + 2 ^ k = r + 2 ^ (k + 1) := by rw [Nat.add_assoc, Nat.two_pow_succ]
      exact ih hbit (by rwa [hhalves])
    case isFalse hbit => exact ih hle (Nat.lt_of_not_le hbit)

theorem sqrt_toNat_lt (a : Word) : Nat.sqrt a.toNat < 65536 := Nat.sqrt_lt.2 a.isLt

/-- The bit-by-bit root is the library's floor square root. -/
theorem aluSqrt_eq (a : Word) : aluSqrt a = ⟨BitVec.ofNat 32 (Nat.sqrt a.toNat), none⟩ := by
  rw [aluSqrt, sqrtBits_eq_sqrt (Nat.zero_le _) a.isLt]

theorem toNat_ofNat_sqrt (a : Word) :
    (BitVec.ofNat 32 (Nat.sqrt a.toNat)).toNat = Nat.sqrt a.toNat :=
  Nat.mod_eq_of_lt (Nat.lt_trans (sqrt_toNat_lt a) (by decide))

/-- Settles O13: the value is `Nat.sqrt` by `aluSqrt_eq`, and the operation has no overflow check. -/
theorem squareRootIsTheFloor : Obligations.SquareRootIsTheFloor := by
  refine ⟨fun a => ⟨_, aluSqrt_eq a, ?_⟩, fun s t ra h => unaryReg_flags (fun _ => rfl) h,
    fun s t h => unaryStack_flags (fun _ => rfl) h⟩
  rw [toNat_ofNat_sqrt]
  exact ⟨Nat.sqrt_le _, fun n hn => Nat.le_sqrt.2 hn, Nat.le_of_lt_succ (sqrt_toNat_lt a)⟩

end Sys2Proof.Machine
end

section
/-! O15, `42_arithmetic_unary.md` R163 and R164: INC and DEC are ADD and SUB of 1. -/

namespace Sys2Proof.Machine

/-- `a > MAX − 1` holds of a word exactly at `MAX`. -/
theorem aluAdd_one (a : Word) : aluAdd a 1 = .ok (aluInc a) := by
  have hcheck : a.toNat > maxWord - (1 : Word).toNat ↔ a.toNat = maxWord := by
    have hlt : a.toNat < 4294967296 := a.isLt
    have hone : (1 : Word).toNat = 1 := rfl
    rw [hone, maxWord]
    omega
  rw [aluAdd, aluInc, decide_eq_decide.2 hcheck]

/-- `a < 1` holds exactly at 0. -/
theorem aluSub_one (a : Word) : aluSub a 1 = .ok (aluDec a) := by
  have hcheck : a.toNat < (1 : Word).toNat ↔ a.toNat = 0 := Nat.lt_one_iff
  rw [aluSub, aluDec, decide_eq_decide.2 hcheck]

theorem aluInc_toNat (a : Word) : (aluInc a).value.toNat = (a.toNat + 1) % 4294967296 :=
  BitVec.toNat_add a 1

theorem aluDec_toNat (a : Word) :
    ((aluDec a).value.toNat : Int) = ((a.toNat : Int) - 1) % 4294967296 := by
  have hsub : (aluDec a).value.toNat = (4294967295 + a.toNat) % 4294967296 := BitVec.toNat_sub a 1
  rw [hsub]
  omega

/-- Settles O15: `aluAdd_one` and `aluSub_one` give the equality, the values follow mod 2^32. -/
theorem incrementAndDecrementAreAddAndSubOfOne :
    Obligations.IncrementAndDecrementAreAddAndSubOfOne := fun a =>
  ⟨aluAdd_one a, aluSub_one a, aluInc_toNat a, aluDec_toNat a, rfl, rfl⟩

end Sys2Proof.Machine
end

section
/-! O31, `43_compare_flags.md` R184: `flag_reset`. -/

namespace Sys2Proof.Machine

theorem Flags.resetConditions_idem (f : Flags) :
    f.resetConditions.resetConditions = f.resetConditions := rfl

/-- A reset always completes. -/
theorem flagReset_next (s : State) :
    exec .flagReset s = .next ((s.setFlags s.flags.resetConditions).setPc (s.nextPc .flagReset)) := rfl

theorem flagReset_flags {s t : State} (h : exec .flagReset s = .next t) :
    t.flags = s.flags.resetConditions := by
  rw [flagReset_next] at h
  cases h
  rw [State.setPc_flags, State.setFlags_flags]

theorem State.stopped_of_stop {s : State} (h : s.flags.stop = true) : s.stopped = true := by
  rw [State.stopped, h, Bool.true_or]

/-- A stopped core of a legal configuration runs no instruction (`10_state.md` R33). -/
theorem step_of_stopped {s : State} (hlegal : s.configLegal = true) (hstopped : s.stopped = true) :
    step s = .fault .stopped := by
  rcases step_cases s with ⟨hillegal, -⟩ | ⟨-, -, hstep⟩ | ⟨-, hrunning, -⟩
  · cases hlegal.symm.trans hillegal
  · exact hstep
  · cases hstopped.symm.trans hrunning

/-- Settles O31: the next state is `flagReset_next`, a second reset finds its conditions cleared already,
and `stop` makes the core STOPPED. -/
theorem flagResetClearsConditions : Obligations.FlagResetClearsConditions := by
  refine ⟨rfl, flagReset_next, ?again, fun s hlegal hstop =>
    step_of_stopped hlegal (State.stopped_of_stop hstop)⟩
  case again =>
    intro s t u hst htu
    rw [flagReset_flags htu, flagReset_flags hst, Flags.resetConditions_idem]

end Sys2Proof.Machine
end

section
/-! O33 and O34, `44_data_movement.md` R191 and R192: one cycle from the bytes at `pc`, and the two
pushes that read them. -/

namespace Sys2Proof

/-! ### Decoding an instruction's own opcode byte -/

section
variable {m : OpMap} (hm : m.legal = true) {i : Instr} {shape : Shape}
  (hrow : shapes[i.row]? = some shape) {bs : List Byte}
include hm hrow

/-- Under a legal map an instruction's opcode byte selects the shape of its row, and the bytes after it
are the operands. -/
theorem decode_opcode_cons {j : Instr} {rest : List Byte} (hops : shape.operands bs = some (j, rest)) :
    decode m (i.opcode m :: bs) = .ok (j, rest) := by
  simp only [decode, shapeOf_opcode hm i, hrow, hops]

theorem decode_opcode_cons_short (hops : shape.operands bs = none) :
    decode m (i.opcode m :: bs) = .error (.operandPastEnd (i.opcode m)) := by
  simp only [decode, shapeOf_opcode hm i, hrow, hops]

end

/-- `FetchLit` runs past the end of the buffer where fewer than four bytes are left (`40_core_cycle.md`
R92). -/
theorem takeLit_eq_none {bs : List Byte} (h : bs.length < 4) : takeLit bs = none := by
  match bs, h with
  | [], _ | [_], _ | [_, _], _ | [_, _, _], _ => rfl

namespace Machine

/-! ### One cycle of a RUNNING core -/

theorem State.not_stopped {s : State} (hstop : s.flags.stop = false) (herr : s.err = none) :
    s.stopped = false := by
  rw [State.stopped, hstop, herr, Option.isSome_none, Bool.false_or]

theorem State.configLegal_opmap {s : State} (h : s.configLegal = true) : s.opmap.legal = true := by
  rw [State.configLegal, Bool.and_eq_true] at h
  exact h.2

theorem State.raise_eq_failed (s : State) (k : ErrKind) (op : Option Byte) :
    s.raise k op = failed s k op := rfl

section
variable {s : State} (hlegal : s.configLegal = true) (hrunning : s.stopped = false)
include hlegal hrunning

/-- A RUNNING core whose bytes at `pc` decode to an instruction runs it (`40_core_cycle.md` R94). -/
theorem step_of_decode_ok {i : Instr} {rest : List Byte} (h : decode s.opmap s.stream = .ok (i, rest)) :
    step s = exec i s := by
  simp [step, hlegal, hrunning, State.fetch, h]

/-- A RUNNING core whose bytes at `pc` decode to nothing takes `DecodeError` (`60_exceptions.md` R256). -/
theorem step_of_decode_error {e : DecodeReject} (h : decode s.opmap s.stream = .error e) :
    step s = .next (failed s .decodeError e.opcode) := by
  simp [step, hlegal, hrunning, State.fetch, h, State.raise_eq_failed]

variable {i : Instr} {shape : Shape} (hrow : shapes[i.row]? = some shape) {bs : List Byte}
  (hbytes : s.stream = s.opcodeOf i :: bs)
include hrow hbytes

/-- With an instruction's opcode byte at `pc`, the core runs the instruction that its shape makes of the
bytes after it. -/
theorem step_of_operands {j : Instr} {rest : List Byte} (hops : shape.operands bs = some (j, rest)) :
    step s = exec j s :=
  step_of_decode_ok hlegal hrunning <| by
    rw [hbytes]
    exact decode_opcode_cons (State.configLegal_opmap hlegal) hrow hops

/-- With an instruction's opcode byte at `pc` and too few bytes after it, the core takes `DecodeError`
(`40_core_cycle.md` R92). -/
theorem step_of_operands_short (hops : shape.operands bs = none) :
    step s = .next (failed s .decodeError (some (s.opcodeOf i))) := by
  refine step_of_decode_error hlegal hrunning (e := .operandPastEnd (s.opcodeOf i)) ?_
  rw [hbytes]
  exact decode_opcode_cons_short (State.configLegal_opmap hlegal) hrow hops

end

/-! ### The two pushes -/

/-- A literal's push always completes. -/
theorem pushLit_next (lit : Word) (s : State) :
    exec (.pushLit lit) s = .next ((s.push lit).setPc (s.pc + 5)) := rfl

theorem pushReg_next {ra : RegIdx} {s : State} (h : ra.toNat < s.nreg) :
    exec (.pushReg ra) s = .next ((s.push (s.reg ra.toNat)).setPc (s.pc + 2)) := by
  change execPushReg ra s = _
  rw [execPushReg, State.regOperand_inRange h]
  rfl

theorem pushReg_outOfRange {ra : RegIdx} {s : State} (h : ¬ ra.toNat < s.nreg) :
    exec (.pushReg ra) s = .next (failed s .decodeError (some (s.opcodeOf (.pushReg ra)))) := by
  change execPushReg ra s = _
  rw [execPushReg, State.regOperand_outOfRange h]
  rfl

/-- Settles O33: four bytes after the opcode are the literal that `FetchLit` reads, and fewer are none. -/
theorem pushLitFromItsBytes : Obligations.PushLitFromItsBytes := by
  refine ⟨fun _ => rfl, ?_⟩
  rintro s _ hlegal hstop herr rfl
  have hrunning := State.not_stopped hstop herr
  have hrow : shapes[(Instr.pushLit 0).row]? = some (.fl .pushLit) := rfl
  refine ⟨?literal, ?short⟩
  case literal =>
    intro l3 l2 l1 l0 rest hbytes
    have hops : (Shape.fl .pushLit).operands (l3 :: l2 :: l1 :: l0 :: rest) =
        some (.pushLit (wordOfBytes l3 l2 l1 l0), rest) := rfl
    exact (step_of_operands hlegal hrunning hrow hbytes hops).trans (pushLit_next _ s)
  case short =>
    intro rest hbytes hlen
    have hops : (Shape.fl .pushLit).operands rest = none := by
      rw [Shape.operands, takeLit_eq_none hlen]
      rfl
    exact step_of_operands_short hlegal hrunning hrow hbytes hops

/-- Settles O34: the byte after the opcode is the register index, which `push_reg` itself checks against
`NREG` (log 13). -/
theorem pushRegFromItsBytes : Obligations.PushRegFromItsBytes := by
  refine ⟨fun _ => rfl, ?_⟩
  rintro s _ hlegal hstop herr rfl
  have hrunning := State.not_stopped hstop herr
  have hrow : shapes[(Instr.pushReg 0).row]? = some (.fr .pushReg) := rfl
  refine ⟨?register, fun hbytes => step_of_operands_short hlegal hrunning hrow hbytes rfl⟩
  case register =>
    intro ra rest hbytes
    have hstep : step s = exec (.pushReg ra) s := step_of_operands hlegal hrunning hrow hbytes rfl
    exact ⟨fun hin => hstep.trans (pushReg_next hin),
      fun hout => hstep.trans (pushReg_outOfRange (Nat.not_lt.2 hout))⟩

end Machine
end Sys2Proof
end

section
/-! O1 to O4, `30_encoding.md`: decoding and encoding undo each other, and the unassigned bytes. -/

namespace Sys2Proof

/-! ### The operands of each format (R71) -/

section
variable (rest : List Byte) (ra rb : RegIdx) (v w : Word)

theorem operands_fr (mk : RegIdx → Instr) :
    (Shape.fr mk).operands ([ra] ++ rest) = some (mk ra, rest) := rfl

theorem operands_frr (mk : RegIdx → RegIdx → Instr) :
    (Shape.frr mk).operands ([ra, rb] ++ rest) = some (mk ra rb, rest) := rfl

theorem operands_fl (mk : Word → Instr) :
    (Shape.fl mk).operands (bytesOfWord v ++ rest) = some (mk v, rest) := by
  simp [Shape.operands]

theorem operands_fa (mk : Word → Instr) :
    (Shape.fa mk).operands (bytesOfWord v ++ rest) = some (mk v, rest) := operands_fl rest v mk

theorem operands_frl (mk : RegIdx → Word → Instr) :
    (Shape.frl mk).operands (ra :: bytesOfWord v ++ rest) = some (mk ra v, rest) := by
  simp [Shape.operands]

theorem operands_fra (mk : RegIdx → Word → Instr) :
    (Shape.fra mk).operands (ra :: bytesOfWord v ++ rest) = some (mk ra v, rest) :=
  operands_frl rest ra v mk

theorem operands_fla (mk : Word → Word → Instr) :
    (Shape.fla mk).operands (bytesOfWord v ++ bytesOfWord w ++ rest) = some (mk v w, rest) := by
  simp [Shape.operands]

theorem operands_faa (mk : Word → Word → Instr) :
    (Shape.faa mk).operands (bytesOfWord v ++ bytesOfWord w ++ rest) = some (mk v w, rest) :=
  operands_fla rest v w mk

end

/-- Each instruction's row holds a shape that reads the instruction back from its operand bytes. -/
theorem shape_reads_operandBytes (i : Instr) : ∃ shape, shapes[i.row]? = some shape ∧
    ∀ rest, shape.operands (i.operandBytes ++ rest) = some (i, rest) := by
  cases i with
  | exit | nop | stackDupe | mathAddStack | mathSubStack | mathMulStack | mathDivStack | mathAndStack
  | mathOrStack | mathXorStack | mathShlStack | mathShrStack | mathNotStack | mathIncStack
  | mathDecStack | mathSqrtStack | mathRandStack | mathPowStack | flagReset | procedureReturn
  | syscall => exact ⟨_, rfl, fun _ => rfl⟩
  | pushReg ra | popReg ra | mathNotReg ra | mathIncReg ra | mathDecReg ra | mathSqrtReg ra
  | mathRandReg ra => exact ⟨_, rfl, fun rest => operands_fr rest ra _⟩
  | movRegReg ra rb | mathAddReg ra rb | mathSubReg ra rb | mathMulReg ra rb | mathDivReg ra rb
  | mathAndReg ra rb | mathOrReg ra rb | mathXorReg ra rb | mathShlReg ra rb | mathShrReg ra rb
  | mathPowReg ra rb | compareRegReg ra rb => exact ⟨_, rfl, fun rest => operands_frr rest ra rb _⟩
  | pushLit v | mathAddStackLit v | mathSubStackLit v | mathMulStackLit v | mathDivStackLit v
  | mathAndStackLit v | mathOrStackLit v | mathXorStackLit v | mathShlStackLit v | mathShrStackLit v
  | compareStackLit v => exact ⟨_, rfl, fun rest => operands_fl rest v _⟩
  | pushMem v | popMemory v | jumpAbsolute v | jumpEqual v | jumpNotEqual v | jumpGreater v
  | jumpSmaller v | jumpOverflow v | procedureCall v => exact ⟨_, rfl, fun rest => operands_fa rest v _⟩
  | movLitReg ra v | mathAddRegLit ra v | mathSubRegLit ra v | mathMulRegLit ra v | mathDivRegLit ra v
  | mathAndRegLit ra v | mathOrRegLit ra v | mathXorRegLit ra v | mathShlRegLit ra v
  | mathShrRegLit ra v | compareRegLit ra v => exact ⟨_, rfl, fun rest => operands_frl rest ra v _⟩
  | movMemReg ra v | movRegMem ra v => exact ⟨_, rfl, fun rest => operands_fra rest ra v _⟩
  | movLitMem v w => exact ⟨_, rfl, fun rest => operands_fla rest v w _⟩
  | movMemMem v w => exact ⟨_, rfl, fun rest => operands_faa rest v w _⟩

/-- Settles O1: a legal map's byte selects the shape of the instruction's row, which reads the operand
bytes back. -/
theorem decodeOfEncodeIsIdentity : Obligations.DecodeOfEncodeIsIdentity := by
  intro m i rest hm
  obtain ⟨shape, hrow, hread⟩ := shape_reads_operandBytes i
  exact decode_opcode_cons hm hrow (hread rest)

/-! ### The instructions a row makes -/

/-- The instruction `i` stands in row `n` and has these operand bytes and register indices. -/
def Instr.Has (i : Instr) (n : Nat) (operandBytes : List Byte) (registers : List RegIdx) : Prop :=
  i.row = n ∧ i.operandBytes = operandBytes ∧ i.registers = registers

/-- Every instruction a shape makes stands in row `n`, and has the operand bytes and the registers it
was made of, in stream order (R70). -/
def Shape.MakesRow (n : Nat) : Shape → Prop
  | .f0 i => i.Has n [] []
  | .fr mk => ∀ ra, (mk ra).Has n [ra] [ra]
  | .frr mk => ∀ ra rb, (mk ra rb).Has n [ra, rb] [ra, rb]
  | .fl mk => ∀ lit, (mk lit).Has n (bytesOfWord lit) []
  | .fa mk => ∀ addr, (mk addr).Has n (bytesOfWord addr) []
  | .frl mk => ∀ ra lit, (mk ra lit).Has n (ra :: bytesOfWord lit) [ra]
  | .fra mk => ∀ ra addr, (mk ra addr).Has n (ra :: bytesOfWord addr) [ra]
  | .fla mk => ∀ lit addr, (mk lit addr).Has n (bytesOfWord lit ++ bytesOfWord addr) []
  | .faa mk => ∀ addr1 addr2, (mk addr1 addr2).Has n (bytesOfWord addr1 ++ bytesOfWord addr2) []

/-- The rows of R80 from `n` on. -/
def MakeRowsFrom : Nat → List Shape → Prop
  | _, [] => True
  | n, shape :: l => shape.MakesRow n ∧ MakeRowsFrom (n + 1) l

theorem makeRowsFrom_shapes : MakeRowsFrom 0 shapes := by
  simp only [shapes, opcodeTable, tableSystem, tableData, tableAddMul, tableDivBitwise, tableShift,
    tableUnary, tableCompare, tableControl, List.cons_append, List.nil_append, List.map_cons,
    List.map_nil]
  repeat' first | constructor | intro _

theorem MakeRowsFrom.getElem? {l : List Shape} {n k : Nat} {shape : Shape} (h : MakeRowsFrom n l)
    (hk : l[k]? = some shape) : shape.MakesRow (n + k) := by
  induction l generalizing n k with
  | nil => simp at hk
  | cons a l ih =>
    cases k with
    | zero =>
      cases hk
      exact h.1
    | succ k =>
      rw [Nat.add_comm k, ← Nat.add_assoc]
      exact ih h.2 hk

/-- The shape in row `n` of R80 makes the instruction of that row. -/
theorem makesRow_of_row {n : Nat} {shape : Shape} (h : shapes[n]? = some shape) : shape.MakesRow n := by
  have := makeRowsFrom_shapes.getElem? h
  rwa [Nat.zero_add] at this

/-- What a shape reads from bytes is an instruction of its row, and the bytes are its operand bytes and
what follows them. -/
theorem Shape.MakesRow.operands {n : Nat} {shape : Shape} (hshape : shape.MakesRow n)
    {bs rest : List Byte} {i : Instr} (h : shape.operands bs = some (i, rest)) :
    i.row = n ∧ bs = i.operandBytes ++ rest := by
  cases shape with
  | f0 j =>
    cases h
    obtain ⟨hrow, hbytes, -⟩ := hshape
    exact ⟨hrow, by rw [hbytes]; rfl⟩
  | fr mk =>
    simp only [Shape.operands, Option.bind_eq_bind, Option.bind_eq_some_iff, Prod.exists,
      Option.some.injEq, Prod.mk.injEq] at h
    obtain ⟨ra, _, hra, rfl, rfl⟩ := h
    obtain ⟨hrow, hbytes, -⟩ := hshape ra
    exact ⟨hrow, by rw [hbytes, takeReg_some hra]; rfl⟩
  | frr mk =>
    simp only [Shape.operands, Option.bind_eq_bind, Option.bind_eq_some_iff, Prod.exists,
      Option.some.injEq, Prod.mk.injEq] at h
    obtain ⟨ra, _, hra, rb, _, hrb, rfl, rfl⟩ := h
    obtain ⟨hrow, hbytes, -⟩ := hshape ra rb
    exact ⟨hrow, by rw [hbytes, takeReg_some hra, takeReg_some hrb]; rfl⟩
  | fl mk | fa mk =>
    simp only [Shape.operands, Option.bind_eq_bind, Option.bind_eq_some_iff, Prod.exists,
      Option.some.injEq, Prod.mk.injEq] at h
    obtain ⟨v, _, hv, rfl, rfl⟩ := h
    obtain ⟨hrow, hbytes, -⟩ := hshape v
    exact ⟨hrow, by rw [hbytes, takeLit_some hv]⟩
  | frl mk | fra mk =>
    simp only [Shape.operands, Option.bind_eq_bind, Option.bind_eq_some_iff, Prod.exists,
      Option.some.injEq, Prod.mk.injEq] at h
    obtain ⟨ra, _, hra, v, _, hv, rfl, rfl⟩ := h
    obtain ⟨hrow, hbytes, -⟩ := hshape ra v
    exact ⟨hrow, by rw [hbytes, takeReg_some hra, takeLit_some hv]; rfl⟩
  | fla mk | faa mk =>
    simp only [Shape.operands, Option.bind_eq_bind, Option.bind_eq_some_iff, Prod.exists,
      Option.some.injEq, Prod.mk.injEq] at h
    obtain ⟨v, _, hv, w, _, hw, rfl, rfl⟩ := h
    obtain ⟨hrow, hbytes, -⟩ := hshape v w
    exact ⟨hrow, by rw [hbytes, takeLit_some hv, takeLit_some hw, List.append_assoc]⟩

/-! ### What the decoder answers -/

/-- What a decoding that succeeds has found: the opcode byte's row, and the operands of its shape. -/
theorem decode_eq_ok {m : OpMap} {bs rest : List Byte} {i : Instr} (h : decode m bs = .ok (i, rest)) :
    ∃ op ops shape, bs = op :: ops ∧ shapeOf m op = some shape ∧
      shape.operands ops = some (i, rest) := by
  cases bs with
  | nil => cases h
  | cons op ops =>
    rw [decode] at h
    split at h
    case h_1 => cases h
    case h_2 shape hshape =>
      split at h
      case h_1 r hops =>
        cases h
        exact ⟨op, ops, shape, rfl, hshape, hops⟩
      case h_2 => cases h

/-- Settles O2: the byte stands in the map at the row of the shape it selects, and the shape's operands
are the instruction's operand bytes. -/
theorem decodedBytesAreTheEncoding : Obligations.DecodedBytesAreTheEncoding := by
  intro m bs rest i h
  obtain ⟨op, ops, shape, rfl, hshape, hops⟩ := decode_eq_ok h
  obtain ⟨n, hop, hrow⟩ := shapeOf_eq_some hshape
  obtain ⟨rfl, rfl⟩ := (makesRow_of_row hrow).operands hops
  have hopcode : i.opcode m = op := by rw [Instr.opcode, List.getD, hop]; rfl
  rw [encode, hopcode, List.cons_append]

/-- An opcode byte is rejected as unassigned exactly where it selects no shape. -/
theorem decode_eq_unassigned {m : OpMap} {op : Byte} {rest : List Byte} :
    decode m (op :: rest) = .error (.unassignedOpcode op) ↔ shapeOf m op = none := by
  rw [decode]
  cases shapeOf m op with
  | none => simp
  | some shape => cases hops : shape.operands rest <;> simp [hops]

/-- The bytes of the default map, range by range (R80). -/
theorem default_toNat : OpMap.default.map BitVec.toNat =
    List.range' 0x00 2 ++ List.range' 0x10 12 ++ List.range' 0x20 36 ++ List.range' 0x50 12 ++
      List.range' 0x60 4 ++ List.range' 0x70 6 ++ List.range' 0x80 2 ++ [0x90] := rfl

/-- R77's ranges are the bytes that the default map does not have. -/
theorem not_mem_default (op : Byte) : op ∉ OpMap.default ↔
    (0x02 ≤ op.toNat ∧ op.toNat ≤ 0x0F) ∨ (0x1C ≤ op.toNat ∧ op.toNat ≤ 0x1F) ∨
    (0x44 ≤ op.toNat ∧ op.toNat ≤ 0x4F) ∨ (0x5C ≤ op.toNat ∧ op.toNat ≤ 0x5F) ∨
    (0x64 ≤ op.toNat ∧ op.toNat ≤ 0x6F) ∨ (0x76 ≤ op.toNat ∧ op.toNat ≤ 0x7F) ∨
    (0x82 ≤ op.toNat ∧ op.toNat ≤ 0x8F) ∨ 0x91 ≤ op.toNat := by
  rw [← List.mem_map_of_injective BitVec.toNat_injective, default_toNat]
  simp only [List.mem_append, List.mem_range'_1, List.mem_singleton]
  omega

/-- Settles O3: a byte selects no shape exactly where a legal map does not have it, and the default map
is legal. -/
theorem unassignedOpcodesAreTheListedRanges : Obligations.UnassignedOpcodesAreTheListedRanges := by
  have hunassigned : ∀ (m : OpMap) (op : Byte) (rest : List Byte), m.legal = true →
      (decode m (op :: rest) = .error (.unassignedOpcode op) ↔ op ∉ m) := fun m op rest hm =>
    decode_eq_unassigned.trans (shapeOf_eq_none (OpMap.legal_iff.1 hm).1)
  exact ⟨hunassigned, OpMap.default_legal, fun op rest =>
    (hunassigned _ op rest OpMap.default_legal).trans (not_mem_default op)⟩

/-- Settles O4: each word is decoded by evaluation. -/
theorem sampleBytesDecode : Obligations.SampleBytesDecode :=
  ⟨rfl, rfl, rfl, rfl, rfl, rfl, rfl, rfl, rfl, rfl⟩

end Sys2Proof
end

section
/-! What an instruction can write, said once for all 75 (`10_state.md` section 7): either it raises an
error and does nothing else, or its effect is a sequence of the updates of `Writes`, each of them open to
its own instructions. -/

namespace Sys2Proof.Machine

/-- The instructions whose handler writes `pc` itself (`40_core_cycle.md` R95). -/
def transfersControl : Instr → Bool
  | .jumpAbsolute _ | .jumpEqual _ | .jumpNotEqual _ | .jumpGreater _ | .jumpSmaller _ => true
  | .jumpOverflow _ | .procedureCall _ | .procedureReturn => true
  | _ => false

/-- `Writes i s u`: `u` comes from `s` by updates that the instruction `i` may make at `s`. -/
inductive Writes (i : Instr) (s : State) : State → Prop
  | refl : Writes i s s
  | setReg {u : State} (n : Nat) (v : Word) : Writes i s u → Writes i s (u.setReg n v)
  | setStack {u : State} (st : List Word) : Writes i s u → Writes i s (u.setStack st)
  | setFrame {u : State} (b d : Nat) : isCallOrReturn i = true → Writes i s u →
      Writes i s (u.setFrame b d)
  | putOverflow {u : State} (v : Option Bool) : (v = none ∨ writesOverflow i = true) → Writes i s u →
      Writes i s (u.setFlags (u.flags.putOverflow v))
  | compare {u : State} (a b : Word) : writesRelational i = true → Writes i s u →
      Writes i s (u.compare a b)
  | resetConditions {u : State} : i = .flagReset → Writes i s u →
      Writes i s (u.setFlags u.flags.resetConditions)
  | setStop {u : State} : i = .exit → Writes i s u → Writes i s (u.setFlags u.flags.setStop)
  | writeBytes {u : State} (a : Nat) (bs : List Byte) : writesMemory s i = true →
      (bs = [] ∨ a + bs.length ≤ s.memSize) → Writes i s u →
      Writes i s (u.setMem (Memory.writeBytes a bs u.mem))
  | request {u : State} (rs : List HostRequest) : asksHost i = true →
      (∀ r ∈ rs, r.hasAnswer = false ∧ r.answerFits = true) → Writes i s u →
      Writes i s (u.request rs)
  | answered {u : State} (r : HostRequest) : asksHost i = true →
      r.hasAnswer = true ∧ r.answerFits = true → Writes i s u → Writes i s (u.answered r)

/-- `i` completes at `s` with the effect `u` and leaves `pc` at `target`. -/
structure Completes (i : Instr) (s u : State) (target : Word) : Prop where
  writes : Writes i s u
  pc : transfersControl i = false → target = s.nextPc i

/-- What `i` can answer at `s`: the next state after its effect, or the error it raised. -/
def Answers (i : Instr) (s : State) (r : Result) : Prop :=
  (∃ u target, Completes i s u target ∧ r = .next (u.setPc target)) ∨
  (∃ k, r = .next (s.raise k (some (s.opcodeOf i))))

section
variable {i : Instr} {s u : State}

/-! ### Composed updates -/

/-- An ALU result whose overflow outcome, where it has one, the instruction may write. -/
def MayPut (i : Instr) (r : AluResult) : Prop := r.overflow = none ∨ writesOverflow i = true

/-- No result of the operation has an overflow outcome that the instruction may not write. -/
def BinaryOp.MayPut (i : Instr) (op : BinaryOp) : Prop :=
  ∀ ⦃a b r⦄, op a b = .ok r → Machine.MayPut i r

theorem BinaryOp.mayPut_of_writes {op : BinaryOp} (hi : writesOverflow i = true) : op.MayPut i :=
  fun _ _ _ _ => .inr hi

theorem BinaryOp.Unchecked.mayPut {op : BinaryOp} (hop : op.Unchecked) : op.MayPut i :=
  fun _ _ _ hr => .inl (hop hr)

theorem Writes.putRegResult {r : AluResult} (hr : MayPut i r) (n : Nat) (h : Writes i s u) :
    Writes i s (u.putRegResult n r) := (h.putOverflow _ hr).setReg n r.value

theorem Writes.push (v : Word) (h : Writes i s u) : Writes i s (u.push v) := h.setStack _

theorem Writes.putStackResult {r : AluResult} (hr : MayPut i r) (h : Writes i s u) :
    Writes i s (u.putStackResult r) := (h.putOverflow _ hr).push r.value

theorem Writes.restoreRegs (h : Writes i s u) (r3 r2 r1 r0 : Word) :
    Writes i s (u.restoreRegs r3 r2 r1 r0) :=
  (((h.setReg 3 r3).setReg 2 r2).setReg 1 r1).setReg 0 r0

/-! ### The ends of the cycle -/

theorem answers_retire {r : Except ErrKind State} (h : ∀ u, r = .ok u → Writes i s u) :
    Answers i s (s.retire i r) := by
  cases r with
  | ok u => exact .inl ⟨u, s.nextPc i, ⟨h u rfl, fun _ => rfl⟩, rfl⟩
  | error k => exact .inr ⟨k, rfl⟩

theorem answers_retire_ok (h : Writes i s u) : Answers i s (s.retire i (.ok u)) :=
  answers_retire fun _ hu => by cases hu; exact h

theorem answers_retireTo {r : Except ErrKind (State × Word)} (hi : transfersControl i = true)
    (h : ∀ u target, r = .ok (u, target) → Writes i s u) : Answers i s (s.retireTo i r) := by
  cases r with
  | ok p => exact .inl ⟨p.1, p.2, ⟨h p.1 p.2 rfl, fun hn => by cases hi.symm.trans hn⟩, rfl⟩
  | error k => exact .inr ⟨k, rfl⟩

theorem answers_retireTo_ok (hi : transfersControl i = true) (h : Writes i s u) (target : Word) :
    Answers i s (s.retireTo i (.ok (u, target))) :=
  answers_retireTo hi fun _ _ hu => by cases hu; exact h

theorem answers_jumpWhen (taken : Bool) (target : Word) (hi : transfersControl i = true) :
    Answers i s (jumpWhen taken i target s) := answers_retireTo_ok hi .refl _

/-! ### The operations that can fail -/

theorem writes_of_memWrite {addr v : Word} (hi : writesMemory s i = true)
    (hsize : u.memSize = s.memSize) (hu : Writes i s u) {w : State} (h : u.memWrite addr v = .ok w) :
    Writes i s w := by
  obtain ⟨hbound, rfl⟩ := State.memWrite_eq_ok.1 h
  refine hu.writeBytes addr.toNat (bytesOfWord v) hi (.inr ?_)
  rw [bytesOfWord_length, ← hsize]
  exact hbound

theorem writes_of_leaveProcedure {target : Word} (h : s.leaveProcedure = .ok (u, target)) :
    Writes .procedureReturn s u := by
  obtain ⟨-, -, saved, r3, r2, r1, r0, rest, -, -, rfl⟩ := State.leaveProcedure_eq_ok h
  exact ((Writes.refl.setStack rest).restoreRegs r3 r2 r1 r0).setFrame _ _ rfl

theorem writes_enterProcedure (addr : Word) : Writes (.procedureCall addr) s s.enterProcedure :=
  (((((Writes.refl.push _).push _).push _).push _).push _).setFrame _ _ rfl

theorem writes_of_service (h : s.service = .ok u) : Writes .syscall s u := by
  rcases State.service_eq_ok h with
    ⟨-, -, rfl⟩ | ⟨h0, hrange, rfl⟩ | ⟨-, rfl⟩ | ⟨-, rfl⟩ | ⟨-, -, -, -, rfl⟩
  case inl =>
    exact Writes.refl.request _ rfl (by simp [HostRequest.hasAnswer, HostRequest.answerFits])
  case inr.inl =>
    have hlen := s.lineAnswer_length (s.reg 2)
    have hfits : (HostRequest.readLine (s.reg 2) (s.lineAnswer (s.reg 2))).answerFits = true :=
      decide_eq_true hlen
    refine (Writes.refl.answered _ rfl ⟨rfl, hfits⟩).writeBytes _ _ (decide_eq_true h0) ?_
    rcases State.rangeInBounds_iff.1 hrange with hn | hn
    · exact .inl (List.length_eq_zero_iff.1 (by omega))
    · exact .inr (by omega)
  case inr.inr.inl | inr.inr.inr.inl =>
    exact Writes.refl.request _ rfl (by simp [HostRequest.hasAnswer, HostRequest.answerFits])
  case inr.inr.inr.inr => exact .refl

/-! ### The operand forms -/

theorem retire_total (s : State) (i : Instr) (r : Except ErrKind State) :
    ∃ t, s.retire i r = .next t := by
  cases r <;> exact ⟨_, rfl⟩

section
variable {op : BinaryOp} (hop : op.MayPut i)
include hop

theorem answers_binaryReg (ra rb : RegIdx) : Answers i s (binaryReg op i ra rb s) := by
  obtain ⟨t, ht⟩ : ∃ t, binaryReg op i ra rb s = .next t := retire_total ..
  rcases binaryReg_next ht with ⟨r, -, -, hr, rfl⟩ | ⟨k, rfl⟩
  · exact .inl ⟨_, _, ⟨Writes.refl.putRegResult (hop hr) _, fun _ => rfl⟩, ht⟩
  · exact .inr ⟨k, ht⟩

theorem answers_binaryRegLit (ra : RegIdx) (lit : Word) : Answers i s (binaryRegLit op i ra lit s) := by
  obtain ⟨t, ht⟩ : ∃ t, binaryRegLit op i ra lit s = .next t := retire_total ..
  rcases binaryRegLit_next ht with ⟨r, -, hr, rfl⟩ | ⟨k, rfl⟩
  · exact .inl ⟨_, _, ⟨Writes.refl.putRegResult (hop hr) _, fun _ => rfl⟩, ht⟩
  · exact .inr ⟨k, ht⟩

theorem answers_binaryStack : Answers i s (binaryStack op i s) := by
  obtain ⟨t, ht⟩ : ∃ t, binaryStack op i s = .next t := retire_total ..
  rcases binaryStack_next ht with ⟨a, b, rest, r, -, hr, rfl⟩ | ⟨k, rfl⟩
  · exact .inl ⟨_, _, ⟨(Writes.refl.setStack rest).putStackResult (hop hr), fun _ => rfl⟩, ht⟩
  · exact .inr ⟨k, ht⟩

theorem answers_binaryStackLit (lit : Word) : Answers i s (binaryStackLit op i lit s) := by
  obtain ⟨t, ht⟩ : ∃ t, binaryStackLit op i lit s = .next t := retire_total ..
  rcases binaryStackLit_next ht with ⟨a, rest, r, -, hr, rfl⟩ | ⟨k, rfl⟩
  · exact .inl ⟨_, _, ⟨(Writes.refl.setStack rest).putStackResult (hop hr), fun _ => rfl⟩, ht⟩
  · exact .inr ⟨k, ht⟩

end

section
variable {op : UnaryOp} (hop : ∀ a, MayPut i (op a))
include hop

theorem answers_unaryReg (ra : RegIdx) : Answers i s (unaryReg op i ra s) := by
  obtain ⟨t, ht⟩ : ∃ t, unaryReg op i ra s = .next t := retire_total ..
  rcases unaryReg_next ht with ⟨-, rfl⟩ | ⟨k, rfl⟩
  · exact .inl ⟨_, _, ⟨Writes.refl.putRegResult (hop _) _, fun _ => rfl⟩, ht⟩
  · exact .inr ⟨k, ht⟩

theorem answers_unaryStack : Answers i s (unaryStack op i s) := by
  obtain ⟨t, ht⟩ : ∃ t, unaryStack op i s = .next t := retire_total ..
  rcases unaryStack_next ht with ⟨a, rest, -, rfl⟩ | ⟨k, rfl⟩
  · exact .inl ⟨_, _, ⟨(Writes.refl.setStack rest).putStackResult (hop a), fun _ => rfl⟩, ht⟩
  · exact .inr ⟨k, ht⟩

end
end

/-! ### Every instruction -/

theorem aluShl_unchecked : BinaryOp.Unchecked aluShl := BinaryOp.unchecked_of_value _

theorem aluShr_unchecked : BinaryOp.Unchecked aluShr := BinaryOp.unchecked_of_value _

theorem aluDiv_unchecked : BinaryOp.Unchecked aluDiv := by
  intro a b r h
  rw [aluDiv] at h
  split at h
  · cases h
  · cases h
    rfl

/-- Every instruction, in every state, completes with an effect it may have, or raises an error. -/
theorem exec_answers (i : Instr) (s : State) : Answers i s (exec i s) := by
  cases i with
  | exit => exact answers_retire_ok (Writes.refl.setStop rfl)
  | nop => exact answers_retire_ok .refl
  | pushLit lit => exact answers_retire_ok (Writes.refl.push lit)
  | pushReg ra | pushMem addr | stackDupe =>
    refine answers_retire fun u hu => ?_
    obtain ⟨v, -, h⟩ := bind_eq_ok.1 hu
    cases h
    exact Writes.refl.push v
  | popReg ra =>
    refine answers_retire fun u hu => ?_
    obtain ⟨-, -, h⟩ := bind_eq_ok.1 hu
    obtain ⟨⟨v, s1⟩, hpop, h⟩ := bind_eq_ok.1 h
    obtain ⟨rest, -, rfl⟩ := State.pop_eq_ok.1 hpop
    cases h
    exact (Writes.refl.setStack rest).setReg _ v
  | popMemory addr =>
    refine answers_retire fun u hu => ?_
    obtain ⟨⟨v, s1⟩, hpop, h⟩ := bind_eq_ok.1 hu
    obtain ⟨rest, -, rfl⟩ := State.pop_eq_ok.1 hpop
    exact writes_of_memWrite (s := s) (u := s.setStack rest) rfl rfl (Writes.refl.setStack rest) h
  | movLitReg ra lit =>
    refine answers_retire fun u hu => ?_
    obtain ⟨-, -, h⟩ := bind_eq_ok.1 hu
    cases h
    exact Writes.refl.setReg _ lit
  | movRegReg ra rb | movMemReg ra addr =>
    refine answers_retire fun u hu => ?_
    obtain ⟨_, -, h⟩ := bind_eq_ok.1 hu
    obtain ⟨_, -, h⟩ := bind_eq_ok.1 h
    cases h
    exact Writes.refl.setReg _ _
  | movRegMem ra addr | movMemMem addr1 addr2 =>
    refine answers_retire fun u hu => ?_
    obtain ⟨v, -, h⟩ := bind_eq_ok.1 hu
    exact writes_of_memWrite rfl rfl .refl h
  | movLitMem lit addr => exact answers_retire fun u hu => writes_of_memWrite rfl rfl .refl hu
  | mathAddReg ra rb | mathSubReg ra rb | mathMulReg ra rb | mathPowReg ra rb =>
    exact answers_binaryReg (BinaryOp.mayPut_of_writes rfl) ra rb
  | mathAddRegLit ra lit | mathSubRegLit ra lit | mathMulRegLit ra lit =>
    exact answers_binaryRegLit (BinaryOp.mayPut_of_writes rfl) ra lit
  | mathAddStack | mathSubStack | mathMulStack | mathPowStack =>
    exact answers_binaryStack (BinaryOp.mayPut_of_writes rfl)
  | mathAddStackLit lit | mathSubStackLit lit | mathMulStackLit lit =>
    exact answers_binaryStackLit (BinaryOp.mayPut_of_writes rfl) lit
  | mathDivReg ra rb => exact answers_binaryReg aluDiv_unchecked.mayPut ra rb
  | mathShlReg ra rb => exact answers_binaryReg aluShl_unchecked.mayPut ra rb
  | mathShrReg ra rb => exact answers_binaryReg aluShr_unchecked.mayPut ra rb
  | mathDivRegLit ra lit => exact answers_binaryRegLit aluDiv_unchecked.mayPut ra lit
  | mathShlRegLit ra lit => exact answers_binaryRegLit aluShl_unchecked.mayPut ra lit
  | mathShrRegLit ra lit => exact answers_binaryRegLit aluShr_unchecked.mayPut ra lit
  | mathDivStack => exact answers_binaryStack aluDiv_unchecked.mayPut
  | mathShlStack => exact answers_binaryStack aluShl_unchecked.mayPut
  | mathShrStack => exact answers_binaryStack aluShr_unchecked.mayPut
  | mathDivStackLit lit => exact answers_binaryStackLit aluDiv_unchecked.mayPut lit
  | mathShlStackLit lit => exact answers_binaryStackLit aluShl_unchecked.mayPut lit
  | mathShrStackLit lit => exact answers_binaryStackLit aluShr_unchecked.mayPut lit
  | mathAndReg ra rb | mathOrReg ra rb | mathXorReg ra rb =>
    exact answers_binaryReg (BinaryOp.unchecked_of_value _).mayPut ra rb
  | mathAndRegLit ra lit | mathOrRegLit ra lit | mathXorRegLit ra lit =>
    exact answers_binaryRegLit (BinaryOp.unchecked_of_value _).mayPut ra lit
  | mathAndStack | mathOrStack | mathXorStack =>
    exact answers_binaryStack (BinaryOp.unchecked_of_value _).mayPut
  | mathAndStackLit lit | mathOrStackLit lit | mathXorStackLit lit =>
    exact answers_binaryStackLit (BinaryOp.unchecked_of_value _).mayPut lit
  | mathIncReg ra | mathDecReg ra => exact answers_unaryReg (fun _ => .inr rfl) ra
  | mathIncStack | mathDecStack => exact answers_unaryStack fun _ => .inr rfl
  | mathNotReg ra | mathSqrtReg ra => exact answers_unaryReg (fun _ => .inl rfl) ra
  | mathNotStack | mathSqrtStack => exact answers_unaryStack fun _ => .inl rfl
  | mathRandReg ra =>
    refine answers_retire fun u hu => ?_
    obtain ⟨-, -, h⟩ := bind_eq_ok.1 hu
    cases h
    exact (Writes.refl.answered _ rfl ⟨rfl, rfl⟩).setReg _ _
  | mathRandStack => exact answers_retire_ok ((Writes.refl.answered _ rfl ⟨rfl, rfl⟩).push _)
  | compareRegReg ra rb =>
    refine answers_retire fun u hu => ?_
    obtain ⟨a, -, h⟩ := bind_eq_ok.1 hu
    obtain ⟨b, -, h⟩ := bind_eq_ok.1 h
    cases h
    exact Writes.refl.compare a b rfl
  | compareRegLit ra lit | compareStackLit lit =>
    refine answers_retire fun u hu => ?_
    obtain ⟨a, -, h⟩ := bind_eq_ok.1 hu
    cases h
    exact Writes.refl.compare a lit rfl
  | flagReset => exact answers_retire_ok (Writes.refl.resetConditions rfl)
  | jumpAbsolute addr | jumpEqual addr | jumpNotEqual addr | jumpGreater addr | jumpSmaller addr
  | jumpOverflow addr => exact answers_jumpWhen _ addr rfl
  | procedureCall addr => exact answers_retireTo_ok rfl (writes_enterProcedure addr) addr
  | procedureReturn => exact answers_retireTo rfl fun _ _ h => writes_of_leaveProcedure h
  | syscall => exact answers_retire fun u hu => writes_of_service hu

/-- What an instruction that answers a next state has done. -/
theorem exec_next {i : Instr} {s t : State} (h : exec i s = .next t) :
    (∃ u target, Completes i s u target ∧ t = u.setPc target) ∨
    (∃ k, t = s.raise k (some (s.opcodeOf i))) := by
  rcases exec_answers i s with ⟨u, target, hu, he⟩ | ⟨k, he⟩ <;> cases h.symm.trans he
  · exact .inl ⟨u, target, hu, rfl⟩
  · exact .inr ⟨k, rfl⟩

end Sys2Proof.Machine
end

section
/-! What every instruction keeps, each by induction on its updates. -/

namespace Sys2Proof.Machine

namespace Writes

variable {i : Instr} {s u : State}

/-- No update writes a constant of the run. -/
theorem constants (h : Writes i s u) : u.prog = s.prog ∧ u.headerSize = s.headerSize ∧
    u.opmap = s.opmap ∧ u.memSize = s.memSize ∧ u.nreg = s.nreg := by
  induction h with
  | refl => exact ⟨rfl, rfl, rfl, rfl, rfl⟩
  | setReg n v _ ih => simpa using ih
  | _ => assumption

theorem err (h : Writes i s u) : u.err = s.err := by
  induction h with
  | refl => rfl
  | _ => assumption

/-! ### Flags -/

theorem relational (h : Writes i s u) (hi : writesRelational i = false) :
    u.flags.equal = s.flags.equal ∧ u.flags.notEqual = s.flags.notEqual ∧
    u.flags.greater = s.flags.greater ∧ u.flags.smaller = s.flags.smaller := by
  induction h with
  | refl => exact ⟨rfl, rfl, rfl, rfl⟩
  | compare _ _ hw => cases hi.symm.trans hw
  | resetConditions hw => cases hw; cases hi
  | _ => assumption

theorem overflow (h : Writes i s u) (hi : writesOverflow i = false) :
    u.flags.overflow = s.flags.overflow := by
  induction h with
  | refl => rfl
  | putOverflow v hv _ ih =>
    obtain rfl | hw := hv
    · exact ih
    · cases hi.symm.trans hw
  | resetConditions hw => cases hw; cases hi
  | _ => assumption

theorem stop (h : Writes i s u) (hi : i ≠ .exit) : u.flags.stop = s.flags.stop := by
  induction h with
  | refl => rfl
  | setStop hw => exact absurd hw hi
  | _ => assumption

/-! ### RAM -/

theorem mem (h : Writes i s u) (hi : writesMemory s i = false) : u.mem = s.mem := by
  induction h with
  | refl => rfl
  | writeBytes _ _ hw => cases hi.symm.trans hw
  | _ => assumption

theorem memWf (h : Writes i s u) (hs : Memory.wf s.mem = true) : Memory.wf u.mem = true := by
  induction h with
  | refl => exact hs
  | writeBytes a bs _ _ _ ih => exact Memory.wf_writeBytes bs a ih
  | _ => assumption

theorem memWithin (h : Writes i s u) (hs : Memory.within s.memSize s.mem = true) :
    Memory.within s.memSize u.mem = true := by
  induction h with
  | refl => exact hs
  | writeBytes a bs _ hrange _ ih => exact Memory.within_writeBytes bs a hrange ih
  | _ => assumption

/-! ### The host interface -/

theorem trace_grows (h : Writes i s u) : ∃ reqs, u.trace = s.trace ++ reqs := by
  induction h with
  | refl => exact ⟨[], (List.append_nil _).symm⟩
  | request rs _ _ _ ih =>
    obtain ⟨reqs, ih⟩ := ih
    exact ⟨reqs ++ rs, by rw [State.request_trace, ih, List.append_assoc]⟩
  | answered r _ _ _ ih =>
    obtain ⟨reqs, ih⟩ := ih
    exact ⟨reqs ++ [r], by rw [State.answered_trace, ih, List.append_assoc]⟩
  | _ => assumption

theorem host (h : Writes i s u) (hi : asksHost i = false) : u.trace = s.trace ∧ u.draws = s.draws := by
  induction h with
  | refl => exact ⟨rfl, rfl⟩
  | request _ hw | answered _ hw => cases hi.symm.trans hw
  | _ => assumption

theorem drawsCounted (h : Writes i s u)
    (hs : s.draws = (s.trace.filter HostRequest.hasAnswer).length) :
    u.draws = (u.trace.filter HostRequest.hasAnswer).length := by
  induction h with
  | refl => exact hs
  | request rs _ hrs _ ih =>
    have hnone : rs.filter HostRequest.hasAnswer = [] :=
      List.filter_eq_nil_iff.2 fun r hr => by simp [(hrs r hr).1]
    rw [State.request_trace, List.filter_append, hnone, List.append_nil]
    exact ih
  | answered r _ hr _ ih =>
    rw [State.answered_trace, List.filter_append, List.filter_singleton, hr.1, State.answered_draws, ih,
      List.length_append]
    rfl
  | _ => assumption

theorem answersFit (h : Writes i s u) (hs : s.trace.all HostRequest.answerFits = true) :
    u.trace.all HostRequest.answerFits = true := by
  induction h with
  | refl => exact hs
  | request rs _ hrs _ ih =>
    rw [State.request_trace, List.all_append, ih, Bool.true_and, List.all_eq_true]
    exact fun r hr => (hrs r hr).2
  | answered r _ hr _ ih => rw [State.answered_trace, List.all_append, ih, List.all_cons, hr.2]; rfl
  | _ => assumption

end Writes

/-! ### The claims over all 75 instructions -/

/-- Settles O28: it completes or raises an error, and both are a next state. -/
theorem everyInstructionHasANextState : Obligations.EveryInstructionHasANextState := by
  intro i s
  rcases exec_answers i s with ⟨u, target, -, h⟩ | ⟨k, h⟩ <;> exact ⟨_, h⟩

/-- No instruction writes a constant of the run (`10_state.md` section 6). -/
theorem exec_constants {i : Instr} {s t : State} (h : exec i s = .next t) :
    t.prog = s.prog ∧ t.headerSize = s.headerSize ∧ t.opmap = s.opmap ∧ t.memSize = s.memSize ∧
    t.nreg = s.nreg := by
  rcases exec_next h with ⟨u, target, hu, rfl⟩ | ⟨k, rfl⟩
  · exact hu.writes.constants
  · exact ⟨rfl, rfl, rfl, rfl, rfl⟩

/-- Settles O27: an instruction that completes leaves `err` alone. -/
theorem errorsArePrecise : Obligations.ErrorsArePrecise := by
  intro i s t hs h ht
  rcases exec_next h with ⟨u, target, hu, rfl⟩ | ⟨k, rfl⟩
  · exact absurd (hu.writes.err.trans hs) ht
  · exact ⟨k, rfl⟩

/-- Settles O32: an error writes no flag, and an effect only those that its instruction may write. -/
theorem flagsHaveOnlyTheirWriters : Obligations.FlagsHaveOnlyTheirWriters := by
  intro i s t h
  refine ⟨fun hi => ?relational, fun hi => ?overflow, fun hi => ?stop, fun hi => ?exit⟩
  case relational =>
    rcases exec_next h with ⟨u, target, hu, rfl⟩ | ⟨k, rfl⟩
    · exact hu.writes.relational hi
    · exact ⟨rfl, rfl, rfl, rfl⟩
  case overflow =>
    rcases exec_next h with ⟨u, target, hu, rfl⟩ | ⟨k, rfl⟩
    · exact hu.writes.overflow hi
    · rfl
  case stop =>
    rcases exec_next h with ⟨u, target, hu, rfl⟩ | ⟨k, rfl⟩
    · exact hu.writes.stop hi
    · rfl
  case exit =>
    subst hi
    cases h
    rfl

/-- Settles O39: an error writes no RAM, and an effect only where its instruction may. -/
theorem memoryHasOnlyItsWriters : Obligations.MemoryHasOnlyItsWriters := by
  intro i s t h hi
  rcases exec_next h with ⟨u, target, hu, rfl⟩ | ⟨k, rfl⟩
  · exact hu.writes.mem hi
  · rfl

/-- Settles O53: an effect only appends to the trace, and an error places no request. -/
theorem onlySyscallAndRandReachTheHost : Obligations.OnlySyscallAndRandReachTheHost := by
  intro i s t h
  rcases exec_next h with ⟨u, target, hu, rfl⟩ | ⟨k, rfl⟩
  · exact ⟨hu.writes.trace_grows, hu.writes.host⟩
  · exact ⟨⟨[], (List.append_nil _).symm⟩, fun _ => ⟨rfl, rfl⟩⟩

/-- The instructions that transfer control are the jumps, the call and the return. -/
theorem eq_of_transfersControl {i : Instr} (hi : transfersControl i = true) :
    isCallOrReturn i = true ∨ (∃ addr, i = .jumpAbsolute addr) ∨
      (∃ J ∈ conditionalJumps, ∃ addr, i = J.1 addr) := by
  cases i with
  | procedureCall addr | procedureReturn => exact .inl rfl
  | jumpAbsolute addr => exact .inr (.inl ⟨addr, rfl⟩)
  | jumpEqual addr =>
    exact .inr (.inr ⟨(.jumpEqual, Flags.equal), by simp [conditionalJumps], addr, rfl⟩)
  | jumpNotEqual addr =>
    exact .inr (.inr ⟨(.jumpNotEqual, Flags.notEqual), by simp [conditionalJumps], addr, rfl⟩)
  | jumpGreater addr =>
    exact .inr (.inr ⟨(.jumpGreater, Flags.greater), by simp [conditionalJumps], addr, rfl⟩)
  | jumpSmaller addr =>
    exact .inr (.inr ⟨(.jumpSmaller, Flags.smaller), by simp [conditionalJumps], addr, rfl⟩)
  | jumpOverflow addr =>
    exact .inr (.inr ⟨(.jumpOverflow, Flags.overflow), by simp [conditionalJumps], addr, rfl⟩)
  | _ => cases hi

theorem State.nextPc_toNat (s : State) (i : Instr) :
    (s.nextPc i).toNat = (s.pc.toNat + i.length) % 4294967296 := by
  rw [State.nextPc, BitVec.toNat_add, BitVec.toNat_ofNat, Nat.add_mod_mod]

/-- Settles O59: an instruction that does not transfer control completes with `pc` at `next`. -/
theorem programCounterAdvancesByTheLength : Obligations.ProgramCounterAdvancesByTheLength := by
  intro i s t _ h ht hcall habs hcond
  have hi : transfersControl i = false := by
    refine Bool.eq_false_iff.2 fun hi => ?_
    rcases eq_of_transfersControl hi with hc | ⟨addr, ha⟩ | ⟨J, hJ, addr, ha⟩
    · cases hcall.symm.trans hc
    · exact habs addr ha
    · exact hcond J hJ addr ha
  rcases exec_next h with ⟨u, target, hu, rfl⟩ | ⟨k, rfl⟩
  · rw [State.setPc_pc, hu.pc hi, s.nextPc_toNat]
    rfl
  · cases ht

end Sys2Proof.Machine
end

section
/-! O55 to O57, `10_state.md` section 8: the invariant, at construction and at every step. -/

namespace Sys2Proof.Machine

/-! ### Flags and configuration -/

theorem Flags.relationalLegal_compare (f : Flags) (a b : Word) :
    (f.compare a b).relationalLegal = true := by
  rcases Nat.lt_trichotomy a.toNat b.toNat with h | h | h
  · have hne : a ≠ b := fun he => by simp [he] at h
    simp [Flags.relationalLegal, Flags.compare, hne, h, Nat.le_of_lt h]
  · obtain rfl := BitVec.eq_of_toNat_eq h
    simp [Flags.relationalLegal, Flags.compare]
  · have hne : a ≠ b := fun he => by simp [he] at h
    simp [Flags.relationalLegal, Flags.compare, hne, h, Nat.le_of_lt h]

theorem Writes.flagsLegal {i : Instr} {s u : State} (h : Writes i s u)
    (hs : s.flags.relationalLegal = true) : u.flags.relationalLegal = true := by
  induction h with
  | refl => exact hs
  | compare a b => exact Flags.relationalLegal_compare _ a b
  | resetConditions => rfl
  | _ => assumption

theorem State.configLegal_iff {s : State} : s.configLegal = true ↔
    4 ≤ s.nreg ∧ s.nreg ≤ 256 ∧ s.memSize ≤ 4294967296 ∧ s.headerSize ≤ s.prog.length ∧
    s.opmap.length = 75 ∧ s.opmap.Nodup := by
  simp [State.configLegal, OpMap.legal_iff, and_assoc]

theorem Writes.configLegal {i : Instr} {s u : State} (h : Writes i s u) :
    u.configLegal = s.configLegal := by
  obtain ⟨hprog, hheader, hopmap, hsize, hnreg⟩ := h.constants
  rw [State.configLegal, hprog, hheader, hopmap, hsize, hnreg, State.configLegal]

/-! ### The invariant -/

/-- A completed instruction keeps the invariant of a state without an error. -/
theorem State.Inv.completes {i : Instr} {s u : State} (hs : s.Inv) (herr : s.err = none)
    (hu : Writes i s u) (target : Word) : (u.setPc target).Inv where
  configLegal := hu.configLegal.trans hs.configLegal
  memWf := hu.memWf hs.memWf
  memWithin := by
    obtain ⟨-, -, -, hsize, -⟩ := hu.constants
    rw [State.setPc_memSize, hsize]
    exact hu.memWithin hs.memWithin
  flagsLegal := hu.flagsLegal hs.flagsLegal
  stopClean := fun _ => hu.err.trans herr
  errHere := fun _ he => by cases (hu.err.trans herr).symm.trans he
  drawsCounted := hu.drawsCounted hs.drawsCounted
  answersFit := hu.answersFit hs.answersFit

/-- Raising an error with the opcode byte at `pc` keeps the invariant of a RUNNING core. -/
theorem State.Inv.raise {s : State} (hs : s.Inv) (hstop : s.flags.stop = false) (k : ErrKind)
    {op : Option Byte} (hop : op = s.stream.head?) : (s.raise k op).Inv where
  configLegal := hs.configLegal
  memWf := hs.memWf
  memWithin := hs.memWithin
  flagsLegal := hs.flagsLegal
  stopClean := fun h => by cases hstop.symm.trans h
  errHere := by
    rintro _ ⟨⟩
    exact ⟨rfl, hop⟩
  drawsCounted := hs.drawsCounted
  answersFit := hs.answersFit

/-- The opcode byte of the instruction fetched is the byte at `pc`. -/
theorem State.opcodeOf_fetch {s : State} {i : Instr} (h : s.fetch = .ok i) :
    some (s.opcodeOf i) = s.stream.head? := by
  rw [State.fetch] at h
  split at h
  case h_1 j rest hdecode =>
    cases h
    rw [decodedBytesAreTheEncoding _ _ _ _ hdecode]
    rfl
  case h_2 => cases h

/-- A rejection names the byte at `pc`, where there is one. -/
theorem decode_error_opcode {m : OpMap} {bs : List Byte} {e : DecodeReject} (h : decode m bs = .error e) :
    e.opcode = bs.head? := by
  cases bs with
  | nil => cases h; rfl
  | cons op rest =>
    rw [decode] at h
    split at h
    · cases h; rfl
    · split at h
      · cases h
      · cases h; rfl

theorem State.fetch_error_opcode {s : State} {e : DecodeReject} (h : s.fetch = .error e) :
    e.opcode = s.stream.head? := by
  rw [State.fetch] at h
  split at h
  case h_1 => cases h
  case h_2 hdecode =>
    cases h
    exact decode_error_opcode hdecode

theorem State.stopped_eq_false {s : State} : s.stopped = false ↔ s.flags.stop = false ∧ s.err = none := by
  rw [State.stopped, Bool.or_eq_false_iff, Option.isSome_eq_false_iff, Option.isNone_iff_eq_none]

/-- Settles O55: a step of a RUNNING core completes an instruction or raises an error with the opcode byte
at `pc`. -/
theorem stepKeepsTheInvariant : Obligations.StepKeepsTheInvariant := by
  intro s t hs h
  rcases step_cases s with ⟨-, hstep⟩ | ⟨-, -, hstep⟩ | ⟨-, hrunning, hrun⟩
  case inl => cases hstep.symm.trans h
  case inr.inl => cases hstep.symm.trans h
  case inr.inr =>
    obtain ⟨hstop, herr⟩ := State.stopped_eq_false.1 hrunning
    rcases hrun with ⟨i, hi, hstep⟩ | ⟨e, he, hstep⟩
    · rcases exec_next (hstep.symm.trans h) with ⟨u, target, hu, rfl⟩ | ⟨k, rfl⟩
      · exact hs.completes herr hu.writes target
      · exact hs.raise hstop k (State.opcodeOf_fetch hi)
    · cases hstep.symm.trans h
      exact hs.raise hstop _ (State.fetch_error_opcode he)

/-! ### Construction -/

theorem State.construct_nreg (p : Params) : (State.construct p).nreg = p.nreg := List.length_replicate

theorem State.construct_inv {p : Params} (h : (State.construct p).configLegal = true) :
    (State.construct p).Inv where
  configLegal := h
  memWf := Memory.wf_ofInit _ _
  memWithin := Memory.within_ofInit _ _
  flagsLegal := rfl
  stopClean := fun _ => rfl
  errHere := fun _ he => by cases he
  drawsCounted := rfl
  answersFit := rfl

/-- Settles O56: construction leaves an empty trace, clear flags and a canonical RAM. -/
theorem resetHasTheInvariant : Obligations.ResetHasTheInvariant := by
  refine ⟨fun p hmin hmax hsize hheader hlen hnodup => State.construct_inv ?_, State.construct_inv rfl⟩
  rw [State.configLegal_iff, State.construct_nreg]
  exact ⟨hmin, hmax, hsize, hheader, hlen, hnodup⟩

/-- RAM at reset is `MEM_INIT` and zero after it (`10_state.md` R35). -/
theorem Memory.read_ofInit {size : Nat} {bytes : List Byte} (h : bytes.length ≤ size) (a : Nat) :
    Memory.read (Memory.ofInit size bytes) a = bytes.getD a 0 := by
  rw [Memory.ofInit, List.take_of_length_le h]
  by_cases ha : a < bytes.length
  · have hread := Memory.read_writeBytes_same bytes 0 (m := []) rfl ha
    rw [Nat.zero_add] at hread
    rw [hread, List.getD_eq_getElem _ _ ha]
  · rw [Memory.read_writeBytes_other _ _ _ (.inr (by omega)), List.getD_eq_default _ _ (by omega)]
    rfl

/-- Settles O57: the fields by evaluation, RAM by `Memory.read_ofInit`. -/
theorem constructionValues : Obligations.ConstructionValues := by
  intro p hp
  refine ⟨rfl, State.construct_nreg p, fun n => ?reg, rfl, rfl, rfl, rfl, rfl, rfl, rfl, rfl, rfl, rfl,
    fun a => Memory.read_ofInit hp a⟩
  case reg =>
    exact List.getElem?_getD_replicate_default_eq 0 p.nreg n

end Sys2Proof.Machine
end

section
/-! The operand forms of `41_arithmetic_binary.md` R110 and `42_arithmetic_unary.md` R160: the next state
where the operands are there, as an explicit update. -/

namespace Sys2Proof.Machine

section
variable {op : BinaryOp} {i : Instr} {s : State} {ra rb : RegIdx} {a b lit : Word} {rest : List Word}

section
variable {v : Word} {f : Option Bool}

theorem binaryReg_of_ok (ha : ra.toNat < s.nreg) (hb : rb.toNat < s.nreg)
    (hop : op (s.reg ra.toNat) (s.reg rb.toNat) = .ok ⟨v, f⟩) :
    binaryReg op i ra rb s = .next (regWritten s i.length ra v f) := by
  rw [binaryReg, State.regOperand_inRange ha, State.regOperand_inRange hb, ok_bind, ok_bind, hop]
  rfl

theorem binaryRegLit_of_ok (ha : ra.toNat < s.nreg) (hop : op (s.reg ra.toNat) lit = .ok ⟨v, f⟩) :
    binaryRegLit op i ra lit s = .next (regWritten s i.length ra v f) := by
  rw [binaryRegLit, State.regOperand_inRange ha, ok_bind, hop]
  rfl

theorem binaryStack_of_ok (hs : s.stack = b :: a :: rest) (hop : op a b = .ok ⟨v, f⟩) :
    binaryStack op i s = .next (stackWritten s i.length (v :: rest) f) := by
  have hs' : (s.setStack (a :: rest)).stack = a :: rest := rfl
  simp only [binaryStack, State.pop_cons hs, State.pop_cons hs', ok_bind, hop]
  rfl

theorem binaryStackLit_of_ok (hs : s.stack = a :: rest) (hop : op a lit = .ok ⟨v, f⟩) :
    binaryStackLit op i lit s = .next (stackWritten s i.length (v :: rest) f) := by
  simp only [binaryStackLit, State.pop_cons hs, ok_bind, hop]
  rfl

end

section
variable {k : ErrKind}

theorem binaryReg_of_error (ha : ra.toNat < s.nreg) (hb : rb.toNat < s.nreg)
    (hop : op (s.reg ra.toNat) (s.reg rb.toNat) = .error k) :
    binaryReg op i ra rb s = .next (failedBy s k i) := by
  rw [binaryReg, State.regOperand_inRange ha, State.regOperand_inRange hb, ok_bind, ok_bind, hop]
  rfl

theorem binaryRegLit_of_error (ha : ra.toNat < s.nreg) (hop : op (s.reg ra.toNat) lit = .error k) :
    binaryRegLit op i ra lit s = .next (failedBy s k i) := by
  rw [binaryRegLit, State.regOperand_inRange ha, ok_bind, hop]
  rfl

theorem binaryStack_of_error (hs : s.stack = b :: a :: rest) (hop : op a b = .error k) :
    binaryStack op i s = .next (failedBy s k i) := by
  have hs' : (s.setStack (a :: rest)).stack = a :: rest := rfl
  simp only [binaryStack, State.pop_cons hs, State.pop_cons hs', ok_bind, hop]
  rfl

theorem binaryStackLit_of_error (hs : s.stack = a :: rest) (hop : op a lit = .error k) :
    binaryStackLit op i lit s = .next (failedBy s k i) := by
  simp only [binaryStackLit, State.pop_cons hs, ok_bind, hop]
  rfl

end

theorem unaryReg_inRange {op : UnaryOp} (ha : ra.toNat < s.nreg) :
    unaryReg op i ra s =
      .next (regWritten s i.length ra (op (s.reg ra.toNat)).value (op (s.reg ra.toNat)).overflow) := by
  rw [unaryReg, State.regOperand_inRange ha]
  rfl

theorem unaryStack_cons {op : UnaryOp} (hs : s.stack = a :: rest) :
    unaryStack op i s = .next (stackWritten s i.length ((op a).value :: rest) (op a).overflow) := by
  simp only [unaryStack, State.pop_cons hs]
  rfl

end
end Sys2Proof.Machine
end

section
/-! The ALU functions in natural-number arithmetic (`41_arithmetic_binary.md` R112 to R120,
`42_arithmetic_unary.md` R162 to R166). -/

namespace Sys2Proof.Machine

theorem eq_ofNat_of_toNat {v : Word} {n : Nat} (h : v.toNat = n % 4294967296) : v = BitVec.ofNat 32 n :=
  BitVec.eq_of_toNat_eq (h.trans (BitVec.toNat_ofNat n 32).symm)

/-- A natural number that fits a word, as one. -/
theorem eq_ofNat_of_toNat_eq {v : Word} {n : Nat} (h : v.toNat = n) : v = BitVec.ofNat 32 n := by
  rw [← h, BitVec.ofNat_toNat, BitVec.setWidth_eq]

section
variable (a b : Word)

/-- `a > MAX − b` is that the true sum exceeds `MAX`. -/
theorem add_check_iff : a.toNat > maxWord - b.toNat ↔ a.toNat + b.toNat > maxWord := by
  have hb : b.toNat < 4294967296 := b.isLt
  rw [maxWord]
  omega

theorem aluAdd_eq : aluAdd a b =
    .ok ⟨BitVec.ofNat 32 (a.toNat + b.toNat), some (decide (a.toNat + b.toNat > maxWord))⟩ := by
  rw [aluAdd, BitVec.add_def, decide_eq_decide.2 (add_check_iff a b)]

theorem aluSub_eq : aluSub a b =
    .ok ⟨BitVec.ofNat 32 (a.toNat + 4294967296 - b.toNat), some (decide (a.toNat < b.toNat))⟩ := by
  have hvalue : a - b = BitVec.ofNat 32 (a.toNat + 4294967296 - b.toNat) := by
    have hb : b.toNat < 4294967296 := b.isLt
    refine eq_ofNat_of_toNat ?_
    rw [BitVec.toNat_sub]
    omega
  rw [aluSub, hvalue]

/-- `a > MAX / b` is that the true product exceeds `MAX`. -/
theorem mul_check_iff (hb : b ≠ 0) : a.toNat > maxWord / b.toNat ↔ a.toNat * b.toNat > maxWord :=
  Nat.div_lt_iff_lt_mul (BitVec.toNat_pos_of_ne_zero hb)

theorem aluMul_eq (hb : b ≠ 0) : aluMul a b =
    .ok ⟨BitVec.ofNat 32 (a.toNat * b.toNat), some (decide (a.toNat * b.toNat > maxWord))⟩ := by
  rw [aluMul, if_neg hb, eq_ofNat_of_toNat (BitVec.toNat_mul a b),
    decide_eq_decide.2 (mul_check_iff a b hb)]

theorem aluMul_zero : aluMul a 0 = .error .divisionByZero := rfl

theorem aluDiv_eq (hb : b ≠ 0) : aluDiv a b = .ok ⟨BitVec.ofNat 32 (a.toNat / b.toNat), none⟩ := by
  rw [aluDiv, if_neg hb, BitVec.udiv_def]

theorem aluDiv_zero : aluDiv a 0 = .error .divisionByZero := rfl

theorem aluAnd_eq : aluAnd a b = .ok ⟨BitVec.ofNat 32 (Nat.land a.toNat b.toNat), none⟩ := by
  rw [aluAnd, eq_ofNat_of_toNat_eq (BitVec.toNat_and a b)]
  rfl

theorem aluOr_eq : aluOr a b = .ok ⟨BitVec.ofNat 32 (Nat.lor a.toNat b.toNat), none⟩ := by
  rw [aluOr, eq_ofNat_of_toNat_eq (BitVec.toNat_or a b)]
  rfl

theorem aluXor_eq : aluXor a b = .ok ⟨BitVec.ofNat 32 (Nat.xor a.toNat b.toNat), none⟩ := by
  rw [aluXor, eq_ofNat_of_toNat_eq (BitVec.toNat_xor a b)]
  rfl

theorem aluShl_eq : aluShl a b =
    .ok ⟨if b.toNat < 32 then BitVec.ofNat 32 (a.toNat * 2 ^ b.toNat) else 0, none⟩ := by
  have hvalue : a <<< b.toNat = BitVec.ofNat 32 (a.toNat * 2 ^ b.toNat) :=
    eq_ofNat_of_toNat (by rw [BitVec.toNat_shiftLeft, Nat.shiftLeft_eq])
  rw [aluShl, hvalue]

theorem aluShr_eq : aluShr a b =
    .ok ⟨if b.toNat < 32 then BitVec.ofNat 32 (a.toNat / 2 ^ b.toNat) else 0, none⟩ := by
  have hvalue : a >>> b.toNat = BitVec.ofNat 32 (a.toNat / 2 ^ b.toNat) :=
    eq_ofNat_of_toNat_eq (by rw [BitVec.toNat_ushiftRight, Nat.shiftRight_eq_div_pow])
  rw [aluShr, hvalue]

theorem aluNot_eq : aluNot a = ⟨BitVec.ofNat 32 (maxWord - a.toNat), none⟩ := by
  rw [aluNot, eq_ofNat_of_toNat_eq (BitVec.toNat_not (x := a))]
  rfl

theorem aluInc_eq : aluInc a = ⟨BitVec.ofNat 32 (a.toNat + 1), some (decide (a.toNat = maxWord))⟩ := by
  rw [aluInc, BitVec.add_def]
  rfl

theorem aluDec_eq :
    aluDec a = ⟨BitVec.ofNat 32 (a.toNat + 4294967295), some (decide (a.toNat = 0))⟩ := by
  rw [aluDec, BitVec.sub_def, Nat.add_comm a.toNat]
  rfl

end

/-! ### POW (R166) -/

/-- Squaring takes the exponent's bits from below: at each, `a ^ b = a ^ (b % 2) * (a * a) ^ (b / 2)`. -/
theorem powBits_toNat {k : Nat} (a : Word) {b : Nat} (hb : b < 2 ^ k) :
    (powBits a k b).toNat = a.toNat ^ b % 4294967296 := by
  induction k generalizing a b with
  | zero =>
    obtain rfl : b = 0 := by simpa using hb
    rfl
  | succ k ih =>
    have hhalf : (powBits (a * a) k (b / 2)).toNat = (a.toNat * a.toNat) ^ (b / 2) % 4294967296 := by
      rw [ih (a * a) (by omega), BitVec.toNat_mul, ← Nat.pow_mod]
    have hsquare : a.toNat ^ b = a.toNat ^ (b % 2) * (a.toNat * a.toNat) ^ (b / 2) := by
      rw [← pow_two, ← pow_mul, ← pow_add, Nat.mod_add_div]
    rw [powBits, hsquare]
    split
    case isTrue hodd => rw [hodd, pow_one, BitVec.toNat_mul, hhalf, Nat.mul_mod_mod]
    case isFalse heven => rw [Nat.mod_two_ne_one.1 heven, pow_zero, one_mul, hhalf]

/-- The three-way test is exact: a base below 2 has powers 0 and 1, and a base of 2 or more exceeds `MAX`
at every exponent of 32 or more. -/
theorem powOverflows_eq (a b : Word) : powOverflows a b = decide (a.toNat ^ b.toNat > maxWord) := by
  rw [powOverflows]
  split
  case isTrue hsmall =>
    have hle : a.toNat ^ b.toNat ≤ 1 := by
      simpa using Nat.pow_le_pow_left (Nat.le_of_lt_succ hsmall) b.toNat
    exact (decide_eq_false (by rw [maxWord]; omega)).symm
  case isFalse hbase =>
    split
    case isTrue hexp =>
      have hle : 2 ^ 32 ≤ a.toNat ^ b.toNat :=
        (Nat.pow_le_pow_left (by omega) 32).trans (Nat.pow_le_pow_right (by omega) hexp)
      exact (decide_eq_true (by rw [maxWord]; omega)).symm
    case isFalse => rfl

/-- Settles O14, from `powBits_toNat` and `powOverflows_eq`. -/
theorem powerIsExact : Obligations.PowerIsExact := fun a b => by
  rw [aluPow, powOverflows_eq, eq_ofNat_of_toNat (powBits_toNat a b.isLt)]

end Sys2Proof.Machine
end

section
/-! O16 to O21, the results of the arithmetic instructions: each family runs one ALU function through the
four operand forms. -/

namespace Sys2Proof.Machine

/-- The four instructions of the family are the operand forms of the ALU function `op`, which computes
the family's result. -/
structure BinaryFamily.RunsOn (F : BinaryFamily) (op : BinaryOp) : Prop where
  result : ∀ a b, F.hasResult a b → op a b = .ok ⟨F.value a b, F.overflow a b⟩
  reg : ∀ ra rb s, exec (F.reg ra rb) s = binaryReg op (F.reg ra rb) ra rb s := by intros; rfl
  stack : ∀ s, exec F.stack s = binaryStack op F.stack s := by intros; rfl
  regLit : ∀ ra lit s, exec (F.regLit ra lit) s = binaryRegLit op (F.regLit ra lit) ra lit s := by
    intros; rfl
  stackLit : ∀ lit s, exec (F.stackLit lit) s = binaryStackLit op (F.stackLit lit) lit s := by intros; rfl
  reg_length : ∀ ra rb, (F.reg ra rb).length = 3 := by intros; rfl
  stack_length : F.stack.length = 1 := by rfl
  regLit_length : ∀ ra lit, (F.regLit ra lit).length = 6 := by intros; rfl
  stackLit_length : ∀ lit, (F.stackLit lit).length = 5 := by intros; rfl

theorem binaryFamilies_runOn : ∀ F ∈ binaryFamilies, ∃ op, F.RunsOn op := by
  simp only [binaryFamilies, List.forall_mem_cons]
  refine ⟨⟨aluAdd, ?_⟩, ⟨aluSub, ?_⟩, ⟨aluMul, ?_⟩, ⟨aluDiv, ?_⟩, ⟨aluAnd, ?_⟩, ⟨aluOr, ?_⟩,
    ⟨aluXor, ?_⟩, ⟨aluShl, ?_⟩, ⟨aluShr, ?_⟩, List.forall_mem_nil _⟩
  · exact { result := fun a b _ => aluAdd_eq a b }
  · exact { result := fun a b _ => aluSub_eq a b }
  · exact { result := fun a b hb => aluMul_eq a b hb }
  · exact { result := fun a b hb => aluDiv_eq a b hb }
  · exact { result := fun a b _ => aluAnd_eq a b }
  · exact { result := fun a b _ => aluOr_eq a b }
  · exact { result := fun a b _ => aluXor_eq a b }
  · exact { result := fun a b _ => aluShl_eq a b }
  · exact { result := fun a b _ => aluShr_eq a b }

/-- Settles O16: the register-register form of the family's ALU function. -/
theorem registerRegisterArithmeticResult : Obligations.RegisterRegisterArithmeticResult := by
  intro F hF s ra rb ha hb hres
  obtain ⟨op, hop⟩ := binaryFamilies_runOn F hF
  rw [hop.reg, binaryReg_of_ok ha hb (hop.result _ _ hres), hop.reg_length]

/-- Settles O17: the stack-stack form of the family's ALU function. -/
theorem stackStackArithmeticResult : Obligations.StackStackArithmeticResult := by
  intro F hF s a b rest hs hres
  obtain ⟨op, hop⟩ := binaryFamilies_runOn F hF
  rw [hop.stack, binaryStack_of_ok hs (hop.result _ _ hres), hop.stack_length]

/-- Settles O18: the register-literal form of the family's ALU function. -/
theorem registerLiteralArithmeticResult : Obligations.RegisterLiteralArithmeticResult := by
  intro F hF s ra lit ha hres
  obtain ⟨op, hop⟩ := binaryFamilies_runOn F hF
  rw [hop.regLit, binaryRegLit_of_ok ha (hop.result _ _ hres), hop.regLit_length]

/-- Settles O19: the stack-literal form of the family's ALU function. -/
theorem stackLiteralArithmeticResult : Obligations.StackLiteralArithmeticResult := by
  intro F hF s a lit rest hs hres
  obtain ⟨op, hop⟩ := binaryFamilies_runOn F hF
  rw [hop.stackLit, binaryStackLit_of_ok hs (hop.result _ _ hres), hop.stackLit_length]

/-- The two instructions of the family are the operand forms of the ALU function `op`, which computes the
family's result. -/
structure UnaryFamily.RunsOn (F : UnaryFamily) (op : UnaryOp) : Prop where
  result : ∀ a, op a = ⟨F.value a, F.overflow a⟩
  reg : ∀ ra s, exec (F.reg ra) s = unaryReg op (F.reg ra) ra s := by intros; rfl
  stack : ∀ s, exec F.stack s = unaryStack op F.stack s := by intros; rfl
  reg_length : ∀ ra, (F.reg ra).length = 2 := by intros; rfl
  stack_length : F.stack.length = 1 := by rfl

theorem unaryFamilies_runOn : ∀ F ∈ unaryFamilies, ∃ op, F.RunsOn op := by
  simp only [unaryFamilies, List.forall_mem_cons]
  exact ⟨⟨aluNot, { result := aluNot_eq }⟩, ⟨aluInc, { result := aluInc_eq }⟩,
    ⟨aluDec, { result := aluDec_eq }⟩, ⟨aluSqrt, { result := aluSqrt_eq }⟩, List.forall_mem_nil _⟩

/-- Settles O20: the two one-operand forms of the family's ALU function. -/
theorem unaryArithmeticResult : Obligations.UnaryArithmeticResult := by
  intro F hF
  obtain ⟨op, hop⟩ := unaryFamilies_runOn F hF
  refine ⟨fun s ra ha => ?reg, fun s a rest hs => ?stack⟩
  case reg => rw [hop.reg, unaryReg_inRange ha, hop.result, hop.reg_length]
  case stack => rw [hop.stack, unaryStack_cons hs, hop.result, hop.stack_length]

/-- Settles O21: `pow` is the operand form of `aluPow`, whose value is O14. -/
theorem powerInstructionsResult : Obligations.PowerInstructionsResult :=
  ⟨fun _ _ _ ha hb => binaryReg_of_ok ha hb (powerIsExact _ _),
    fun _ _ _ _ hs => binaryStack_of_ok hs (powerIsExact _ _)⟩

/-- Settles O22: the host's answer is the free value at the model's counter of draws. -/
theorem randomInstructionsResult : Obligations.RandomInstructionsResult := by
  refine ⟨fun s ra ha => ?_, fun s => rfl⟩
  change execMathRandReg ra s = _
  rw [execMathRandReg, State.checkReg_inRange ha]
  rfl

/-- Settles O23: in all eight forms the ALU function raises the error. -/
theorem zeroRightOperandRaisesDivisionByZero : Obligations.ZeroRightOperandRaisesDivisionByZero := by
  refine ⟨fun s ra rb ha hb h0 => ⟨binaryReg_of_error ha hb ?_, binaryReg_of_error ha hb ?_⟩,
    fun s a rest hs =>
      ⟨binaryStack_of_error hs (aluMul_zero a), binaryStack_of_error hs (aluDiv_zero a)⟩,
    fun s ra ha => ⟨binaryRegLit_of_error ha (aluMul_zero _), binaryRegLit_of_error ha (aluDiv_zero _)⟩,
    fun s a rest hs =>
      ⟨binaryStackLit_of_error hs (aluMul_zero a), binaryStackLit_of_error hs (aluDiv_zero a)⟩⟩
  · rw [h0, aluMul_zero]
  · rw [h0, aluDiv_zero]

end Sys2Proof.Machine
end

section
/-! O9 to O11, `41_arithmetic_binary.md` R112 to R114 and R157: exact overflow, and the wrapped result that
the handlers store with the flag set. -/

namespace Sys2Proof.Machine

/-! ### What a handler stores when its operation overflows to `v` -/

section
variable {op : BinaryOp} {i : Instr} {s : State} {ra rb : RegIdx} {a b lit v : Word} {rest : List Word}

theorem regWritten_reg {n : Nat} {f : Option Bool} (ha : ra.toNat < s.nreg) :
    (regWritten s n ra v f).reg ra.toNat = v := State.reg_setReg_same s ra.toNat v ha

theorem binaryReg_overflows (ha : ra.toNat < s.nreg) (hb : rb.toNat < s.nreg)
    (hop : op (s.reg ra.toNat) (s.reg rb.toNat) = .ok ⟨v, some true⟩) :
    ∃ t, binaryReg op i ra rb s = .next t ∧ t.flags.overflow = true ∧ t.reg ra.toNat = v :=
  ⟨_, binaryReg_of_ok ha hb hop, rfl, regWritten_reg ha⟩

theorem binaryRegLit_overflows (ha : ra.toNat < s.nreg)
    (hop : op (s.reg ra.toNat) lit = .ok ⟨v, some true⟩) :
    ∃ t, binaryRegLit op i ra lit s = .next t ∧ t.flags.overflow = true ∧ t.reg ra.toNat = v :=
  ⟨_, binaryRegLit_of_ok ha hop, rfl, regWritten_reg ha⟩

theorem binaryStack_overflows (hs : s.stack = b :: a :: rest) (hop : op a b = .ok ⟨v, some true⟩) :
    ∃ t, binaryStack op i s = .next t ∧ t.flags.overflow = true ∧ t.stack = v :: rest :=
  ⟨_, binaryStack_of_ok hs hop, rfl, rfl⟩

theorem binaryStackLit_overflows (hs : s.stack = a :: rest) (hop : op a lit = .ok ⟨v, some true⟩) :
    ∃ t, binaryStackLit op i lit s = .next t ∧ t.flags.overflow = true ∧ t.stack = v :: rest :=
  ⟨_, binaryStackLit_of_ok hs hop, rfl, rfl⟩

theorem unaryReg_overflows {op : UnaryOp} (ha : ra.toNat < s.nreg)
    (hop : op (s.reg ra.toNat) = ⟨v, some true⟩) :
    ∃ t, unaryReg op i ra s = .next t ∧ t.flags.overflow = true ∧ t.reg ra.toNat = v :=
  ⟨_, unaryReg_inRange ha, by rw [hop]; rfl, by rw [hop]; exact regWritten_reg ha⟩

theorem unaryStack_overflows {op : UnaryOp} (hs : s.stack = a :: rest) (hop : op a = ⟨v, some true⟩) :
    ∃ t, unaryStack op i s = .next t ∧ t.flags.overflow = true ∧ t.stack = v :: rest :=
  ⟨_, unaryStack_cons hs, by rw [hop]; rfl, by rw [hop]; rfl⟩

end

/-! ### ADD, SUB and MUL -/

theorem aluInc_of_aluAdd {a : Word} {r : AluResult} (h : aluAdd a 1 = .ok r) : aluInc a = r :=
  Except.ok.inj ((aluAdd_one a).symm.trans h)

theorem aluDec_of_aluSub {a : Word} {r : AluResult} (h : aluSub a 1 = .ok r) : aluDec a = r :=
  Except.ok.inj ((aluSub_one a).symm.trans h)

/-- Settles O9: where the true sum exceeds `MAX`, `hover` is what every additive handler stores. -/
theorem additionOverflowIsExact : Obligations.AdditionOverflowIsExact := by
  intro a b
  refine ⟨_, _, aluAdd_eq a b, BitVec.toNat_ofNat _ _, decide_eq_decide.2 (add_check_iff a b).symm,
    Nat.le_of_lt_succ b.isLt, decide_eq_true_iff, fun hgt => ?_⟩
  have hover := aluAdd_eq a b
  rw [decide_eq_true hgt] at hover
  refine ⟨?reg, fun s rest hs => binaryStack_overflows hs hover, ?regLit,
    fun s rest hs => binaryStackLit_overflows hs hover, ?incReg, ?incStack⟩
  case reg =>
    rintro s ra rb ha hrb rfl rfl
    exact binaryReg_overflows ha hrb hover
  case regLit =>
    rintro s ra ha rfl
    exact binaryRegLit_overflows ha hover
  case incReg =>
    rintro s ra rfl ha rfl
    exact unaryReg_overflows ha (aluInc_of_aluAdd hover)
  case incStack =>
    rintro s rest rfl hs
    exact unaryStack_overflows hs (aluInc_of_aluAdd hover)

/-- Settles O10: where `a < b`, `hover` is what every subtraction handler stores. -/
theorem subtractionWrapsBelowZero : Obligations.SubtractionWrapsBelowZero := by
  intro a b
  have hb : b.toNat < 4294967296 := b.isLt
  have hvalue : (BitVec.ofNat 32 (a.toNat + 4294967296 - b.toNat)).toNat =
      (a.toNat + 4294967296 - b.toNat) % 4294967296 := BitVec.toNat_ofNat _ _
  refine ⟨_, _, aluSub_eq a b, ?value, rfl, fun hlt => ⟨?wrapped, ?_⟩⟩
  case value =>
    rw [hvalue]
    omega
  case wrapped =>
    rw [hvalue]
    omega
  have hover := aluSub_eq a b
  rw [decide_eq_true hlt] at hover
  refine ⟨?reg, fun s rest hs => binaryStack_overflows hs hover, ?regLit,
    fun s rest hs => binaryStackLit_overflows hs hover, ?decReg, ?decStack⟩
  case reg =>
    rintro s ra rb ha hrb rfl rfl
    exact binaryReg_overflows ha hrb hover
  case regLit =>
    rintro s ra ha rfl
    exact binaryRegLit_overflows ha hover
  case decReg =>
    rintro s ra rfl ha rfl
    exact unaryReg_overflows ha (aluDec_of_aluSub hover)
  case decStack =>
    rintro s rest rfl hs
    exact unaryStack_overflows hs (aluDec_of_aluSub hover)

/-- Settles O11, from `aluMul_eq`. -/
theorem multiplicationOverflowIsExact : Obligations.MultiplicationOverflowIsExact := by
  refine fun a b => ⟨?zero, fun hb => ⟨_, _, aluMul_eq a b hb, BitVec.toNat_ofNat _ _,
    decide_eq_decide.2 (mul_check_iff a b hb).symm, decide_eq_true_iff⟩⟩
  case zero =>
    rintro rfl
    exact aluMul_zero a

end Sys2Proof.Machine
end

section
/-! O24 and O25, `60_exceptions.md` R251, R252 and R259: the register indices are checked first, then the
stack. -/

namespace Sys2Proof.Machine

section
variable {s : State} {i : Instr}

/-- An effect that fails raises its error. -/
theorem retire_of_error {r : Except ErrKind State} {k : ErrKind} (hr : r = .error k) :
    s.retire i r = .next (failedBy s k i) := by
  subst hr
  rfl

/-- An instruction whose first operation fails raises that operation's error. -/
theorem retire_bind_error {α : Type} {x : Except ErrKind α} {k : ErrKind} (hx : x = .error k)
    (f : α → Except ErrKind State) : s.retire i (x >>= f) = .next (failedBy s k i) :=
  retire_of_error (by rw [hx, error_bind])

/-- An instruction whose first operation succeeds raises the error of the rest. -/
theorem retire_of_ok_error {α : Type} {x : Except ErrKind α} {a : α} (hx : x = .ok a)
    {f : α → Except ErrKind State} {k : ErrKind} (hf : f a = .error k) :
    s.retire i (x >>= f) = .next (failedBy s k i) :=
  retire_of_error (by rw [hx, ok_bind, hf])

/-- An instruction whose first operation succeeds and whose second fails raises the second's error. -/
theorem retire_bind_bind_error {α β : Type} {x : Except ErrKind α} {a : α} (hx : x = .ok a)
    {y : α → Except ErrKind β} {k : ErrKind} (hy : y a = .error k)
    (f : α → β → Except ErrKind State) :
    s.retire i (x >>= fun a => y a >>= f a) = .next (failedBy s k i) :=
  retire_of_ok_error hx (by rw [hy, error_bind])

/-! ### Register indices out of range -/

theorem not_inRange_of_one {ra : RegIdx} {n : Nat} (h : [ra].all (RegIdx.inRange n) = false) :
    ¬ ra.toNat < n := by
  simpa [RegIdx.inRange] using h

theorem inRange_of_one {ra : RegIdx} {n : Nat} (h : [ra].all (RegIdx.inRange n) = true) :
    ra.toNat < n := by
  simpa [RegIdx.inRange] using h

theorem not_inRange_of_two {ra rb : RegIdx} {n : Nat} (h : [ra, rb].all (RegIdx.inRange n) = false) :
    ¬ ra.toNat < n ∨ (ra.toNat < n ∧ ¬ rb.toNat < n) := by
  by_cases ha : ra.toNat < n
  · exact .inr ⟨ha, by simpa [RegIdx.inRange, ha] using h⟩
  · exact .inl ha

/-- Two register operands are checked in stream order. -/
theorem retire_regOperands_outOfRange {ra rb : RegIdx}
    (h : [ra, rb].all (RegIdx.inRange s.nreg) = false) (f : Word → Word → Except ErrKind State) :
    s.retire i (s.regOperand ra >>= fun a => s.regOperand rb >>= f a) =
      .next (failedBy s .decodeError i) := by
  rcases not_inRange_of_two h with ha | ⟨ha, hb⟩
  · exact retire_bind_error (State.regOperand_outOfRange ha) _
  · exact retire_bind_bind_error (State.regOperand_inRange ha) (State.regOperand_outOfRange hb) f

end

/-- Settles O24: whatever an instruction does with its register operands, it checks them first. -/
theorem registerOutOfRangeRaisesDecodeError : Obligations.RegisterOutOfRangeRaisesDecodeError := by
  intro i s h
  cases i with
  | pushReg ra | movRegMem ra addr | mathAddRegLit ra lit | mathSubRegLit ra lit | mathMulRegLit ra lit
  | mathDivRegLit ra lit | mathAndRegLit ra lit | mathOrRegLit ra lit | mathXorRegLit ra lit
  | mathShlRegLit ra lit | mathShrRegLit ra lit | mathNotReg ra | mathIncReg ra | mathDecReg ra
  | mathSqrtReg ra | compareRegLit ra lit =>
    exact retire_bind_error (State.regOperand_outOfRange (not_inRange_of_one h)) _
  | popReg ra | movLitReg ra lit | movMemReg ra addr | mathRandReg ra =>
    exact retire_bind_error (State.checkReg_outOfRange (not_inRange_of_one h)) _
  | mathAddReg ra rb | mathSubReg ra rb | mathMulReg ra rb | mathDivReg ra rb | mathAndReg ra rb
  | mathOrReg ra rb | mathXorReg ra rb | mathShlReg ra rb | mathShrReg ra rb | mathPowReg ra rb
  | compareRegReg ra rb => exact retire_regOperands_outOfRange h _
  | movRegReg ra rb =>
    rcases not_inRange_of_two h with ha | ⟨ha, hb⟩
    · exact retire_bind_error (State.regOperand_outOfRange ha) _
    · exact retire_bind_bind_error (State.regOperand_inRange ha) (State.checkReg_outOfRange hb) _
  | _ => exact (Bool.false_ne_true h.symm).elim

/-! ### A stack with too few values -/

theorem binaryStack_short {s : State} (h : s.stack.length < 2) (op : BinaryOp) (i : Instr) :
    binaryStack op i s = .next (failedBy s .stackUnderflow i) := by
  match hs : s.stack with
  | [] => exact retire_bind_error (State.pop_nil hs) _
  | [b] => exact retire_bind_bind_error (State.pop_cons hs) (State.pop_nil rfl) _
  | _ :: _ :: rest =>
    rw [hs, List.length_cons, List.length_cons] at h
    omega

/-- Settles O25: with the registers in range, the first pop or peek is the first operation that can fail,
and the second pop of a stack-stack form the next. -/
theorem shortStackRaisesStackUnderflow : Obligations.ShortStackRaisesStackUnderflow := by
  intro i s hi h
  cases i with
  | mathAddStack | mathSubStack | mathMulStack | mathDivStack | mathAndStack | mathOrStack | mathXorStack
  | mathShlStack | mathShrStack | mathPowStack => exact binaryStack_short h _ _
  | popReg ra =>
    have hs : s.stack = [] := List.length_eq_zero_iff.1 (Nat.lt_one_iff.1 h)
    exact retire_bind_bind_error (State.checkReg_inRange (inRange_of_one hi)) (State.pop_nil hs) _
  | stackDupe | compareStackLit lit =>
    have hs : s.stack = [] := List.length_eq_zero_iff.1 (Nat.lt_one_iff.1 h)
    exact retire_bind_error (State.peek_nil hs) _
  | popMemory addr | mathAddStackLit lit | mathSubStackLit lit | mathMulStackLit lit
  | mathDivStackLit lit | mathAndStackLit lit | mathOrStackLit lit | mathXorStackLit lit
  | mathShlStackLit lit | mathShrStackLit lit | mathNotStack | mathIncStack | mathDecStack
  | mathSqrtStack =>
    have hs : s.stack = [] := List.length_eq_zero_iff.1 (Nat.lt_one_iff.1 h)
    exact retire_bind_error (State.pop_nil hs) _
  | _ => exact (Nat.not_lt_zero _ h).elim

end Sys2Proof.Machine
end

section
/-! O5 to O8, `40_core_cycle.md` R90 to R99: the cycle, and its literal reading. -/

namespace Sys2Proof.Machine

/-! ### The step of a RUNNING, a STOPPED and an illegal core -/

/-- Settles O5: `step` is `exec` of what the bytes at `pc` decode to. -/
theorem stepRunsTheDecodedInstruction : Obligations.StepRunsTheDecodedInstruction :=
  fun _ _ _ hlegal hstop herr h => step_of_decode_ok hlegal (State.not_stopped hstop herr) h

/-- Settles O6: each rejection carries the opcode field of its record. -/
theorem undecodableBytesRaiseDecodeError : Obligations.UndecodableBytesRaiseDecodeError := by
  intro s hlegal hstop herr
  have hrunning := State.not_stopped hstop herr
  refine ⟨fun hnil => ?none, fun op rest hbytes hreject => ?some⟩
  case none =>
    have hdecode : decode s.opmap s.stream = .error .noOpcodeByte := by rw [State.stream, hnil]; rfl
    exact step_of_decode_error hlegal hrunning hdecode
  case some =>
    rcases hreject with h | h <;> rw [← hbytes] at h <;> exact step_of_decode_error hlegal hrunning h

theorem State.stopped_of_err {s : State} (h : s.err ≠ none) : s.stopped = true := by
  rw [State.stopped, Option.isSome_iff_ne_none.2 h, Bool.or_true]

/-- Settles O7: `configLegal` is the constraints of R8, and `step` looks at it first, then at the run
state. -/
theorem stoppedCoreHasNoStep : Obligations.StoppedCoreHasNoStep := by
  refine fun s => ⟨State.configLegal_iff, fun hlegal hstop => step_of_stopped hlegal ?stopped, ?illegal⟩
  case stopped => exact hstop.elim State.stopped_of_stop State.stopped_of_err
  case illegal =>
    intro hillegal
    rcases step_cases s with ⟨-, hstep⟩ | ⟨hlegal, -⟩ | ⟨hlegal, -⟩
    · exact hstep
    · cases hillegal.symm.trans hlegal
    · cases hillegal.symm.trans hlegal

/-! ### The literal fetches read the bytes after `pc` -/

/-- The bytes of the buffer after the one at `pc`. -/
def State.after (s : State) (pc : Word) : List Byte := s.prog.drop (s.headerSize + pc.toNat + 1)

theorem State.stream_tail {s : State} {op : Byte} {rest : List Byte} (h : s.stream = op :: rest) :
    rest = s.after s.pc := by
  rw [State.after, ← List.drop_drop, ← State.stream, h]
  rfl

theorem State.code_pc (s : State) : s.code s.pc.toNat = s.stream.head? := (List.head?_drop ..).symm

theorem State.code_after (s : State) (pc : Word) (k : Nat) :
    s.code (pc.toNat + (k + 1)) = (s.after pc)[k]? := by
  rw [State.after, List.getElem?_drop, State.code]
  congr 1
  omega

section
variable {s : State} (hfits : s.prog.length ≤ s.headerSize + 4294967296) {pc : Word}
include hfits

/-- In a buffer of at most 2^32 bytes after its header, `pc` does not wrap before its end (U30). -/
theorem toNat_add_of_fits {k : Word} (h : k.toNat ≤ (s.after pc).length) :
    (pc + k).toNat = pc.toNat + k.toNat := by
  have hpc : pc.toNat < 4294967296 := pc.isLt
  rw [State.after, List.length_drop] at h
  rw [BitVec.toNat_add]
  omega

theorem after_add {k : Word} (h : k.toNat ≤ (s.after pc).length) :
    s.after (pc + k) = (s.after pc).drop k.toNat := by
  rw [State.after, State.after, List.drop_drop, toNat_add_of_fits hfits h]
  congr 1
  omega

theorem takeReg_after {r : RegIdx} {rest : List Byte} (h : takeReg (s.after pc) = some (r, rest)) :
    rest = s.after (pc + 1) := by
  have hbytes := takeReg_some h
  rw [after_add hfits (by simp [hbytes]), hbytes]
  rfl

theorem takeLit_after {v : Word} {rest : List Byte} (h : takeLit (s.after pc) = some (v, rest)) :
    rest = s.after (pc + 4) := by
  have hbytes := takeLit_some h
  rw [after_add hfits (by simp [hbytes]), hbytes]
  rfl

/-- `FetchReg` takes the byte after `pc` and checks its range (R90). -/
theorem fetchRegAt_eq (pc : Word) : s.fetchRegAt pc =
    (takeReg (s.after pc)).bind fun p => if p.1.toNat < s.nreg then some (p.1, pc + 1) else none := by
  have hlen : (s.after pc).length = s.prog.length - (s.headerSize + pc.toNat + 1) := List.length_drop
  rw [State.fetchRegAt]
  match hbytes : s.after pc with
  | [] =>
    rw [hbytes, List.length_nil] at hlen
    rw [if_pos (by omega)]
    rfl
  | r :: rest =>
    have hcode : s.code (pc + 1).toNat = some r := by
      rw [toNat_add_of_fits hfits (by simp [hbytes])]
      exact (s.code_after pc 0).trans (by rw [hbytes]; rfl)
    rw [hbytes, List.length_cons] at hlen
    rw [if_neg (by omega), hcode, takeReg_cons]
    simp only [Option.bind_eq_bind, Option.bind_some, ge_iff_le, ← Nat.not_lt, ite_not]

omit hfits in
/-- `FetchLit` takes the four bytes after `pc` (R91). -/
theorem fetchLitAt_eq (pc : Word) :
    s.fetchLitAt pc = (takeLit (s.after pc)).map fun p => (p.1, pc + 4) := by
  have hlen : (s.after pc).length = s.prog.length - (s.headerSize + pc.toNat + 1) := List.length_drop
  rw [State.fetchLitAt]
  match hbytes : s.after pc with
  | b3 :: b2 :: b1 :: b0 :: rest =>
    simp only [hbytes, List.length_cons] at hlen
    rw [if_neg (by omega), s.code_after pc 0, s.code_after pc 1, s.code_after pc 2, s.code_after pc 3,
      hbytes]
    rfl
  | [] | [_] | [_, _] | [_, _, _] =>
    simp only [hbytes, List.length_cons, List.length_nil] at hlen
    rw [if_pos (by omega)]
    rfl

/-! ### The literal operand fetches of a shape -/

/-- What the literal fetches of an instruction's operands answer from `pc`: the instruction, if its
registers are in range, with `pc` on its last byte. -/
def literalOperands (s : State) (pc : Word) (p : Instr × List Byte) : Option (Instr × Word) :=
  if p.1.wellFormed s.nreg then some (p.1, pc + BitVec.ofNat 32 p.1.operandBytes.length) else none

omit hfits in
theorem literalOperands_has {i : Instr} {n : Nat} {bs : List Byte} {rs : List RegIdx} (hi : i.Has n bs rs)
    (rest : List Byte) : literalOperands s pc (i, rest) =
      if rs.all (RegIdx.inRange s.nreg) then some (i, pc + BitVec.ofNat 32 bs.length) else none := by
  obtain ⟨-, rfl, rfl⟩ := hi
  rfl

/-- A register fetch in front of both readings: they agree if they agree behind a register in range, and
the byte decoder's answer is refused behind another. -/
theorem fetchRegAt_bind {β : Type} {f : RegIdx × Word → Option β} {g : RegIdx × List Byte → Option β}
    (hin : ∀ r : RegIdx, r.toNat < s.nreg → f (r, pc + 1) = g (r, s.after (pc + 1)))
    (hout : ∀ (r : RegIdx) rest, ¬ r.toNat < s.nreg → g (r, rest) = none) :
    (s.fetchRegAt pc).bind f = (takeReg (s.after pc)).bind g := by
  rw [fetchRegAt_eq hfits]
  cases h : takeReg (s.after pc) with
  | none => rfl
  | some p =>
    obtain ⟨r, rest⟩ := p
    obtain rfl := takeReg_after hfits h
    by_cases hr : r.toNat < s.nreg
    · simp only [Option.bind_some, if_pos hr, hin r hr]
    · simp only [Option.bind_some, if_neg hr, hout r _ hr, Option.bind_none]

/-- A literal fetch in front of both readings. -/
theorem fetchLitAt_bind {β : Type} {f : Word × Word → Option β} {g : Word × List Byte → Option β}
    (h : ∀ v, f (v, pc + 4) = g (v, s.after (pc + 4))) :
    (s.fetchLitAt pc).bind f = (takeLit (s.after pc)).bind g := by
  rw [fetchLitAt_eq]
  cases hv : takeLit (s.after pc) with
  | none => rfl
  | some p =>
    obtain ⟨v, rest⟩ := p
    obtain rfl := takeLit_after hfits hv
    exact h v

/-- The literal fetches of a shape read the same operands as the byte decoder, and check the registers. -/
theorem fetchAt_eq {n : Nat} {shape : Shape} (hshape : shape.MakesRow n) (pc : Word) :
    Shape.fetchAt s shape pc = (shape.operands (s.after pc)).bind (literalOperands s pc) := by
  cases shape with
  | f0 i => simp [Shape.fetchAt, Shape.operands, literalOperands_has hshape]
  | fr mk =>
    rw [Shape.operands, Option.bind_eq_bind, Option.bind_assoc]
    refine fetchRegAt_bind hfits (fun ra ha => ?_) (fun ra rest ha => ?_) <;>
      simp [literalOperands_has (hshape ra), RegIdx.inRange, ha]
  | frr mk =>
    rw [Shape.operands, Option.bind_eq_bind, Option.bind_assoc]
    refine fetchRegAt_bind hfits (fun ra ha => ?_) (fun ra rest ha => ?_)
    · refine Eq.trans ?_ (Option.bind_assoc ..).symm
      refine fetchRegAt_bind hfits (fun rb hb => ?_) (fun rb rest hb => ?_) <;>
        simp [literalOperands_has (hshape ra rb), RegIdx.inRange, ha, hb, BitVec.add_assoc]
    · cases h : takeReg rest <;> simp [h, literalOperands_has (hshape ra _), RegIdx.inRange, ha]
  | fl mk | fa mk =>
    rw [Shape.operands, Option.bind_eq_bind, Option.bind_assoc]
    refine fetchLitAt_bind hfits fun v => ?_
    simp [literalOperands_has (hshape v)]
  | frl mk | fra mk =>
    rw [Shape.operands, Option.bind_eq_bind, Option.bind_assoc]
    refine fetchRegAt_bind hfits (fun ra ha => ?_) (fun ra rest ha => ?_)
    · refine Eq.trans (fetchLitAt_bind hfits fun v => ?_) (Option.bind_assoc ..).symm
      simp [literalOperands_has (hshape ra v), RegIdx.inRange, ha, BitVec.add_assoc]
    · cases h : takeLit rest <;> simp [h, literalOperands_has (hshape ra _), RegIdx.inRange, ha]
  | fla mk | faa mk =>
    rw [Shape.operands, Option.bind_eq_bind, Option.bind_assoc]
    refine fetchLitAt_bind hfits fun v => ?_
    refine Eq.trans (fetchLitAt_bind hfits fun w => ?_) (Option.bind_assoc ..).symm
    simp [literalOperands_has (hshape v w), BitVec.add_assoc]

/-! ### The literal fetch of an instruction -/

section
omit hfits
variable {op : Byte} {rest : List Byte} {shape : Shape}

theorem fetchLiteral_nil (hbytes : s.stream = []) : s.fetchLiteral = .error none := by
  simp only [State.fetchLiteral, State.code_pc, hbytes, List.head?_nil]

theorem fetchLiteral_unassigned (hbytes : s.stream = op :: rest) (hshape : shapeOf s.opmap op = none) :
    s.fetchLiteral = .error (some op) := by
  simp only [State.fetchLiteral, State.code_pc, hbytes, List.head?_cons, hshape]

theorem fetchLiteral_operands (hbytes : s.stream = op :: rest) (hshape : shapeOf s.opmap op = some shape)
    {r : Instr × Word} (h : Shape.fetchAt s shape s.pc = some r) : s.fetchLiteral = .ok r := by
  simp only [State.fetchLiteral, State.code_pc, hbytes, List.head?_cons, hshape, h]

theorem fetchLiteral_no_operands (hbytes : s.stream = op :: rest)
    (hshape : shapeOf s.opmap op = some shape) (h : Shape.fetchAt s shape s.pc = none) :
    s.fetchLiteral = .error (some op) := by
  simp only [State.fetchLiteral, State.code_pc, hbytes, List.head?_cons, hshape, h]

end

/-- The literal fetch fails where the byte decoder does, and where the instruction decoded has a register
out of range; else it gives that instruction, with `pc` on its last byte. -/
theorem fetchLiteral_cases :
    (∃ e, decode s.opmap s.stream = .error e ∧ s.fetchLiteral = .error e.opcode) ∨
    (∃ i rest, decode s.opmap s.stream = .ok (i, rest) ∧
      ((i.wellFormed s.nreg = true ∧
          s.fetchLiteral = .ok (i, s.pc + BitVec.ofNat 32 i.operandBytes.length)) ∨
        (i.wellFormed s.nreg = false ∧ s.fetchLiteral = .error (some (s.opcodeOf i))))) := by
  cases hbytes : s.stream with
  | nil => exact .inl ⟨.noOpcodeByte, rfl, fetchLiteral_nil hbytes⟩
  | cons op rest =>
    cases hshape : shapeOf s.opmap op with
    | none =>
      exact .inl ⟨.unassignedOpcode op, decode_eq_unassigned.2 hshape,
        fetchLiteral_unassigned hbytes hshape⟩
    | some shape =>
      obtain ⟨n, -, hrow⟩ := shapeOf_eq_some hshape
      have hfetch := fetchAt_eq hfits (makesRow_of_row hrow) s.pc
      rw [← State.stream_tail hbytes] at hfetch
      cases hops : shape.operands rest with
      | none =>
        rw [hops, Option.bind_none] at hfetch
        exact .inl ⟨.operandPastEnd op, by simp only [decode, hshape, hops],
          fetchLiteral_no_operands hbytes hshape hfetch⟩
      | some p =>
        obtain ⟨i, bs⟩ := p
        have hdecode : decode s.opmap (op :: rest) = .ok (i, bs) := by simp only [decode, hshape, hops]
        have hopcode : some (s.opcodeOf i) = some op := by
          rw [← hbytes] at hdecode
          rw [State.opcodeOf_fetch (by simp only [State.fetch, hdecode]), hbytes]
          rfl
        rw [hops, Option.bind_some, literalOperands] at hfetch
        refine .inr ⟨i, bs, hdecode, ?_⟩
        cases hi : i.wellFormed s.nreg with
        | true =>
          rw [hi, if_pos rfl] at hfetch
          exact .inl ⟨rfl, fetchLiteral_operands hbytes hshape hfetch⟩
        | false =>
          rw [hi, if_neg Bool.false_ne_true] at hfetch
          exact .inr ⟨rfl, hopcode ▸ fetchLiteral_no_operands hbytes hshape hfetch⟩

end

theorem cycleLiteral_of_error {s : State} {op : Option Byte} (h : s.fetchLiteral = .error op) :
    s.cycleLiteral = .next (failed s .decodeError op) := by
  simp only [State.cycleLiteral, h, State.raise_eq_failed]

theorem cycleLiteral_of_ok {s : State} {i : Instr} {pc : Word} (h : s.fetchLiteral = .ok (i, pc)) :
    s.cycleLiteral = exec i s := by
  simp only [State.cycleLiteral, h]

/-- Settles O8: a register out of range fails in the literal fetch and, with the same record, in the
instruction that the byte decoder gives (O24). -/
theorem literalDecoderAgreesWithFetch : Obligations.LiteralDecoderAgreesWithFetch := by
  intro s hlegal hstop herr hfits
  have hrunning := State.not_stopped hstop herr
  rcases fetchLiteral_cases hfits with
    ⟨e, hdecode, hfetch⟩ | ⟨i, rest, hdecode, ⟨hi, hfetch⟩ | ⟨hi, hfetch⟩⟩
  case inl =>
    refine ⟨?_, fun i pc h => by cases hfetch.symm.trans h⟩
    rw [step_of_decode_error hlegal hrunning hdecode, cycleLiteral_of_error hfetch]
  case inr.inl =>
    refine ⟨?_, fun j pc h => ?_⟩
    · rw [step_of_decode_ok hlegal hrunning hdecode, cycleLiteral_of_ok hfetch]
    · cases hfetch.symm.trans h
      refine ⟨hi, ?_⟩
      rw [BitVec.add_assoc, encode, List.length_cons, BitVec.ofNat_add]
      rfl
  case inr.inr =>
    refine ⟨?_, fun i pc h => by cases hfetch.symm.trans h⟩
    rw [step_of_decode_ok hlegal hrunning hdecode, cycleLiteral_of_error hfetch]
    exact registerOutOfRangeRaisesDecodeError i s hi

end Sys2Proof.Machine
end

section
/-! O29 and O30, `43_compare_flags.md` R180 to R185: the compares. -/

namespace Sys2Proof.Machine

theorem Flags.compare_eq (f : Flags) (a b : Word) : f.compare a b = { f with
    equal := decide (a.toNat = b.toNat)
    notEqual := decide (a.toNat ≠ b.toNat)
    greater := decide (a.toNat > b.toNat)
    smaller := decide (a.toNat < b.toNat) } := by
  simp only [Flags.compare, BitVec.toNat_eq, ne_eq]

theorem compared_eq (s : State) (n : Nat) (a b : Word) :
    (s.compare a b).setPc (s.pc + BitVec.ofNat 32 n) = { s with
      pc := s.pc + BitVec.ofNat 32 n
      flags := { s.flags with
        equal := decide (a.toNat = b.toNat)
        notEqual := decide (a.toNat ≠ b.toNat)
        greater := decide (a.toNat > b.toNat)
        smaller := decide (a.toNat < b.toNat) } } := by
  rw [State.compare, Flags.compare_eq]
  rfl

section
variable {s : State} {ra rb : RegIdx} {a lit : Word} {rest : List Word}

theorem compareRegReg_next (ha : ra.toNat < s.nreg) (hb : rb.toNat < s.nreg) :
    exec (.compareRegReg ra rb) s =
      .next ((s.compare (s.reg ra.toNat) (s.reg rb.toNat)).setPc (s.pc + BitVec.ofNat 32 3)) := by
  change execCompareRegReg ra rb s = _
  rw [execCompareRegReg, State.regOperand_inRange ha, State.regOperand_inRange hb]
  rfl

theorem compareRegLit_next (ha : ra.toNat < s.nreg) :
    exec (.compareRegLit ra lit) s =
      .next ((s.compare (s.reg ra.toNat) lit).setPc (s.pc + BitVec.ofNat 32 6)) := by
  change execCompareRegLit ra lit s = _
  rw [execCompareRegLit, State.regOperand_inRange ha]
  rfl

theorem compareStackLit_next (hs : s.stack = a :: rest) :
    exec (.compareStackLit lit) s = .next ((s.compare a lit).setPc (s.pc + BitVec.ofNat 32 5)) := by
  change execCompareStackLit lit s = _
  rw [execCompareStackLit, State.peek_cons hs]
  rfl

end

/-- Settles O29: each is one `CMP`, stated on the operands' values. -/
theorem compareResult : Obligations.CompareResult :=
  ⟨fun s _ _ ha hb => (compareRegReg_next ha hb).trans (congrArg _ (compared_eq s 3 _ _)),
    fun s _ _ ha => (compareRegLit_next ha).trans (congrArg _ (compared_eq s 6 _ _)),
    fun s _ _ _ hs => (compareStackLit_next hs).trans (congrArg _ (compared_eq s 5 _ _))⟩

/-- Settles O30, by the three outcomes of two words. -/
theorem compareHasThreeOutcomes : Obligations.CompareHasThreeOutcomes := by
  intro s a b f
  have hf : f = s.flags.compare a b := rfl
  rw [hf, Flags.compare_eq]
  rcases Nat.lt_trichotomy a.toNat b.toNat with h | h | h
  · simp [BitVec.toNat_eq, h, h.ne, h.le]
  · simp [BitVec.toNat_eq, h]
  · simp [BitVec.toNat_eq, h, h.ne', h.le]

end Sys2Proof.Machine
end

section
/-! O38 and O26, O35 to O37, `20_memory.md` and `44_data_movement.md`: words of RAM and data movement. -/

namespace Sys2Proof.Machine

/-! ### Words of RAM -/

theorem memRead_of_fits {s : State} {addr : Word} (h : addr.toNat + 3 < s.memSize) :
    s.memRead addr = .ok (wordAt s addr.toNat) := State.memRead_inBounds h

/-- `s` after a store of `v` at `addr` by an instruction of `n` bytes that leaves the stack `st`. -/
def stored (s : State) (n : Nat) (addr v : Word) (st : List Word) : State :=
  { s with
    pc := s.pc + BitVec.ofNat 32 n
    stack := st
    mem := Memory.writeWord addr.toNat v s.mem }

/-- The word stands where it was written, and every other byte is as before (R54). -/
theorem storesWord_stored {s : State} (hwf : Memory.wf s.mem = true) (n : Nat) (addr v : Word)
    (st : List Word) : StoresWord s (stored s n addr v st) n addr.toNat v st := by
  obtain ⟨h3, h2, h1, h0⟩ := Memory.read_writeWord_same addr.toNat v hwf
  exact ⟨h3, h2, h1, h0, fun a ha => Memory.read_writeWord_other s.mem addr.toNat v ha, rfl⟩

/-- Settles O38: a write is `stored` by an instruction of no bytes that leaves the stack. -/
theorem wordReadAndWriteAreBigEndian : Obligations.WordReadAndWriteAreBigEndian := by
  intro s addr v hwf
  refine ⟨fun h => ?outOfBounds, fun h => ⟨memRead_of_fits h, _, State.memWrite_inBounds v h, ?write⟩⟩
  case outOfBounds =>
    exact ⟨State.memRead_outOfBounds (Nat.not_lt.2 h), State.memWrite_outOfBounds v (Nat.not_lt.2 h)⟩
  case write =>
    have hwritten : s.setMem (Memory.writeWord addr.toNat v s.mem) = stored s 0 addr v s.stack := by
      rw [stored, BitVec.add_zero]
      rfl
    rw [hwritten]
    exact storesWord_stored hwf 0 addr v s.stack

/-! ### The twelve instructions -/

section
variable {s : State} {ra rb : RegIdx} {lit addr addr1 addr2 v : Word} {rest : List Word}

theorem pushMem_next (h : addr.toNat + 3 < s.memSize) :
    exec (.pushMem addr) s = .next (stackWritten s 5 (wordAt s addr.toNat :: s.stack) none) := by
  change execPushMem addr s = _
  rw [execPushMem, memRead_of_fits h]
  rfl

theorem popReg_next (ha : ra.toNat < s.nreg) (hs : s.stack = v :: rest) :
    exec (.popReg ra) s =
      .next { s with pc := s.pc + 2, regs := s.regs.set ra.toNat v, stack := rest } := by
  change execPopReg ra s = _
  rw [execPopReg, State.checkReg_inRange ha, State.pop_cons hs]
  rfl

theorem stackDupe_next (hs : s.stack = v :: rest) :
    exec .stackDupe s = .next (stackWritten s 1 (v :: v :: rest) none) := by
  change execStackDupe s = _
  rw [execStackDupe, State.peek_cons hs, ← hs]
  rfl

theorem movLitReg_next (ha : ra.toNat < s.nreg) :
    exec (.movLitReg ra lit) s = .next (regWritten s 6 ra lit none) := by
  change execMovLitReg ra lit s = _
  rw [execMovLitReg, State.checkReg_inRange ha]
  rfl

theorem movRegReg_next (ha : ra.toNat < s.nreg) (hb : rb.toNat < s.nreg) :
    exec (.movRegReg ra rb) s = .next (regWritten s 3 rb (s.reg ra.toNat) none) := by
  change execMovRegReg ra rb s = _
  rw [execMovRegReg, State.regOperand_inRange ha, State.checkReg_inRange hb]
  rfl

theorem movMemReg_next (ha : ra.toNat < s.nreg) (h : addr.toNat + 3 < s.memSize) :
    exec (.movMemReg ra addr) s = .next (regWritten s 6 ra (wordAt s addr.toNat) none) := by
  change execMovMemReg ra addr s = _
  rw [execMovMemReg, State.checkReg_inRange ha, memRead_of_fits h]
  rfl

theorem popMemory_next (h : addr.toNat + 3 < s.memSize) (hs : s.stack = v :: rest) :
    exec (.popMemory addr) s = .next (stored s 5 addr v rest) := by
  change execPopMemory addr s = _
  have hwrite : (s.setStack rest).memWrite addr v = .ok _ := State.memWrite_inBounds v h
  simp only [execPopMemory, State.pop_cons hs, ok_bind, hwrite]
  rfl

theorem movRegMem_next (ha : ra.toNat < s.nreg) (h : addr.toNat + 3 < s.memSize) :
    exec (.movRegMem ra addr) s = .next (stored s 6 addr (s.reg ra.toNat) s.stack) := by
  change execMovRegMem ra addr s = _
  rw [execMovRegMem, State.regOperand_inRange ha, ok_bind, State.memWrite_inBounds _ h]
  rfl

theorem movLitMem_next (h : addr.toNat + 3 < s.memSize) :
    exec (.movLitMem lit addr) s = .next (stored s 9 addr lit s.stack) := by
  change execMovLitMem lit addr s = _
  rw [execMovLitMem, State.memWrite_inBounds _ h]
  rfl

theorem movMemMem_next (h1 : addr1.toNat + 3 < s.memSize) (h2 : addr2.toNat + 3 < s.memSize) :
    exec (.movMemMem addr1 addr2) s = .next (stored s 9 addr2 (wordAt s addr1.toNat) s.stack) := by
  change execMovMemMem addr1 addr2 s = _
  rw [execMovMemMem, memRead_of_fits h1, ok_bind, State.memWrite_inBounds _ h2]
  rfl

end

/-- Settles O35, from the next states above. -/
theorem stackMovementResult : Obligations.StackMovementResult :=
  ⟨fun s lit => pushLit_next lit s, fun _ _ ha => pushReg_next ha, fun _ _ h => pushMem_next h,
    fun _ _ _ _ ha hs => popReg_next ha hs, fun _ _ _ hs => stackDupe_next hs⟩

/-- Settles O36, from the next states above. -/
theorem movesIntoRegistersResult : Obligations.MovesIntoRegistersResult :=
  ⟨fun _ _ _ ha => movLitReg_next ha, fun _ _ _ ha hb => movRegReg_next ha hb,
    fun _ _ _ ha h => movMemReg_next ha h⟩

/-- Settles O37: each of the four ends in one store, `mov_mem_mem` of the word it read before. -/
theorem storesWriteTheirWord : Obligations.StoresWriteTheirWord := fun _ hwf =>
  ⟨fun _ _ _ h hs => ⟨_, popMemory_next h hs, storesWord_stored hwf ..⟩,
    fun _ _ ha h => ⟨_, movRegMem_next ha h, storesWord_stored hwf ..⟩,
    fun _ _ h => ⟨_, movLitMem_next h, storesWord_stored hwf ..⟩,
    fun _ _ h1 h2 => ⟨_, movMemMem_next h1 h2, storesWord_stored hwf ..⟩⟩

/-- Settles O26: out of bounds each word instruction fails in its read or write, the stack and the
register being in order; in bounds it completes by the results above. -/
theorem wordAccessBounds : Obligations.WordAccessBounds := by
  intro s ra lit addr addr2 herr ha
  refine ⟨fun h => ?outOfBounds, fun h => ?inBounds⟩
  case outOfBounds =>
    have hread := State.memRead_outOfBounds (Nat.not_lt.2 h)
    have hwrite := fun v => State.memWrite_outOfBounds v (Nat.not_lt.2 h)
    refine ⟨retire_bind_error hread _, fun hs => ?_,
      retire_bind_bind_error (State.checkReg_inRange ha) hread _,
      retire_of_ok_error (State.regOperand_inRange ha) (hwrite _), retire_of_error (hwrite lit),
      retire_bind_error hread _, ?_⟩
    · obtain ⟨v, rest, hs⟩ := List.exists_cons_of_ne_nil hs
      have hwrite : (s.setStack rest).memWrite addr v = .error .memoryOutOfBounds :=
        State.memWrite_outOfBounds v (Nat.not_lt.2 h)
      exact retire_of_ok_error (State.pop_cons hs) hwrite
    · by_cases h2 : addr2.toNat + 3 < s.memSize
      · exact retire_of_ok_error (memRead_of_fits h2) (hwrite _)
      · exact retire_bind_error (State.memRead_outOfBounds h2) _
  case inBounds =>
    refine ⟨⟨_, pushMem_next h, herr⟩, fun hs => ?_, ⟨_, movMemReg_next ha h, herr⟩,
      ⟨_, movRegMem_next ha h, herr⟩, ⟨_, movLitMem_next h, herr⟩,
      fun h2 => ⟨_, movMemMem_next h h2, herr⟩⟩
    obtain ⟨v, rest, hs⟩ := List.exists_cons_of_ne_nil hs
    exact ⟨_, popMemory_next h hs, herr⟩

end Sys2Proof.Machine
end

section
/-! O40 to O45 and O47, `45_control_flow.md`: jumps, call and return. -/

namespace Sys2Proof.Machine

/-! ### Jumps -/

/-- A jump of five bytes goes to its target when taken, else to the next instruction. -/
theorem jumpWhen_five_bytes {i : Instr} (hi : i.length = 5) (taken : Bool) (target : Word) (s : State) :
    (taken = true → jumpWhen taken i target s = .next { s with pc := target }) ∧
    (taken = false → jumpWhen taken i target s = .next { s with pc := s.pc + 5 }) := by
  rw [jumpWhen_next, State.nextPc, hi]
  refine ⟨?_, ?_⟩ <;> rintro rfl <;> rfl

/-- Settles O40: each jump is `jumpWhen` with its own flag. -/
theorem jumpResult : Obligations.JumpResult := by
  refine ⟨fun s addr => rfl, ?_⟩
  simp only [conditionalJumps, List.forall_mem_cons]
  exact ⟨fun s addr => jumpWhen_five_bytes rfl _ addr s, fun s addr => jumpWhen_five_bytes rfl _ addr s,
    fun s addr => jumpWhen_five_bytes rfl _ addr s, fun s addr => jumpWhen_five_bytes rfl _ addr s,
    fun s addr => jumpWhen_five_bytes rfl _ addr s, List.forall_mem_nil _⟩

/-! ### Call and return -/

/-- The frame stands on the stack with `pc0` on top (R219). -/
theorem State.pushFrame_eq (s : State) :
    s.pushFrame = s.setStack (s.pc :: s.reg 3 :: s.reg 2 :: s.reg 1 :: s.reg 0 :: s.stack) := by
  simp only [State.pushFrame, State.push, State.setStack]

/-- Settles O41, from `State.pushFrame_eq`. -/
theorem callResult : Obligations.CallResult := by
  intro s addr _
  rw [procedureCall_next, State.enterProcedure, State.pushFrame_eq]
  rfl

/-- Writing registers 3 to 0 of a file of four or more. -/
theorem set_four {l : List Word} (h : 4 ≤ l.length) (r3 r2 r1 r0 : Word) :
    (((l.set 3 r3).set 2 r2).set 1 r1).set 0 r0 = r0 :: r1 :: r2 :: r3 :: l.drop 4 := by
  match l, h with
  | _ :: _ :: _ :: _ :: _, _ => rfl

theorem State.restoreRegs_eq {s : State} (h : 4 ≤ s.nreg) (r3 r2 r1 r0 : Word) :
    s.restoreRegs r3 r2 r1 r0 = { s with regs := r0 :: r1 :: r2 :: r3 :: s.regs.drop 4 } := by
  simp only [State.restoreRegs, State.setReg, set_four h]

theorem State.discardLocals_of_frame {s : State} {locals frame : List Word}
    (hs : s.stack = locals ++ frame) (hbase : s.sbp = frame.length) : s.discardLocals = frame := by
  have hlocals : s.len - s.sbp = locals.length := by
    rw [State.len, hs, List.length_append, hbase, Nat.add_sub_cancel]
  rw [State.discardLocals, hlocals, hs, List.drop_left]

/-- Settles O42: the locals are discarded down to the frame, which is popped. -/
theorem returnResult : Obligations.ReturnResult := by
  intro s locals rest saved r3 r2 r1 r0 hregs hdepth hs hbase
  have hframe := State.discardLocals_of_frame hs hbase
  have hlen : ¬ s.len < s.sbp := by
    rw [State.len, hs, hbase, List.length_append]
    simp
  change execProcedureReturn s = _
  simp only [execProcedureReturn, State.leaveProcedure, if_neg hdepth, if_neg hlen, hframe,
    State.restoreRegs_eq (s := s.setStack rest) hregs]
  rfl

/-- Settles O43: the depth is looked at first, then the length, then the frame. -/
theorem returnErrors : Obligations.ReturnErrors := by
  intro s
  refine ⟨fun hdepth => ?depth, fun hdepth hshort => ?short, fun hdepth hlen hframe => ?frame⟩ <;>
    change execProcedureReturn s = _ <;> rw [execProcedureReturn, State.leaveProcedure]
  case depth =>
    rw [if_pos hdepth]
    rfl
  case short =>
    rw [if_neg hdepth, if_pos (show s.len < s.sbp from hshort)]
    rfl
  case frame =>
    have hlen : s.sbp ≤ s.len := hlen
    rw [if_neg hdepth, if_neg (Nat.not_lt.2 hlen)]
    have hfew := State.discardLocals_length hlen
    split
    case h_1 hd =>
      rw [hd] at hfew
      simp only [List.length_cons] at hfew
      omega
    case h_2 => rfl

/-- Settles O44: the callee's return finds the frame that the call pushed. -/
theorem callThenReturnRestoresTheCaller : Obligations.CallThenReturnRestoresTheCaller := by
  intro s t u addr locals hregs hcall huregs hustack hubase hudepth
  rw [callResult s addr hregs] at hcall
  cases hcall
  have hreturn := returnResult u locals s.stack s.pc (s.reg 3) (s.reg 2) (s.reg 1) (s.reg 0)
    (hregs.trans_eq huregs.symm) (by rw [hudepth]; exact Nat.succ_ne_zero _) hustack hubase
  refine ⟨_, hreturn, rfl, rfl, rfl, rfl, fun n hn => ?_, rfl, rfl, ?_, rfl, rfl, rfl, rfl⟩
  · obtain ⟨m, rfl⟩ := Nat.exists_eq_add_of_le hn
    have hrest : (u.regs.drop 4)[m]? = u.regs[4 + m]? := List.getElem?_drop
    rw [Nat.add_comm 4] at hrest ⊢
    exact congrArg (Option.getD · 0) hrest
  · rw [hudepth]
    rfl

/-- Settles O45: the inner return is that of O44, and leaves `sbp` at the whole stack, so the outer return
finds no locals above the topmost values. -/
theorem nestedCallLeavesTheInnerBase : Obligations.NestedCallLeavesTheInnerBase := by
  intro s t u v addr saved r3 r2 r1 r0 rest hregs hdepth hcall huregs hustack hubase hudepth hreturn
  obtain ⟨v', hv', -, -, -, -, -, hstack, hbase, hvdepth, -⟩ :=
    callThenReturnRestoresTheCaller s t u addr [] hregs hcall huregs hustack hubase hudepth
  cases hreturn.symm.trans hv'
  refine ⟨hbase, hstack, fun hs => ?_⟩
  have hvregs : 4 ≤ v.nreg := by
    obtain ⟨-, -, -, -, hnreg⟩ := exec_constants hreturn
    rw [hnreg, State.nreg, huregs]
    exact hregs
  refine ⟨_, returnResult v [] rest saved r3 r2 r1 r0 hvregs (hvdepth ▸ hdepth) (hstack.trans hs) ?_,
    rfl, rfl, rfl, rfl, rfl, rfl, rfl⟩
  rw [hbase, hs]
  rfl

/-! ### The call-depth counter -/

/-- Only `State.setFrame` and `State.leaveProcedure` touch `cdepth`, and only a call or a return uses
them. -/
theorem unseen_cdepth (n : Nat) : Unseen fun s => { s with cdepth := n } := by
  constructor <;> intros <;> rfl

theorem State.leaveProcedure_cdepth {s t : State} {target : Word}
    (h : s.leaveProcedure = .ok (t, target)) : s.cdepth = t.cdepth + 1 := by
  obtain ⟨hdepth, -, saved, r3, r2, r1, r0, rest, -, -, rfl⟩ := State.leaveProcedure_eq_ok h
  exact (Nat.succ_pred_eq_of_ne_zero hdepth).symm

/-- Settles O47: the call and the return by their effects, every other instruction because it does not
see `cdepth`. -/
theorem callDepthIsCallAndReturnOnly : Obligations.CallDepthIsCallAndReturnOnly := by
  refine ⟨fun s t addr h => ?call, fun s t _ h hok => ?completed,
    fun i s n hi => (unseen_cdepth n).exec s hi⟩
  case call =>
    rw [procedureCall_next] at h
    cases h
    rfl
  case completed =>
    rcases State.retireTo_next h with ⟨u, target, hu, rfl⟩ | ⟨k, -, rfl⟩
    · exact (State.leaveProcedure_cdepth hu :)
    · cases hok

end Sys2Proof.Machine
end

section
/-! O48 to O52 and O54, `46_syscall.md` and `47_nop_exit.md`. -/

namespace Sys2Proof.Machine

section
variable {s : State}

theorem syscall_of_ok {t : State} (h : s.service = .ok t) :
    exec .syscall s = .next (t.setPc (s.pc + 1)) := by
  change execSyscall s = _
  rw [execSyscall, h]
  rfl

theorem syscall_of_error {k : ErrKind} (h : s.service = .error k) :
    exec .syscall s = .next (failedBy s k .syscall) := retire_of_error h

/-! ### The service a selector asks for (R230, R236) -/

theorem service_write (h : s.reg 0 = 0) : s.service = s.sysWrite := if_pos h

theorem service_read (h : s.reg 0 = 1) : s.service = s.sysRead := by
  simp [State.service, h]

theorem service_clear (h : s.reg 0 = 2) : s.service = .ok s.sysClear := by
  simp [State.service, h]

theorem service_decimal (h : s.reg 0 = 3) : s.service = .ok s.sysDecimal := by
  simp [State.service, h]

theorem service_unknown (h : 4 ≤ (s.reg 0).toNat) : s.service = .ok s := by
  have hne : ∀ v : Word, v.toNat < 4 → s.reg 0 ≠ v := by
    rintro v hv rfl
    omega
  rw [State.service, if_neg (hne 0 (by decide)), if_neg (hne 1 (by decide)), if_neg (hne 2 (by decide)),
    if_neg (hne 3 (by decide))]

end

/-- Settles O48: the requests are the bytes that `readBytes` lists, in its order. -/
theorem syscallWriteResult : Obligations.SyscallWriteResult := by
  intro s h0 hrange
  have hwrite := service_write h0
  rw [State.sysWrite, if_pos (State.rangeInBounds_iff.2 hrange)] at hwrite
  refine ⟨_, syscall_of_ok hwrite, by rw [List.length_map, Memory.readBytes_length], fun k hk => ?_⟩
  simp [Memory.readBytes, hk, State.readByte]

/-- Settles O49: the answer is written as one byte string. -/
theorem syscallReadResult : Obligations.SyscallReadResult := by
  intro s hwf h1 hrange
  have hread := service_read h1
  rw [State.sysRead, if_pos (State.rangeInBounds_iff.2 hrange)] at hread
  refine ⟨s.lineAnswer (s.reg 2), _, syscall_of_ok hread, s.lineAnswer_length _, fun k hk => ?_,
    fun a ha => ?_, rfl⟩
  · rw [List.getElem?_eq_getElem hk]
    exact congrArg some (Memory.read_writeBytes_same _ _ hwf hk)
  · exact Memory.read_writeBytes_other _ _ _ ha

/-- Settles O50: selector 2 asks for `sysClear` and no other service. -/
theorem syscallClearResult : Obligations.SyscallClearResult := fun _ h => syscall_of_ok (service_clear h)

/-- Settles O51: selector 3 asks for `sysDecimal`, and no selector from 4 up for any service. -/
theorem syscallDecimalAndUnknownSelectors : Obligations.SyscallDecimalAndUnknownSelectors := fun _ =>
  ⟨fun h => syscall_of_ok (service_decimal h), fun h => syscall_of_ok (service_unknown h)⟩

/-- Settles O52: both services check the range before anything else. -/
theorem syscallRangeErrors : Obligations.SyscallRangeErrors := by
  intro s hsel hpos hout
  have hrange : ¬ s.rangeInBounds (s.reg 1) (s.reg 2) = true := by
    rw [State.rangeInBounds_iff]
    omega
  refine syscall_of_error ?_
  rcases hsel with h | h
  · rw [service_write h, State.sysWrite, if_neg hrange]
  · rw [service_read h, State.sysRead, if_neg hrange]

/-- Settles O54: the state after `exit` has the configuration of the one before, and `stop` set. -/
theorem nopAndExitResult : Obligations.NopAndExitResult := by
  refine ⟨fun s => rfl, fun s => rfl, fun s t hlegal herr h => ?_⟩
  cases h
  refine ⟨?_, step_of_stopped hlegal (State.stopped_of_stop rfl)⟩
  exact Option.isNone_iff_eq_none.2 herr

end Sys2Proof.Machine
end

section
/-! O58, `10_state.md` section 9 and `20_memory.md` R51: the buffer, the header size and the opcode map are
no data. -/

namespace Sys2Proof.Machine

/-- The fields that no effect of an instruction reads or writes. `Unseen` does not say it of the opcode
map, which shows in the record of an error. -/
structure Unread where
  prog : List Byte
  headerSize : Nat
  opmap : OpMap
  err : Option ErrRecord

/-- `s` with other values in the unread fields. -/
def State.withUnread (w : Unread) (s : State) : State :=
  { s with prog := w.prog, headerSize := w.headerSize, opmap := w.opmap, err := w.err }

/-- The values of the unread fields of `s`. -/
def State.unread (s : State) : Unread := ⟨s.prog, s.headerSize, s.opmap, s.err⟩

/-- The effect is the same whatever the unread fields hold, and leaves them. -/
def Blind (eff : State → Except ErrKind State) : Prop :=
  ∀ (w : Unread) (s : State), eff (s.withUnread w) = State.withUnread w <$> eff s

/-- `i` answers from `s` the same effect or the same error, whatever the unread fields hold. -/
def AnswersBlindly (i : Instr) (s : State) : Prop :=
  ∃ r : Except ErrKind (State × Word), ∀ w : Unread,
    exec i (s.withUnread w) = (s.withUnread w).retireTo i (Prod.map (State.withUnread w) id <$> r)

section
variable {i : Instr} {s : State}

theorem answersBlindly_retire {eff : State → Except ErrKind State}
    (hexec : ∀ s, exec i s = s.retire i (eff s)) (heff : Blind eff) : AnswersBlindly i s := by
  refine ⟨(fun u => (u, s.nextPc i)) <$> eff s, fun w => ?_⟩
  rw [hexec, heff w s]
  cases eff s <;> rfl

theorem answersBlindly_jumpWhen {taken : State → Bool} {target : Word}
    (hexec : ∀ s, exec i s = jumpWhen (taken s) i target s)
    (htaken : ∀ w s, taken (State.withUnread w s) = taken s) : AnswersBlindly i s := by
  refine ⟨.ok (s, if taken s then target else s.nextPc i), fun w => ?_⟩
  rw [hexec, htaken]
  rfl

/-! ### The operations that change the state before they can fail -/

theorem pop_withUnread (w : Unread) (s : State) :
    (s.withUnread w).pop = Prod.map id (State.withUnread w) <$> s.pop := by
  cases h : s.stack with
  | nil => rw [State.pop_nil h, State.pop_nil (s := s.withUnread w) h]; rfl
  | cons v rest => rw [State.pop_cons h, State.pop_cons (s := s.withUnread w) h]; rfl

theorem memWrite_withUnread (w : Unread) (s : State) (addr v : Word) :
    (s.withUnread w).memWrite addr v = State.withUnread w <$> s.memWrite addr v := by
  by_cases h : addr.toNat + 3 < s.memSize
  · rw [State.memWrite_inBounds v h, State.memWrite_inBounds (s := s.withUnread w) v h]; rfl
  · rw [State.memWrite_outOfBounds v h, State.memWrite_outOfBounds (s := s.withUnread w) v h]; rfl

theorem blind_service : Blind State.service := by
  intro w s
  simp only [State.service, State.sysWrite, State.sysRead, apply_ite (State.withUnread w <$> ·)]
  rfl

theorem leaveProcedure_withUnread (w : Unread) (s : State) :
    (s.withUnread w).leaveProcedure = Prod.map (State.withUnread w) id <$> s.leaveProcedure := by
  have hdepth : (s.withUnread w).cdepth = s.cdepth := rfl
  have hlen : (s.withUnread w).len = s.len := rfl
  have hbase : (s.withUnread w).sbp = s.sbp := rfl
  have hframe : (s.withUnread w).discardLocals = s.discardLocals := rfl
  simp only [State.leaveProcedure, hdepth, hlen, hbase, hframe]
  split
  · rfl
  · split
    · rfl
    · split <;> rfl

/-! ### The operand forms -/

theorem answersBlindly_binaryReg {op : BinaryOp} {ra rb : RegIdx}
    (hexec : ∀ s, exec i s = binaryReg op i ra rb s) : AnswersBlindly i s :=
  answersBlindly_retire hexec fun w s => by simp only [map_bind]; rfl

theorem answersBlindly_binaryRegLit {op : BinaryOp} {ra : RegIdx} {lit : Word}
    (hexec : ∀ s, exec i s = binaryRegLit op i ra lit s) : AnswersBlindly i s :=
  answersBlindly_retire hexec fun w s => by simp only [map_bind]; rfl

theorem answersBlindly_binaryStack {op : BinaryOp} (hexec : ∀ s, exec i s = binaryStack op i s) :
    AnswersBlindly i s :=
  answersBlindly_retire hexec fun w s => by
    simp only [pop_withUnread, map_bind, bind_map_left, Prod.map_fst, Prod.map_snd]
    rfl

theorem answersBlindly_binaryStackLit {op : BinaryOp} {lit : Word}
    (hexec : ∀ s, exec i s = binaryStackLit op i lit s) : AnswersBlindly i s :=
  answersBlindly_retire hexec fun w s => by
    simp only [pop_withUnread, map_bind, bind_map_left, Prod.map_fst, Prod.map_snd]
    rfl

theorem answersBlindly_unaryReg {op : UnaryOp} {ra : RegIdx}
    (hexec : ∀ s, exec i s = unaryReg op i ra s) : AnswersBlindly i s :=
  answersBlindly_retire hexec fun w s => by simp only [map_bind]; rfl

theorem answersBlindly_unaryStack {op : UnaryOp} (hexec : ∀ s, exec i s = unaryStack op i s) :
    AnswersBlindly i s :=
  answersBlindly_retire hexec fun w s => by
    simp only [pop_withUnread, map_bind, bind_map_left, Prod.map_fst, Prod.map_snd]
    rfl

end

/-! ### Every instruction -/

/-- No instruction reads or writes the unread fields, but for the opcode byte of an error. -/
theorem exec_answersBlindly (i : Instr) (s : State) : AnswersBlindly i s := by
  cases i with
  | exit => exact ⟨.ok (s.setFlags s.flags.setStop, s.nextPc .exit), fun _ => rfl⟩
  | nop => exact ⟨.ok (s, s.nextPc .nop), fun _ => rfl⟩
  | flagReset => exact ⟨.ok (s.setFlags s.flags.resetConditions, s.nextPc .flagReset), fun _ => rfl⟩
  | pushLit lit => exact ⟨.ok (s.push lit, s.nextPc (.pushLit lit)), fun _ => rfl⟩
  | mathRandStack =>
    exact ⟨.ok (s.drawRand.push s.randAnswer, s.nextPc .mathRandStack), fun _ => rfl⟩
  | pushReg ra | pushMem addr | stackDupe | movLitReg ra lit | movRegReg ra rb | movMemReg ra addr
  | mathRandReg ra | compareRegReg ra rb | compareRegLit ra lit | compareStackLit lit =>
    exact answersBlindly_retire (fun _ => rfl) fun w s => by simp only [map_bind]; rfl
  | popReg ra =>
    exact answersBlindly_retire (fun _ => rfl) fun w s => by
      simp only [pop_withUnread, map_bind, bind_map_left, Prod.map_fst, Prod.map_snd]
      rfl
  | popMemory addr =>
    exact answersBlindly_retire (fun _ => rfl) fun w s => by
      simp only [pop_withUnread, memWrite_withUnread, map_bind, bind_map_left, Prod.map_fst,
        Prod.map_snd]
      rfl
  | movRegMem ra addr | movMemMem addr1 addr2 =>
    exact answersBlindly_retire (fun _ => rfl) fun w s => by
      simp only [memWrite_withUnread, map_bind]; rfl
  | movLitMem lit addr =>
    exact answersBlindly_retire (fun _ => rfl) fun w s => memWrite_withUnread w s addr lit
  | mathAddReg ra rb | mathSubReg ra rb | mathMulReg ra rb | mathDivReg ra rb | mathAndReg ra rb
  | mathOrReg ra rb | mathXorReg ra rb | mathShlReg ra rb | mathShrReg ra rb | mathPowReg ra rb =>
    exact answersBlindly_binaryReg fun _ => rfl
  | mathAddRegLit ra lit | mathSubRegLit ra lit | mathMulRegLit ra lit | mathDivRegLit ra lit
  | mathAndRegLit ra lit | mathOrRegLit ra lit | mathXorRegLit ra lit | mathShlRegLit ra lit
  | mathShrRegLit ra lit => exact answersBlindly_binaryRegLit fun _ => rfl
  | mathAddStack | mathSubStack | mathMulStack | mathDivStack | mathAndStack | mathOrStack
  | mathXorStack | mathShlStack | mathShrStack | mathPowStack =>
    exact answersBlindly_binaryStack fun _ => rfl
  | mathAddStackLit lit | mathSubStackLit lit | mathMulStackLit lit | mathDivStackLit lit
  | mathAndStackLit lit | mathOrStackLit lit | mathXorStackLit lit | mathShlStackLit lit
  | mathShrStackLit lit => exact answersBlindly_binaryStackLit fun _ => rfl
  | mathNotReg ra | mathIncReg ra | mathDecReg ra | mathSqrtReg ra =>
    exact answersBlindly_unaryReg fun _ => rfl
  | mathNotStack | mathIncStack | mathDecStack | mathSqrtStack =>
    exact answersBlindly_unaryStack fun _ => rfl
  | jumpAbsolute addr =>
    exact answersBlindly_jumpWhen (taken := fun _ => true) (fun _ => rfl) fun _ _ => rfl
  | jumpEqual addr | jumpNotEqual addr | jumpGreater addr | jumpSmaller addr | jumpOverflow addr =>
    exact answersBlindly_jumpWhen (fun _ => rfl) fun _ _ => rfl
  | procedureCall addr => exact ⟨.ok (s.enterProcedure, addr), fun w => rfl⟩
  | procedureReturn =>
    exact ⟨s.leaveProcedure, fun w => by rw [← leaveProcedure_withUnread]; rfl⟩
  | syscall => exact answersBlindly_retire (fun _ => rfl) blind_service

/-- With other values in the unread fields an instruction completes with the same effect, or raises the
same error, named by the opcode byte of the map it is given. -/
theorem exec_withUnread (i : Instr) (s : State) :
    (∃ (u : State) (target : Word), ∀ w, exec i (s.withUnread w) =
      .next ((u.withUnread w).setPc target)) ∨
    (∃ k, ∀ w, exec i (s.withUnread w) =
      .next ((s.withUnread w).raise k (some (i.opcode w.opmap)))) := by
  obtain ⟨r, hr⟩ := exec_answersBlindly i s
  cases r with
  | ok p => exact .inl ⟨p.1, p.2, hr⟩
  | error k => exact .inr ⟨k, hr⟩

/-- Settles O58: the record of an error is the only place where the opcode map shows. -/
theorem bufferAndHeaderAreNotData : Obligations.BufferAndHeaderAreNotData := by
  refine ⟨fun i s t h => exec_constants h, fun i s p h => ?buffer, fun i s m herr => ?map,
    fun s k => List.getElem?_drop⟩
  case buffer =>
    have hwith : ({ s with prog := p, headerSize := h } : State) =
        s.withUnread ⟨p, h, s.opmap, s.err⟩ := rfl
    rcases exec_withUnread i s with ⟨u, target, hu⟩ | ⟨k, hk⟩
    · have hself : exec i s = _ := hu s.unread
      rw [hwith, hu, hself]
      rfl
    · have hself : exec i s = _ := hk s.unread
      rw [hwith, hk, hself]
      rfl
  case map =>
    have hwith : ({ s with opmap := m } : State) = s.withUnread ⟨s.prog, s.headerSize, m, none⟩ := by
      rw [← herr]; rfl
    rcases exec_withUnread i s with ⟨u, target, hu⟩ | ⟨k, hk⟩
    · have hself : exec i s = _ := hu s.unread
      rw [State.unread, herr] at hself
      rw [hwith, hu, hself]
      rfl
    · have hself : exec i s = _ := hk s.unread
      rw [hwith, hk, hself]
      rfl

end Sys2Proof.Machine
end
